-- ==== Sys2Proof/Word.lean ====
section
/-! DEFINITION. Word.lean: the word types of SIKU-CODEC (spec/00_scope.md R7, R10, R11). -/

namespace Sys2Proof

/-- A byte, the width `DATA_W` of the register bus and of every frame position (R7, R10). -/
abbrev Byte := BitVec 8

/-- A 16-bit register value: `ILEN`, `OLEN` (R36, R37). -/
abbrev Half := BitVec 16

/-- A 32-bit value, `VAL_W` wide: `E_VAL`, `D_VAL` (R7, R44, R54). -/
abbrev Word := BitVec 32

/-- A register-space offset 0x000..0x3FF, `ADDR_W` wide (R7, R70). -/
abbrev Offset := BitVec 10

/-- `HDR_BYTES`: the offset of the first payload byte of a frame (R7). -/
def hdrBytes : Nat := 25

/-- `MIN_FRAME`: the length of a frame with an empty payload (R7). -/
def minFrame : Nat := 26

/-- `BUF_BYTES`: the size of `IBUF` and of `OBUF` (R7). -/
def bufBytes : Nat := 256

/-- `ID_BYTES`: the width of the device identifier field (R7). -/
def idBytes : Nat := 16

/-- `PW_BYTES`: the width of the password field (R7). -/
def pwBytes : Nat := 4

end Sys2Proof
end

