-- ==== Sys2Proof/Config.lean ====
section
/-! DEFINITION. Config.lean: what the spec leaves open and an implementation fixes, as ONE record `CFG`
(spec/00_scope.md R8, R9; spec/44_attributes.md R250..R272). A configuration that is not well formed cannot be
built, which is how the model refuses it (R9). -/

namespace Sys2Proof

/-- `CK_ALG`: the two checksum algorithms the source names (R8, R140). -/
inductive CkAlg where
  | sum8
  | xor8
deriving DecidableEq, Repr

/-- `W`: the payload width of an attribute, 1, 2 or 4 bytes (R250). -/
inductive PayloadWidth where
  | one
  | two
  | four
deriving DecidableEq, Repr

/-- The width in bytes. -/
def PayloadWidth.bytes : PayloadWidth → Nat
  | .one => 1
  | .two => 2
  | .four => 4

/-- `KIND` of an attribute (R250). -/
inductive AttrKind where
  | bool
  | enum
  | int
deriving DecidableEq, Repr

/-- `NAME` of an attribute: one of the thirteen of R252, or another one (R251 allows ids beyond the thirteen). -/
inductive AttrName where
  | power
  | presetSpeed
  | manualSpeed
  | direction
  | boost
  | mode
  | humidity
  | rpm
  | filterTimer
  | countdownTimer
  | filterAlarm
  | firmwareVersion
  | deviceType
  | other (text : String)
deriving DecidableEq, Repr

/-- The thirteen attributes the source enumerates, in its order (R252). -/
def AttrName.thirteen : List AttrName :=
  [.power, .presetSpeed, .manualSpeed, .direction, .boost, .mode, .humidity, .rpm, .filterTimer,
   .countdownTimer, .filterAlarm, .firmwareVersion, .deviceType]

/-- The descriptor of a PRESENT attribute id (R250). An id with `PRESENT = 0` has no entry in the table. -/
structure AttrDesc where
  /-- `NAME`; not used by any operation. -/
  name : AttrName
  /-- `W`. -/
  w : PayloadWidth
  /-- `BE`: true is big-endian. -/
  be : Bool
  /-- `SIGNED`: true is two's complement. -/
  signed : Bool
  /-- `MIN`. -/
  min : Int
  /-- `MAX`. -/
  max : Int
  /-- `KIND`. -/
  kind : AttrKind
  /-- `MEMBERS`: for an ENUM, the member of code `MIN + k` is entry `k`. -/
  members : List String
  /-- `RO`; not used by any operation (R257). -/
  ro : Bool
deriving DecidableEq, Repr

/-- The well-formedness of one present descriptor (R251). -/
def AttrDesc.wf (d : AttrDesc) : Bool :=
  (if d.signed then
    decide (-(2 ^ (8 * d.w.bytes - 1) : Int) ≤ d.min) && decide (d.min ≤ d.max) &&
      decide (d.max ≤ (2 ^ (8 * d.w.bytes - 1) : Int) - 1)
  else
    decide (0 ≤ d.min) && decide (d.min ≤ d.max) && decide (d.max ≤ (2 ^ (8 * d.w.bytes) : Int) - 1)) &&
  (match d.kind with
  | .bool => decide (d.w = .one) && !d.signed && decide (d.min = 0) && decide (d.max = 1)
  | .enum => !d.signed && decide ((d.members.length : Int) = d.max - d.min + 1)
  | .int => true)

/-- What the spec's rules fix of each of the thirteen attributes (R259..R271). Every field a rule does not fix is left
open, and an attribute beyond the thirteen is constrained by R251 alone. -/
def AttrDesc.asNamed (d : AttrDesc) : Bool :=
  match d.name with
  | .power => decide (d.kind = .bool) && !d.ro
  | .presetSpeed => decide (d.kind = .int) && !d.signed && decide (d.min = 1) && decide (d.max = 10)
  | .manualSpeed => decide (d.kind = .int) && !d.signed && decide (d.min = 0) && decide (d.max = 255)
  | .direction =>
    decide (d.kind = .enum) && decide (d.members.length = 3) && d.members.elem "forward" &&
      d.members.elem "reverse" && d.members.elem "alternating"
  | .boost => decide (d.kind = .bool)
  | .mode =>
    decide (d.kind = .enum) && decide (d.members.length = 3) && d.members.elem "auto" &&
      d.members.elem "sleep" && d.members.elem "party"
  | .humidity => d.ro && decide (d.kind = .int) && decide (d.min ≤ 45) && decide (45 ≤ d.max)
  | .rpm => d.ro && decide (d.kind = .int)
  | .filterTimer => decide (d.kind = .int)
  | .countdownTimer => decide (d.kind = .int)
  | .filterAlarm => d.ro && decide (d.kind = .bool)
  | .firmwareVersion => d.ro && decide (d.kind = .int)
  | .deviceType => decide (d.kind ≠ .bool)
  | .other _ => true

/-- `ATTR_TABLE`: the present ids with their descriptors, ids strictly rising; an id without an entry has
`PRESENT = 0` (R8, R250). -/
abbrev AttrTable := List (Byte × AttrDesc)

/-- The ids rise strictly, so that an id has one descriptor and equal tables are equal data. -/
def idsRise : AttrTable → Bool
  | [] => true
  | e :: rest => rest.all (fun f => decide (e.1.toNat < f.1.toNat)) && idsRise rest

/-- The configuration record `CFG` before its check (R8). -/
structure RawConfig where
  /-- `MAGIC0`. -/
  magic0 : Byte
  /-- `MAGIC1`. -/
  magic1 : Byte
  /-- `VERSION`. -/
  version : Byte
  /-- `CK_ALG`. -/
  ckAlg : CkAlg
  /-- `PAD`. -/
  pad : Byte
  /-- `ATTR_TABLE`. -/
  attrTable : AttrTable
deriving DecidableEq, Repr

/-- `CFG` is well formed: the table's ids rise, every present descriptor meets R251 and what R259..R271 fix of its
attribute, and each of the thirteen attributes is the `NAME` of exactly one present id (R9, R251). -/
def RawConfig.wf (c : RawConfig) : Bool :=
  idsRise c.attrTable &&
  c.attrTable.all (fun e => e.2.wf && e.2.asNamed) &&
  AttrName.thirteen.all (fun n => decide ((c.attrTable.filter (fun e => decide (e.2.name = n))).length = 1))

/-- An unsigned, little-endian, writable integer descriptor, from which the rows of R272 are written. -/
def AttrDesc.plain (name : AttrName) (w : PayloadWidth) (max : Int) : AttrDesc :=
  { name := name, w := w, be := false, signed := false, min := 0, max := max, kind := .int, members := [], ro := false }

/-- The attribute table of `REFCFG` (R272). -/
def refTable : AttrTable :=
  [(0x01, { AttrDesc.plain .power .one 1 with kind := .bool }),
   (0x02, { AttrDesc.plain .presetSpeed .one 10 with min := 1 }),
   (0x03, AttrDesc.plain .manualSpeed .one 255),
   (0x04, { AttrDesc.plain .direction .one 2 with kind := .enum, members := ["forward", "reverse", "alternating"] }),
   (0x05, { AttrDesc.plain .boost .one 1 with kind := .bool }),
   (0x06, { AttrDesc.plain .mode .one 2 with kind := .enum, members := ["auto", "sleep", "party"] }),
   (0x07, { AttrDesc.plain .humidity .one 255 with ro := true })] ++
  [(0x08, { AttrDesc.plain .rpm .two 65535 with ro := true }),
   (0x09, { AttrDesc.plain .filterTimer .two 65535 with be := true }),
   (0x0A, AttrDesc.plain .countdownTimer .two 65535),
   (0x0B, { AttrDesc.plain .filterAlarm .one 1 with kind := .bool, ro := true }),
   (0x0C, { AttrDesc.plain .firmwareVersion .four 4294967295 with be := true, ro := true }),
   (0x0D, AttrDesc.plain .deviceType .two 65535)]

/-- `REFCFG` before its check (R272): the spec's illustration, not the device's configuration. -/
def refRaw : RawConfig :=
  { magic0 := 0xA5, magic1 := 0x5A, version := 0x01, ckAlg := .sum8, pad := 0x00, attrTable := refTable }

/-- The signed test attribute of `REFCFG-S` (R272). -/
def testSigned : AttrDesc :=
  { name := .other "test_signed", w := .two, be := false, signed := true, min := -300, max := 300, kind := .int,
    members := [], ro := false }

/-- A well-formed configuration `CFG`, the only kind the model admits (R8, R9). The default values serve only to show
Lean that the type is inhabited. -/
structure Config where
  /-- The parameters. -/
  raw : RawConfig := refRaw
  /-- They are well formed (R9). -/
  ok : raw.wf = true := by decide
deriving DecidableEq, Repr, Inhabited

/-- The check of R9 on any record: a record that is not well formed is refused (`none`). -/
def Config.check (r : RawConfig) : Option Config :=
  if h : r.wf = true then some { raw := r, ok := h } else none

/-- The configuration of the device: an OPEN value (R8; 92_eei_decisions.md D3..D7). It has no body, so no proof can
see what it is; every claim of the model holds of every well-formed `CFG`. -/
opaque Config.device : Config

/-- `REFCFG` (R272), for the spec's examples and vectors only. -/
def refCfg : Config := { raw := refRaw, ok := by decide }

/-- `REFCFG` with `CK_ALG = XOR8`, as the vectors that say so take it (R272). -/
def refCfgXor : Config := { raw := { refRaw with ckAlg := .xor8 }, ok := by decide }

/-- `REFCFG-S`: `REFCFG` with the signed test attribute at id 0x0E (R272). -/
def refCfgS : Config :=
  { raw := { refRaw with attrTable := refTable ++ [(0x0E, testSigned)] }, ok := by decide }

end Sys2Proof
end

