-- ==== Sys2Proof/Syntax.lean ====
section
/-! DEFINITION. Syntax.lean: the instructions, one constructor per mnemonic of spec/opcode_table.json
(spec/30_encoding.md R100, R103, R109, R111). The table has three formats: the byte written to `OP`, the function
code of a frame, and the host's bus word. -/

namespace Sys2Proof

/-- Where a function code stands when the block acts on it: byte 23 of the frame that DECODE parses, or the input
register `E_FN` of the command that ENCODE builds (opcode_table.json, field `fn`; R170, R200). -/
inductive FnPlace where
  | frame
  | command
deriving DecidableEq, Repr

/-- One constructor per mnemonic of spec/opcode_table.json. -/
inductive Instr where
  /-- `OP = 0x00` (R282). -/
  | nop
  /-- `OP = 0x01` (R143). -/
  | cksum
  /-- `OP = 0x02` (R144). -/
  | validate
  /-- `OP = 0x03` (R170). -/
  | decode
  /-- `OP = 0x04` (R200). -/
  | encode
  /-- `OP` in 0x05..0xFF (R283). -/
  | illegal (op : Byte)
  /-- Function code 0x01 (R230). -/
  | read (place : FnPlace)
  /-- Function code 0x02 (R231). -/
  | write (place : FnPlace)
  /-- Function code 0x03 (R232). -/
  | readWrite (place : FnPlace)
  /-- Function code 0x04 (R233). -/
  | increment (place : FnPlace)
  /-- Function code 0x05 (R234). -/
  | decrement (place : FnPlace)
  /-- A function code outside 0x01..0x05 (R109). -/
  | fnUnknown (place : FnPlace) (fn : Byte)
  /-- A host write of one byte (R73, R111). -/
  | wr (addr : Offset) (data : Byte)
  /-- A host read of one byte (R72, R111). -/
  | rd (addr : Offset)
deriving DecidableEq, Repr

/-- The instruction's mnemonic as spec/opcode_table.json spells it. -/
def Instr.mnemonic : Instr → String
  | .nop => "NOP"
  | .cksum => "CKSUM"
  | .validate => "VALIDATE"
  | .decode => "DECODE"
  | .encode => "ENCODE"
  | .illegal _ => "ILLEGAL"
  | .read _ => "READ"
  | .write _ => "WRITE"
  | .readWrite _ => "READ_WRITE"
  | .increment _ => "INCREMENT"
  | .decrement _ => "DECREMENT"
  | .fnUnknown _ _ => "FN_UNKNOWN"
  | .wr _ _ => "WR"
  | .rd _ => "RD"

end Sys2Proof
end

