-- ==== Sys2Proof/WellFormed.lean ====
section
/-! DEFINITION. WellFormed.lean: which terms of `Instr` are instructions of the table (spec/30_encoding.md R100, R109). -/

namespace Sys2Proof

/-- An `OP` value without an operation, 0x05..0xFF (R100). -/
def isIllegalOp (op : Byte) : Bool := decide (0x05 ≤ op.toNat)

/-- A function code outside 0x01..0x05 (R109). -/
def isUnknownFn (fn : Byte) : Bool := decide (fn.toNat = 0) || decide (0x05 < fn.toNat)

/-- `illegal` carries an illegal `OP` value and `fnUnknown` an unknown function code; every other term is well formed,
since the types of its operands are their widths. -/
def Instr.wf : Instr → Bool
  | .nop => true
  | .cksum => true
  | .validate => true
  | .decode => true
  | .encode => true
  | .illegal op => isIllegalOp op
  | .read _ => true
  | .write _ => true
  | .readWrite _ => true
  | .increment _ => true
  | .decrement _ => true
  | .fnUnknown _ fn => isUnknownFn fn
  | .wr _ _ => true
  | .rd _ => true

end Sys2Proof
end

