-- ==== Sys2Proof/Decode.lean ====
section
/-! DEFINITION. Decode.lean: the decoder, total on every word, and after it the encoder
(spec/30_encoding.md R100, R103, R109, R111; spec/opcode_table.json). -/

namespace Sys2Proof

/-- Where a word is read from, which fixes its format (opcode_table.json, field `format`). -/
inductive Site where
  /-- Format OP: the byte the register `OP` holds. -/
  | op
  /-- Format FRAME_FN: a function code. -/
  | fn (place : FnPlace)
  /-- Format BUS: the host's bus word. -/
  | bus
deriving DecidableEq, Repr

/-- The number of bits of a word of each format (R100, R103, R111). -/
def Site.width : Site → Nat
  | .op => 8
  | .fn _ => 8
  | .bus => 19

/-- Why a word is no instruction: the words of a format have a fixed width, and a wider word does not exist. -/
inductive DecodeError where
  /-- Wider than the 8 bits of `OP`. -/
  | opTooWide
  /-- Wider than the 8 bits of a function code. -/
  | fnTooWide
  /-- Wider than the 19 bits of a bus word: a transaction that does not exist (R75). -/
  | busWordTooWide
deriving DecidableEq, Repr

/-- The operation an `OP` value selects; every byte has exactly one (R100, R281). -/
def decodeOp (op : Byte) : Instr :=
  match op.toNat with
  | 0x00 => .nop
  | 0x01 => .cksum
  | 0x02 => .validate
  | 0x03 => .decode
  | 0x04 => .encode
  | _ => .illegal op

/-- The function code at a place; every byte is one of the five codes or unknown (R103, R109). -/
def decodeFn (place : FnPlace) (fn : Byte) : Instr :=
  match fn.toNat with
  | 0x01 => .read place
  | 0x02 => .write place
  | 0x03 => .readWrite place
  | 0x04 => .increment place
  | 0x05 => .decrement place
  | _ => .fnUnknown place fn

/-- The host access of a 19-bit bus word: `WE` bit 18, `ADDR` bits 17:8, `DATA` bits 7:0, ignored for a read (R111). -/
def decodeBus (w : BitVec 19) : Instr :=
  if w.getLsbD 18 then .wr (w.extractLsb' 8 10) (w.extractLsb' 0 8)
  else .rd (w.extractLsb' 8 10)

/-- The decoder of all three formats, total on every number: a word too wide for its format is rejected by name. -/
def decode (site : Site) (w : Nat) : Except DecodeError Instr :=
  match site with
  | .op => if w < 2 ^ 8 then .ok (decodeOp (BitVec.ofNat 8 w)) else .error .opTooWide
  | .fn place => if w < 2 ^ 8 then .ok (decodeFn place (BitVec.ofNat 8 w)) else .error .fnTooWide
  | .bus => if w < 2 ^ 19 then .ok (decodeBus (BitVec.ofNat 19 w)) else .error .busWordTooWide

/-- The bus word of an access: `WE * 2^18 + ADDR * 2^8 + DATA` (R111). -/
def busWord (we : Bool) (addr : Offset) (data : Byte) : Nat :=
  we.toNat * 2 ^ 18 + addr.toNat * 2 ^ 8 + data.toNat

/-- The encoder: the format and the word of an instruction, from the tables of R100, R103 and R111. A read's `DATA`
is written 0 (R111). -/
def encode : Instr → Site × Nat
  | .nop => (.op, 0x00)
  | .cksum => (.op, 0x01)
  | .validate => (.op, 0x02)
  | .decode => (.op, 0x03)
  | .encode => (.op, 0x04)
  | .illegal op => (.op, op.toNat)
  | .read place => (.fn place, 0x01)
  | .write place => (.fn place, 0x02)
  | .readWrite place => (.fn place, 0x03)
  | .increment place => (.fn place, 0x04)
  | .decrement place => (.fn place, 0x05)
  | .fnUnknown place fn => (.fn place, fn.toNat)
  | .wr addr data => (.bus, busWord true addr data)
  | .rd addr => (.bus, busWord false addr 0)

/-- The instruction read from a word that spec/opcode_table.json numbers. The table's OP and FRAME_FN rows are both
8 bits wide and share their values, and only an OP byte is fetched by itself (a function code is read inside a frame
or a command), so an 8-bit word is read as an `OP` value; a wider one is a bus word, whose three bytes leave bits
23:19 zero. -/
def decodeTableWord (nbits w : Nat) : Option Instr :=
  (decode (if nbits ≤ 8 then .op else .bus) w).toOption

/-- A row of spec/opcode_table.json: the words `w` with `w &&& mask = value`. -/
structure OpcodeRow where
  mnemonic : String
  site : Site
  value : Nat
  mask : Nat
deriving DecidableEq, Repr

/-- The word is one the row stands for. -/
def OpcodeRow.matches (r : OpcodeRow) (w : Nat) : Bool := decide (w &&& r.mask = r.value)

/-- The rows of format OP. -/
def opRows : List OpcodeRow :=
  [⟨"NOP", .op, 0x00, 0xFF⟩, ⟨"CKSUM", .op, 0x01, 0xFF⟩, ⟨"VALIDATE", .op, 0x02, 0xFF⟩, ⟨"DECODE", .op, 0x03, 0xFF⟩,
   ⟨"ENCODE", .op, 0x04, 0xFF⟩, ⟨"ILLEGAL", .op, 0x05, 0xFF⟩, ⟨"ILLEGAL", .op, 0x06, 0xFE⟩, ⟨"ILLEGAL", .op, 0x08, 0xF8⟩,
   ⟨"ILLEGAL", .op, 0x10, 0xF0⟩, ⟨"ILLEGAL", .op, 0x20, 0xE0⟩, ⟨"ILLEGAL", .op, 0x40, 0xC0⟩, ⟨"ILLEGAL", .op, 0x80, 0x80⟩]

/-- The rows of format FRAME_FN, at a place. -/
def fnRows (p : FnPlace) : List OpcodeRow :=
  [⟨"READ", .fn p, 0x01, 0xFF⟩, ⟨"WRITE", .fn p, 0x02, 0xFF⟩, ⟨"READ_WRITE", .fn p, 0x03, 0xFF⟩,
   ⟨"INCREMENT", .fn p, 0x04, 0xFF⟩, ⟨"DECREMENT", .fn p, 0x05, 0xFF⟩, ⟨"FN_UNKNOWN", .fn p, 0x00, 0xFF⟩,
   ⟨"FN_UNKNOWN", .fn p, 0x06, 0xFE⟩, ⟨"FN_UNKNOWN", .fn p, 0x08, 0xF8⟩, ⟨"FN_UNKNOWN", .fn p, 0x10, 0xF0⟩,
   ⟨"FN_UNKNOWN", .fn p, 0x20, 0xE0⟩, ⟨"FN_UNKNOWN", .fn p, 0x40, 0xC0⟩, ⟨"FN_UNKNOWN", .fn p, 0x80, 0x80⟩]

/-- The rows of format BUS. -/
def busRows : List OpcodeRow := [⟨"WR", .bus, 0x40000, 0x40000⟩, ⟨"RD", .bus, 0x00000, 0x40000⟩]

end Sys2Proof
end

