-- ==== Sys2Proof/Machine/State.lean ====
section
/-! DEFINITION. Machine/State.lean: everything the spec gives the machine, as plain data (spec/10_state.md R30..R61),
and its reset value (spec/70_reset_and_hazards.md R340). -/

namespace Sys2Proof.Machine

/-- The contents of a buffer: the bytes that are not `unlisted`, by index, indexes strictly rising. -/
abbrev Memory := List Host.Cell

/-- The encoder's inputs other than `ILEN` (R38..R42, R44..R46). -/
structure CommandInputs where
  /-- `E_FN` (R38). -/
  fn : Byte
  /-- `E_ATTR` (R39). -/
  attr : Byte
  /-- `E_FLAGS.VAL_PRESENT`, bit 0; the register has no other storage (R40). -/
  valPresent : Bool
  /-- `E_IDLEN` (R41). -/
  idLen : Byte
  /-- `E_PWLEN` (R42). -/
  pwLen : Byte
  /-- `E_VAL` (R44). -/
  val : Word
  /-- `E_ID[0..15]` (R45). -/
  id : Vector Byte 16
  /-- `E_PW[0..3]` (R46). -/
  pw : Vector Byte 4
deriving DecidableEq, Repr

/-- The decode group (R60): the results of CKSUM, VALIDATE and DECODE (R47..R56). -/
structure DecodeGroup where
  /-- `D_VER` (R47). -/
  ver : Byte
  /-- `D_FN` (R48). -/
  fn : Byte
  /-- `D_ATTR` (R49). -/
  attr : Byte
  /-- `D_PLEN` (R50). -/
  plen : Byte
  /-- `D_FLAGS.VAL_VALID`, bit 0 (R51). -/
  valValid : Bool
  /-- `D_FLAGS.FIELDS_VALID`, bit 1 (R51). -/
  fieldsValid : Bool
  /-- `D_FLAGS.REPLY_EXPECTED`, bit 2 (R51). -/
  replyExpected : Bool
  /-- `D_CKCALC` (R52). -/
  ckCalc : Byte
  /-- `D_CKRX` (R53). -/
  ckRx : Byte
  /-- `D_VAL` (R54). -/
  val : Word
  /-- `D_ID[0..15]` (R55). -/
  id : Vector Byte 16
  /-- `D_PW[0..3]` (R56). -/
  pw : Vector Byte 4
deriving DecidableEq, Repr

/-- The encode group (R60): the results of ENCODE. -/
structure EncodeGroup where
  /-- `OLEN` (R37). -/
  olen : Half
  /-- `O_FLAGS.REPLY_EXPECTED`, bit 0 (R43). -/
  replyExpected : Bool
  /-- `OBUF[0..255]` (R58). -/
  obuf : Memory
deriving DecidableEq, Repr

/-- One step of the outside world or of an agent, in the single total order of R81. -/
inductive Event where
  /-- The `HOST` makes the access of a bus word (R111). -/
  | bus (word : Nat)
  /-- It is the `CODEC` agent's turn (R280). -/
  | codec
  /-- The `HOST` asserts reset (R341). -/
  | reset
deriving DecidableEq, Repr

/-- The machine. The first part is the block's state `(REGS, IBUF, OBUF, BUSY, DONE, FAULT)` of R30; then the
configuration, which no step writes (R8); then the model's own fields, `agenda` and `lastRead`. -/
structure State where
  /-- `OP` (R33). -/
  op : Byte
  /-- `ERR` (R34). -/
  err : Byte
  /-- `ERRSUB` (R35). -/
  errsub : Byte
  /-- `STATUS.BUSY` (R61, R59). -/
  busy : Bool
  /-- `STATUS.DONE` (R61). -/
  done : Bool
  /-- The model-level mark `FAULT` (R59, R308). -/
  fault : Bool
  /-- `ILEN` (R36). -/
  ilen : Half
  /-- `E_FN` .. `E_PW`. -/
  cmd : CommandInputs
  /-- `IBUF[0..255]` (R57). -/
  ibuf : Memory
  /-- The decode group. -/
  dec : DecodeGroup
  /-- The encode group. -/
  enc : EncodeGroup
  /-- `CFG`: not state but a parameter, fixed for the life of the block (R8, R30). It stands here so that every claim
  ranges over every well-formed configuration; no step writes it. DESIGN CHOICE (notes/assumptions/1.md). -/
  cfg : Config
  /-- The model's own: the rest of the total order of the agents' steps, oldest first (R81). DESIGN CHOICE
  (notes/assumptions/2.md). -/
  agenda : List Event
  /-- The model's own: the byte the last host read returned (R72); it is the host's, not the block's (R112).
  `none`: no read has happened. DESIGN CHOICE (notes/assumptions/3.md). -/
  lastRead : Option Byte
deriving DecidableEq, Repr

/-- The machine never stops with a fault: the spec's only fault is the mark `FAULT`, after which the block goes on
(R79, R280, R308). No definition raises one. -/
inductive Fault where
deriving DecidableEq, Repr

/-- Why a step has no meaning. -/
inductive Refusal where
  /-- An instruction without a meaning; no arm of exec raises it. Safe: the machine stops. -/
  | notModelled (mnemonic : String)
  /-- Raised by the host's turn on a word wider than 19 bits: such a transaction does not exist, and R75 says that a
  model refuses it. Safe: the machine stops. -/
  | noSuchTransaction (word : Nat)
deriving DecidableEq, Repr

/-- Sixteen zero bytes. -/
def zeroId : Vector Byte 16 := Vector.replicate 16 0

/-- Four zero bytes. -/
def zeroPw : Vector Byte 4 := Vector.replicate 4 0

/-- The encoder's inputs after reset (R340). -/
def CommandInputs.zero : CommandInputs :=
  { fn := 0, attr := 0, valPresent := false, idLen := 0, pwLen := 0, val := 0, id := zeroId, pw := zeroPw }

/-- The decode group all 0 (R60, R340). -/
def DecodeGroup.zero : DecodeGroup :=
  { ver := 0, fn := 0, attr := 0, plen := 0, valValid := false, fieldsValid := false, replyExpected := false,
    ckCalc := 0, ckRx := 0, val := 0, id := zeroId, pw := zeroPw }

/-- The encode group all 0 (R60, R340). -/
def EncodeGroup.zero : EncodeGroup := { olen := 0, replyExpected := false, obuf := [] }

/-- The machine right after reset (R340): every register and buffer byte 0, `BUSY = DONE = FAULT = 0`, the device's
configuration, and no step of the host waiting. -/
def State.reset : State :=
  { op := 0, err := 0, errsub := 0, busy := false, done := false, fault := false, ilen := 0,
    cmd := CommandInputs.zero, ibuf := [], dec := DecodeGroup.zero, enc := EncodeGroup.zero,
    cfg := Config.device, agenda := [], lastRead := none }

end Sys2Proof.Machine
end

