-- ==== Sys2Proof/Machine/Flags.lean ====
section
/-! DEFINITION. Machine/Flags.lean: the flag registers as the host reads them, and the function codes' flag
(spec/10_state.md R40, R43, R51, R61; spec/43_function_codes.md R235). Reserved bits read 0 (R108). -/

namespace Sys2Proof.Machine

/-- A bit in position `k` of a byte. -/
def bitAt (k : Nat) (b : Bool) : Byte := if b then BitVec.ofNat 8 (2 ^ k) else 0

/-- `STATUS.ERRF`: 1 exactly when `ERR` is not 0; not separate storage (R61). -/
def State.errf (s : State) : Bool := decide (s.err ≠ 0)

/-- `STATUS`: `4*ERRF + 2*DONE + BUSY` (R61, R72). -/
def State.statusByte (s : State) : Byte := bitAt 2 s.errf ||| bitAt 1 s.done ||| bitAt 0 s.busy

/-- `E_FLAGS` (R40). -/
def CommandInputs.flags (c : CommandInputs) : Byte := bitAt 0 c.valPresent

/-- `O_FLAGS` (R43). -/
def EncodeGroup.flags (e : EncodeGroup) : Byte := bitAt 0 e.replyExpected

/-- `D_FLAGS` (R51). -/
def DecodeGroup.flags (d : DecodeGroup) : Byte :=
  bitAt 2 d.replyExpected ||| bitAt 1 d.fieldsValid ||| bitAt 0 d.valValid

/-- The five function codes (R103). -/
inductive FnCode where
  | read
  | write
  | readWrite
  | increment
  | decrement
deriving DecidableEq, Repr

/-- The code's byte (R103). -/
def FnCode.byte : FnCode → Byte
  | .read => 0x01
  | .write => 0x02
  | .readWrite => 0x03
  | .increment => 0x04
  | .decrement => 0x05

/-- `ReplyExpected(fn)`: no for WRITE, yes for the four others (R235). -/
def FnCode.replyExpected : FnCode → Bool
  | .read => true
  | .write => false
  | .readWrite => true
  | .increment => true
  | .decrement => true

/-- WRITE and READ_WRITE require a value in ENCODE and a full payload in DECODE (R204, R173). -/
def FnCode.needsValue : FnCode → Bool
  | .read => false
  | .write => true
  | .readWrite => true
  | .increment => false
  | .decrement => false

end Sys2Proof.Machine
end

