-- ==== Sys2Proof/Machine/Operands.lean ====
section
/-! DEFINITION. Machine/Operands.lean: the operands an operation reads: the bytes of a buffer, the checksum of a byte
string, the attribute table, the conversion of a value (spec/40_checksum.md R140; spec/44_attributes.md R250..R255). -/

namespace Sys2Proof.Machine

/-- What an index that is not listed reads as: 0, the reset value of every buffer byte (R340). -/
def Memory.unlisted : Byte := 0

/-- Read one byte of a buffer. -/
def Memory.read : Memory → Nat → Byte
  | [], _ => Memory.unlisted
  | (k, b) :: rest, i => if k = i then b else Memory.read rest i

/-- `B[start..start+n-1]`: `n` bytes of a buffer, the byte at `start` first (R10). -/
def Memory.range (m : Memory) (start n : Nat) : List Byte := (List.range n).map fun i => m.read (start + i)

/-- `CK(s)`: the sum of the bytes modulo 256 or their exclusive or, 0 for the empty string (R140). -/
def ck (alg : CkAlg) : List Byte → Byte
  | [] => 0
  | b :: rest =>
    match alg with
    | .sum8 => b + ck alg rest
    | .xor8 => b ^^^ ck alg rest

/-- `ATTR_TABLE[a]`: the descriptor of id `a`, or `none` for `PRESENT = 0` (R250). -/
def attrOf (c : Config) (a : Byte) : Option AttrDesc :=
  (c.raw.attrTable.find? fun e => e.1 == a).map fun e => e.2

/-- The unsigned number of a byte string, its first byte the least significant. -/
def leNat : List Byte → Nat
  | [] => 0
  | b :: rest => b.toNat + 256 * leNat rest

/-- `Unmarshal(b, d)`: the payload bytes in the attribute's byte order, sign- or zero-extended to 32 bits (R253). -/
def unmarshal (b : List Byte) (d : AttrDesc) : Word :=
  let u : BitVec (8 * d.w.bytes) := BitVec.ofNat (8 * d.w.bytes) (leNat (if d.be then b.reverse else b))
  if d.signed then u.signExtend 32 else u.setWidth 32

/-- `Marshal(v, d)`: the low `8W` bits of `v` as `W` bytes in the attribute's byte order (R254). -/
def marshal (v : Word) (d : AttrDesc) : List Byte :=
  let le := (List.range d.w.bytes).map fun k => v.extractLsb' (8 * k) 8
  if d.be then le.reverse else le

/-- The integer a 32-bit value stands for: `s32(v)` for a signed attribute, unsigned otherwise (R11, R255). -/
def valueOf (v : Word) (d : AttrDesc) : Int := if d.signed then v.toInt else (v.toNat : Int)

/-- `InRange(v, d)` (R255). -/
def inRange (v : Word) (d : AttrDesc) : Bool := decide (d.min ≤ valueOf v d) && decide (valueOf v d ≤ d.max)

/-- `PayloadLenOK(fn, P, W)` (R173). -/
def payloadLenOk (fn : FnCode) (p w : Nat) : Bool :=
  if fn.needsValue then decide (p = w) else decide (p = 0) || decide (p = w)

/-- The password field of a frame: `E_PW[j]` for `j < E_PWLEN`, then `PAD` (R205). -/
def passwordField (c : CommandInputs) (pad : Byte) : List Byte :=
  [if 0 < c.pwLen.toNat then c.pw[0] else pad, if 1 < c.pwLen.toNat then c.pw[1] else pad,
   if 2 < c.pwLen.toNat then c.pw[2] else pad, if 3 < c.pwLen.toNat then c.pw[3] else pad]

/-- The payload of a command: the marshalled value when one is present, else nothing (R205). -/
def payloadField (c : CommandInputs) (d : AttrDesc) : List Byte := if c.valPresent then marshal c.val d else []

/-- `Assemble(fn, d, pres)`: every byte of the frame but the checksum (R101, R205). -/
def assemble (fn : FnCode) (d : AttrDesc) (cfg : Config) (c : CommandInputs) : List Byte :=
  [cfg.raw.magic0, cfg.raw.magic1, cfg.raw.version] ++ c.id.toList ++ passwordField c cfg.raw.pad ++
    [fn.byte, c.attr] ++ payloadField c d

/-- The frame of a command: the assembled bytes and their checksum (R207). -/
def frameOf (fn : FnCode) (d : AttrDesc) (cfg : Config) (c : CommandInputs) : List Byte :=
  assemble fn d cfg c ++ [ck cfg.raw.ckAlg (assemble fn d cfg c)]

/-- `ILEN` as a number. -/
def State.frameLen (s : State) : Nat := s.ilen.toNat

/-- The two magic bytes of the input are the configuration's (R142). -/
def State.magicOk (s : State) : Bool :=
  decide (s.ibuf.read 0 = s.cfg.raw.magic0) && decide (s.ibuf.read 1 = s.cfg.raw.magic1)

/-- The checksum of every input byte but the last, `CK(IBUF[0..L-2])` (R142). -/
def State.computedCk (s : State) : Byte := ck s.cfg.raw.ckAlg (s.ibuf.range 0 (s.frameLen - 1))

/-- The received checksum, `IBUF[L-1]` (R142). -/
def State.receivedCk (s : State) : Byte := s.ibuf.read (s.frameLen - 1)

end Sys2Proof.Machine
end

