-- ==== Sys2Proof/Machine/Ops.lean ====
section
/-! DEFINITION. Machine/Ops.lean: the named operations over buffers, registers and the completion of an operation
(spec/20_memory.md R72..R79; spec/10_state.md R32, R60; spec/60_exceptions.md R300, R301, R306; spec/45_control_ops.md
R280; spec/70_reset_and_hazards.md R340). -/

namespace Sys2Proof.Machine

/-! ## Buffers -/

/-- The canonical form: indexes strictly rising, no entry equal to what an unlisted index reads as. -/
def Memory.wf : Memory → Bool
  | [] => true
  | (k, b) :: rest => decide (b ≠ Memory.unlisted) && rest.all (fun c => decide (k < c.1)) && Memory.wf rest

/-- Write one byte of a buffer, keeping the canonical form. -/
def Memory.write : Memory → Nat → Byte → Memory
  | [], i, v => if v = Memory.unlisted then [] else [(i, v)]
  | (k, b) :: rest, i, v =>
    if i < k then (if v = Memory.unlisted then (k, b) :: rest else (i, v) :: (k, b) :: rest)
    else if i = k then (if v = Memory.unlisted then rest else (i, v) :: rest)
    else (k, b) :: Memory.write rest i v

/-- Write a byte string from `start` on, its first byte at `start`. -/
def Memory.writeBytes : Memory → Nat → List Byte → Memory
  | m, _, [] => m
  | m, start, b :: rest => Memory.writeBytes (m.write start b) (start + 1) rest

/-! ## The register map -/

/-- The registers and buffers of R32, by the names of the spec. -/
inductive Reg where
  | OP | STATUS | ERR | ERRSUB | ILEN | OLEN | E_FN | E_ATTR | E_FLAGS | E_IDLEN | E_PWLEN | O_FLAGS
  | E_VAL | E_ID | E_PW
  | D_VER | D_FN | D_ATTR | D_PLEN | D_FLAGS | D_CKCALC | D_CKRX | D_VAL | D_ID | D_PW
  | IBUF | OBUF
deriving DecidableEq, Repr

/-- Host access to a register (R32). -/
inductive Access where
  | rw
  | ro
deriving DecidableEq, Repr

/-- A row of the register map: the register, its lowest offset, how many offsets it takes, the host's access. -/
structure RegRow where
  reg : Reg
  base : Nat
  size : Nat
  access : Access
deriving DecidableEq, Repr

/-- The register map of R32. An offset in no row is reserved. -/
def regMap : List RegRow :=
  [⟨.OP, 0x000, 1, .rw⟩, ⟨.STATUS, 0x001, 1, .ro⟩, ⟨.ERR, 0x002, 1, .ro⟩, ⟨.ERRSUB, 0x003, 1, .ro⟩,
   ⟨.ILEN, 0x004, 2, .rw⟩, ⟨.OLEN, 0x006, 2, .ro⟩, ⟨.E_FN, 0x008, 1, .rw⟩, ⟨.E_ATTR, 0x009, 1, .rw⟩,
   ⟨.E_FLAGS, 0x00A, 1, .rw⟩, ⟨.E_IDLEN, 0x00B, 1, .rw⟩, ⟨.E_PWLEN, 0x00C, 1, .rw⟩, ⟨.O_FLAGS, 0x00D, 1, .ro⟩,
   ⟨.E_VAL, 0x010, 4, .rw⟩, ⟨.E_ID, 0x014, 16, .rw⟩, ⟨.E_PW, 0x024, 4, .rw⟩] ++
  [⟨.D_VER, 0x040, 1, .ro⟩, ⟨.D_FN, 0x041, 1, .ro⟩, ⟨.D_ATTR, 0x042, 1, .ro⟩, ⟨.D_PLEN, 0x043, 1, .ro⟩,
   ⟨.D_FLAGS, 0x044, 1, .ro⟩, ⟨.D_CKCALC, 0x045, 1, .ro⟩, ⟨.D_CKRX, 0x046, 1, .ro⟩, ⟨.D_VAL, 0x048, 4, .ro⟩,
   ⟨.D_ID, 0x04C, 16, .ro⟩, ⟨.D_PW, 0x05C, 4, .ro⟩, ⟨.IBUF, 0x100, 256, .rw⟩, ⟨.OBUF, 0x200, 256, .ro⟩]

/-- The row an offset lies in, or `none` for a reserved offset (R32, R74). -/
def rowAt (a : Nat) : Option RegRow := regMap.find? fun r => decide (r.base ≤ a) && decide (a < r.base + r.size)

/-- Byte `k` of a register, bits `8k+7 : 8k` (R76). -/
def byteOf {n : Nat} (x : BitVec n) (k : Nat) : Byte := x.extractLsb' (8 * k) 8

/-- `x` with byte `k` replaced by `v`, every other bit kept (R73, R76). -/
def setByte {n : Nat} (x : BitVec n) (k : Nat) (v : Byte) : BitVec n :=
  (x &&& ~~~((0xFF : BitVec n) <<< (8 * k))) ||| (v.setWidth n <<< (8 * k))

/-- Byte `k` of a register or buffer as the host reads it (R72, R76). -/
def State.regByte (s : State) (r : Reg) (k : Nat) : Byte :=
  match r with
  | .OP => s.op
  | .STATUS => s.statusByte
  | .ERR => s.err
  | .ERRSUB => s.errsub
  | .ILEN => byteOf s.ilen k
  | .OLEN => byteOf s.enc.olen k
  | .E_FN => s.cmd.fn
  | .E_ATTR => s.cmd.attr
  | .E_FLAGS => s.cmd.flags
  | .E_IDLEN => s.cmd.idLen
  | .E_PWLEN => s.cmd.pwLen
  | .O_FLAGS => s.enc.flags
  | .E_VAL => byteOf s.cmd.val k
  | .E_ID => s.cmd.id[k]?.getD 0
  | .E_PW => s.cmd.pw[k]?.getD 0
  | .D_VER => s.dec.ver
  | .D_FN => s.dec.fn
  | .D_ATTR => s.dec.attr
  | .D_PLEN => s.dec.plen
  | .D_FLAGS => s.dec.flags
  | .D_CKCALC => s.dec.ckCalc
  | .D_CKRX => s.dec.ckRx
  | .D_VAL => byteOf s.dec.val k
  | .D_ID => s.dec.id[k]?.getD 0
  | .D_PW => s.dec.pw[k]?.getD 0
  | .IBUF => s.ibuf.read k
  | .OBUF => s.enc.obuf.read k

/-- `MemRead(a, 1)` (R72): one byte, at any time; a reserved offset reads 0 (R74). -/
def State.memRead (s : State) (a : Offset) : Byte :=
  match rowAt a.toNat with
  | none => 0
  | some r => s.regByte r.reg (a.toNat - r.base)

/-- `Start(v)` (R78). -/
def State.start (s : State) (v : Byte) : State :=
  { s with op := v, err := 0, errsub := 0, done := false, busy := true }

/-- The host's write of byte `k` of a register or buffer (R73): a write to `OP` starts an operation, `E_FLAGS` takes
bit 0 only, and a read-only register ignores the write. -/
def State.setRegByte (s : State) (r : Reg) (k : Nat) (v : Byte) : State :=
  match r with
  | .OP => s.start v
  | .STATUS => s
  | .ERR => s
  | .ERRSUB => s
  | .ILEN => { s with ilen := setByte s.ilen k v }
  | .OLEN => s
  | .E_FN => { s with cmd := { s.cmd with fn := v } }
  | .E_ATTR => { s with cmd := { s.cmd with attr := v } }
  | .E_FLAGS => { s with cmd := { s.cmd with valPresent := v.getLsbD 0 } }
  | .E_IDLEN => { s with cmd := { s.cmd with idLen := v } }
  | .E_PWLEN => { s with cmd := { s.cmd with pwLen := v } }
  | .O_FLAGS => s
  | .E_VAL => { s with cmd := { s.cmd with val := setByte s.cmd.val k v } }
  | .E_ID => { s with cmd := { s.cmd with id := s.cmd.id.setIfInBounds k v } }
  | .E_PW => { s with cmd := { s.cmd with pw := s.cmd.pw.setIfInBounds k v } }
  | .D_VER => s
  | .D_FN => s
  | .D_ATTR => s
  | .D_PLEN => s
  | .D_FLAGS => s
  | .D_CKCALC => s
  | .D_CKRX => s
  | .D_VAL => s
  | .D_ID => s
  | .D_PW => s
  | .IBUF => { s with ibuf := s.ibuf.write k v }
  | .OBUF => s

/-- `MemWrite(a, 1, v)`: while `BUSY = 1` it breaks the access protocol, has no effect on the block and sets `FAULT`
(R79); while `BUSY = 0` it is R73, and a reserved offset ignores it (R74). -/
def State.memWrite (s : State) (a : Offset) (v : Byte) : State :=
  if s.busy then { s with fault := true }
  else
    match rowAt a.toNat with
    | none => s
    | some r =>
      match r.access with
      | .ro => s
      | .rw => s.setRegByte r.reg (a.toNat - r.base) v

/-! ## Errors and completion -/

/-- The outcomes of an operation that raises, one per row of R300 and R301. -/
inductive Failure where
  | idLen
  | pwLen
  | badFn
  | unknownAttr
  | valueMissing
  | encodeValueRange
  | tooShort
  | badMagic
  | tooLong
  | checksumMismatch
  | unknownAttribute
  | payloadLengthMismatch
  | unknownFunction
  | decodeValueRange
  | illegalOp
deriving DecidableEq, Repr

/-- The `ERR` code of a failure (R300). -/
def Failure.code : Failure → Byte
  | .idLen | .pwLen | .badFn | .unknownAttr | .valueMissing | .encodeValueRange => 0x01
  | .tooShort | .badMagic | .tooLong => 0x02
  | .checksumMismatch => 0x03
  | .unknownAttribute => 0x04
  | .payloadLengthMismatch => 0x05
  | .unknownFunction => 0x06
  | .decodeValueRange => 0x07
  | .illegalOp => 0x08

/-- The `ERRSUB` sub-cause of a failure (R301). -/
def Failure.sub : Failure → Byte
  | .idLen => 0x01
  | .pwLen => 0x02
  | .badFn => 0x03
  | .unknownAttr => 0x04
  | .valueMissing => 0x05
  | .encodeValueRange => 0x06
  | .tooShort => 0x01
  | .badMagic => 0x02
  | .tooLong => 0x03
  | .checksumMismatch | .unknownAttribute | .payloadLengthMismatch | .unknownFunction | .decodeValueRange
  | .illegalOp => 0x00

/-- `ERR` as the completion writes it: 0 without a raise (R280, R300). -/
def errOf : Option Failure → Byte
  | none => 0
  | some f => f.code

/-- `ERRSUB` as the completion writes it: 0 without a raise (R280, R301). -/
def subOf : Option Failure → Byte
  | none => 0
  | some f => f.sub

/-- The completion writes of the `CODEC` step (R280). An error is no trap: these four writes and what the pseudocode
wrote before its `raise` are all that happens (R306). -/
def State.complete (s : State) (f : Option Failure) : State :=
  { s with err := errOf f, errsub := subOf f, busy := false, done := true }

/-- What an operation's pseudocode leaves: the state its writes made, and the failure it raised, if any (R12). -/
abbrev Ran := State × Option Failure

/-- The whole `CODEC` step of an operation, from what its pseudocode left (R280). -/
def finish (r : Ran) : Host.Outcome State Fault Refusal := .next (r.1.complete r.2)

/-- `Dclear()` (R60). -/
def State.dclear (s : State) : State := { s with dec := DecodeGroup.zero }

/-- `Eclear()` (R60). -/
def State.eclear (s : State) : State := { s with enc := EncodeGroup.zero }

/-- Reset asserted by the host (R340..R342): the block takes its reset state, a pending operation is discarded, and
`CFG` is not affected. What is not the block's (the steps still to come, the byte the host read) stays. -/
def State.assertReset (s : State) : State :=
  { State.reset with cfg := s.cfg, agenda := s.agenda, lastRead := s.lastRead }

end Sys2Proof.Machine
end

