-- ==== Sys2Proof/Machine/Bus.lean ====
section
/-! DEFINITION. Machine/Bus.lean: the host's accesses (spec/20_memory.md R72..R80). -/

namespace Sys2Proof.Machine

/-- `RD` (R72): the host receives the byte; no state of the block changes. -/
def execRd (a : Offset) (s : State) : Host.Outcome State Fault Refusal := .next { s with lastRead := some (s.memRead a) }

/-- `WR` (R73, R79). -/
def execWr (a : Offset) (v : Byte) (s : State) : Host.Outcome State Fault Refusal := .next (s.memWrite a v)

end Sys2Proof.Machine
end

