-- ==== Sys2Proof/Machine/Control.lean ====
section
/-! DEFINITION. Machine/Control.lean: NOP and the illegal operation codes (spec/45_control_ops.md R282, R283). -/

namespace Sys2Proof.Machine

/-- `NOP` (R282): the completion alone. -/
def execNop (s : State) : Host.Outcome State Fault Refusal := finish (s, none)

/-- An illegal operation code (R283): a defined operation that reports `ILLEGAL_OP`. `OP` keeps the code. -/
def execIllegal (s : State) : Host.Outcome State Fault Refusal := finish (s, some .illegalOp)

end Sys2Proof.Machine
end

