-- ==== Sys2Proof/Machine/FnCodes.lean ====
section
/-! DEFINITION. Machine/FnCodes.lean: the function codes (spec/43_function_codes.md R230..R235; spec/30_encoding.md R109).
The block acts on a function code in two places: DECODE goes on by the code of the frame it has parsed
(spec/41_frame_parser.md R170, from the function check on), ENCODE by the code of the command (spec/42_command_encoder.md
R200, from the function check on). A code's meaning is that rest of the operation, with its completion. -/

namespace Sys2Proof.Machine

/-- `D_FLAGS.REPLY_EXPECTED` as DECODE sets it (R170, R235). -/
def State.withReply (s : State) (b : Bool) : State := { s with dec := { s.dec with replyExpected := b } }

/-- `D_VAL` and `D_FLAGS.VAL_VALID` of a decoded value (R170). -/
def State.withValue (s : State) (v : Word) : State := { s with dec := { s.dec with val := v, valValid := true } }

/-- DECODE after `fn` is known, on a frame whose fields have been extracted (R170): the reply flag (R235), the attribute
(R172), the payload's length (R173), its value (R253) and range (R174). -/
def parseCommand (fn : FnCode) (s : State) : Ran :=
  let s1 := s.withReply fn.replyExpected
  match attrOf s1.cfg s1.dec.attr with
  | none => (s1, some .unknownAttribute)
  | some d =>
    let p := s1.frameLen - minFrame
    if !payloadLenOk fn p d.w.bytes then (s1, some .payloadLengthMismatch)
    else if p = 0 then (s1, none)
    else
      let v := unmarshal (s1.ibuf.range hdrBytes d.w.bytes) d
      if !inRange v d then (s1, some .decodeValueRange)
      else (s1.withValue v, none)

/-- `OBUF`, `OLEN` and `O_FLAGS` of a built frame (R200, R206). -/
def State.withFrame (s : State) (fn : FnCode) (frame : List Byte) : State :=
  { s with enc := { olen := BitVec.ofNat 16 frame.length, replyExpected := fn.replyExpected,
                    obuf := s.enc.obuf.writeBytes 0 frame } }

/-- ENCODE after `fn` is known (R200): the attribute (R203), the value (R204), the frame (R205, R207), the output
(R206). -/
def buildCommand (fn : FnCode) (s : State) : Ran :=
  match attrOf s.cfg s.cmd.attr with
  | none => (s, some .unknownAttr)
  | some d =>
    if fn.needsValue && !s.cmd.valPresent then (s, some .valueMissing)
    else if s.cmd.valPresent && !inRange s.cmd.val d then (s, some .encodeValueRange)
    else (s.withFrame fn (frameOf fn d s.cfg s.cmd), none)

/-- The rest of the operation in progress, for a known function code. -/
def fnBody (fn : FnCode) (place : FnPlace) (s : State) : Ran :=
  match place with
  | .frame => parseCommand fn s
  | .command => buildCommand fn s

/-- `READ` (R230). -/
def execRead (place : FnPlace) (s : State) : Host.Outcome State Fault Refusal := finish (fnBody .read place s)

/-- `WRITE` (R231). -/
def execWrite (place : FnPlace) (s : State) : Host.Outcome State Fault Refusal := finish (fnBody .write place s)

/-- `READ_WRITE` (R232). -/
def execReadWrite (place : FnPlace) (s : State) : Host.Outcome State Fault Refusal := finish (fnBody .readWrite place s)

/-- `INCREMENT` (R233). -/
def execIncrement (place : FnPlace) (s : State) : Host.Outcome State Fault Refusal := finish (fnBody .increment place s)

/-- `DECREMENT` (R234). -/
def execDecrement (place : FnPlace) (s : State) : Host.Outcome State Fault Refusal := finish (fnBody .decrement place s)

/-- A function code outside 0x01..0x05 (R109): DECODE fails with `UNKNOWN_FUNCTION` (R176), ENCODE with
`ENCODING_ERROR`/`BAD_FN` (R202). -/
def execFnUnknown (place : FnPlace) (s : State) : Host.Outcome State Fault Refusal :=
  match place with
  | .frame => finish (s, some .unknownFunction)
  | .command => finish (s, some .badFn)

/-- Go on by a function code: the meaning of the instruction the byte decodes to (R103, R109). -/
def runFn (place : FnPlace) (fn : Byte) (s : State) : Host.Outcome State Fault Refusal :=
  match fn.toNat with
  | 0x01 => execRead place s
  | 0x02 => execWrite place s
  | 0x03 => execReadWrite place s
  | 0x04 => execIncrement place s
  | 0x05 => execDecrement place s
  | _ => execFnUnknown place s

end Sys2Proof.Machine
end

