-- ==== Sys2Proof/Machine/Encoder.lean ====
section
/-! DEFINITION. Machine/Encoder.lean: ENCODE (spec/42_command_encoder.md R200..R210). -/

namespace Sys2Proof.Machine

/-- The credential checks, identifier first (R201). -/
def credentialFailure (c : CommandInputs) : Option Failure :=
  if c.idLen.toNat ≠ idBytes then some .idLen
  else if pwBytes < c.pwLen.toNat then some .pwLen
  else none

/-- `ENCODE` (R200): the credential checks, then the function code of the command decides how it goes on. -/
def execEncode (s : State) : Host.Outcome State Fault Refusal :=
  match credentialFailure s.cmd with
  | some f => finish (s.eclear, some f)
  | none => runFn .command s.cmd.fn s.eclear

end Sys2Proof.Machine
end

