-- ==== Sys2Proof/Machine/Checksum.lean ====
section
/-! DEFINITION. Machine/Checksum.lean: the frame check, CKSUM and VALIDATE (spec/40_checksum.md R141..R144). -/

namespace Sys2Proof.Machine

/-- `LenGuard()`: the input is longer than `IBUF` (R141). -/
def State.tooLong (s : State) : Bool := decide (bufBytes < s.frameLen)

/-- The two checksum registers as the frame check writes them (R142). -/
def State.withChecksums (s : State) : State :=
  { s with dec := { s.dec with ckCalc := s.computedCk, ckRx := s.receivedCk } }

/-- `FrameCheck()` (R142): length guard, minimum length, magic, checksum, in this order. -/
def frameCheck (s : State) : Ran :=
  if s.tooLong then (s, some .tooLong)
  else if s.frameLen < minFrame then (s, some .tooShort)
  else if !s.magicOk then (s, some .badMagic)
  else if s.computedCk ≠ s.receivedCk then (s.withChecksums, some .checksumMismatch)
  else (s.withChecksums, none)

/-- The pseudocode of CKSUM after `Dclear()` (R143). -/
def cksumBody (s : State) : Ran :=
  if s.tooLong then (s, some .tooLong)
  else ({ s with dec := { s.dec with ckCalc := ck s.cfg.raw.ckAlg (s.ibuf.range 0 s.frameLen) } }, none)

/-- `CKSUM` (R143): the checksum of all `ILEN` input bytes. -/
def execCksum (s : State) : Host.Outcome State Fault Refusal := finish (cksumBody s.dclear)

/-- `VALIDATE` (R144): the frame check alone. -/
def execValidate (s : State) : Host.Outcome State Fault Refusal := finish (frameCheck s.dclear)

end Sys2Proof.Machine
end

