-- ==== Sys2Proof/Machine/Parser.lean ====
section
/-! DEFINITION. Machine/Parser.lean: DECODE (spec/41_frame_parser.md R170..R179). -/

namespace Sys2Proof.Machine

/-- `Extract(L)` (R171): the header fields as received, before the function and attribute checks. -/
def State.extract (s : State) : State :=
  { s with dec := { s.dec with
      ver := s.ibuf.read 2
      id := Vector.ofFn fun i => s.ibuf.read (3 + i.val)
      pw := Vector.ofFn fun j => s.ibuf.read (19 + j.val)
      fn := s.ibuf.read 23
      attr := s.ibuf.read 24
      plen := BitVec.ofNat 8 (s.frameLen - minFrame)
      fieldsValid := true } }

/-- DECODE once the frame check has ended (R170): a failure ends it; else the fields are extracted and the function
code of the frame decides how it goes on. -/
def afterFrameCheck (r : Ran) : Host.Outcome State Fault Refusal :=
  match r.2 with
  | some f => finish (r.1, some f)
  | none => runFn .frame r.1.extract.dec.fn r.1.extract

/-- `DECODE` (R170). -/
def execDecode (s : State) : Host.Outcome State Fault Refusal := afterFrameCheck (frameCheck s.dclear)

end Sys2Proof.Machine
end

