-- ==== Sys2Proof/Machine/Dispatch.lean ====
section
/-! DEFINITION. Machine/Dispatch.lean: one arm per constructor of Instr. -/

namespace Sys2Proof.Machine

def exec (i : Instr) (s : State) : Host.Outcome State Fault Refusal :=
  match i with
  | .nop => Sys2Proof.Machine.execNop s
  | .cksum => Sys2Proof.Machine.execCksum s
  | .validate => Sys2Proof.Machine.execValidate s
  | .decode => Sys2Proof.Machine.execDecode s
  | .encode => Sys2Proof.Machine.execEncode s
  | .illegal _ => Sys2Proof.Machine.execIllegal s
  | .read place => Sys2Proof.Machine.execRead place s
  | .write place => Sys2Proof.Machine.execWrite place s
  | .readWrite place => Sys2Proof.Machine.execReadWrite place s
  | .increment place => Sys2Proof.Machine.execIncrement place s
  | .decrement place => Sys2Proof.Machine.execDecrement place s
  | .fnUnknown place _ => Sys2Proof.Machine.execFnUnknown place s
  | .wr addr data => Sys2Proof.Machine.execWr addr data s
  | .rd addr => Sys2Proof.Machine.execRd addr s

end Sys2Proof.Machine
end

