-- ==== Sys2Proof/Machine/Agents.lean ====
section
/-! DEFINITION. Machine/Agents.lean: the steps of the two agents, `HOST` and `CODEC`, in their single total order
(spec/00_scope.md R6, R13; spec/20_memory.md R81; spec/45_control_ops.md R280, R286). -/

namespace Sys2Proof.Machine

/-- The `CODEC` agent's step (R280): enabled exactly when `BUSY = 1`, whatever `FAULT` holds; it performs the operation
whose code `OP` holds and completes it. A turn given to it while it is not enabled passes without effect. -/
def codecTurn (s : State) : Host.Outcome State Fault Refusal := if s.busy then exec (decodeOp s.op) s else .next s

/-- The `HOST` agent's access of a bus word (R111); a word that is no transaction is refused (R75). -/
def hostTurn (w : Nat) (s : State) : Host.Outcome State Fault Refusal :=
  match decode .bus w with
  | .ok i => exec i s
  | .error _ => .refused (.noSuchTransaction w)

/-- One step of the machine: the oldest entry of the agenda. When the host has nothing left to do, a pending operation
is performed (a state with `BUSY = 1` is not final, R286), and without one the block waits (R343). -/
def nextTurn (s : State) : Host.Outcome State Fault Refusal :=
  match s.agenda with
  | [] => codecTurn s
  | .bus w :: rest => hostTurn w { s with agenda := rest }
  | .codec :: rest => codecTurn { s with agenda := rest }
  | .reset :: rest => .next ({ s with agenda := rest }).assertReset

/-- The state in which the very next step runs the instruction of a table word: an 8-bit word is started as the
operation of `OP` (R78) with the `CODEC` agent's turn next, a wider word is the host's next bus word. -/
def placeWord (s : State) (nbits w : Nat) : State :=
  if nbits ≤ 8 then { s.start (BitVec.ofNat 8 w) with agenda := .codec :: s.agenda }
  else { s with agenda := .bus w :: s.agenda }

end Sys2Proof.Machine
end

