-- ==== Sys2Proof/Machine/Step.lean ====
section
/-! DEFINITION. Machine/Step.lean: one step of the machine. -/

namespace Sys2Proof.Machine

/-- One step of one agent (R81). -/
def step (s : State) : Host.Outcome State Fault Refusal := nextTurn s

/-- The instruction of a table word placed where the next step takes it (notes/assumptions/4.md). -/
def State.withFetchWord (s : State) (nbits w : Nat) : State := placeWord s nbits w

end Sys2Proof.Machine
end

