-- ==== Sys2Proof/Machine/HostProgram.lean ====
section
/-! DEFINITION. Machine/HostProgram.lean: the host notation (spec/30_encoding.md R112, R113): the lines of a host program,
its pseudo-instructions, and a host that runs a program against the block. The host is no part of the block; its
variables and its place in the program are not block state. -/

namespace Sys2Proof.Machine

/-! ## Lines -/

/-- A host variable: a scalar `t`, or element `t[k]` of an array variable (R112). R112 does not say whether a scalar and an
array of one name are one variable; they are two, so setting the one leaves the other, DESIGN CHOICE
(notes/assumptions/10.md). -/
structure HostVar where
  name : String
  elem : Option Nat
deriving DecidableEq, Repr

/-- A line of a host program (R112), its labels of type `L`. An offset is a number, since the notation lets one be
written that the block does not have. -/
inductive HostLine (L : Type) where
  /-- `WR off, b`. -/
  | wr (off : Nat) (b : Byte)
  /-- `RD off -> t`. -/
  | rd (off : Nat) (t : HostVar)
  /-- `label:`. -/
  | label (l : L)
  /-- `WR off, t`. -/
  | wrVar (off : Nat) (t : HostVar)
  /-- `IF t[i] GOTO label`, on bit `i` of a scalar variable. -/
  | ifGoto (t : String) (bit : Fin 8) (l : L)
  /-- `GOTO label`. -/
  | goto (l : L)
  /-- `RESET`. -/
  | reset
deriving DecidableEq, Repr

/-- The same line with its labels renamed. -/
def HostLine.rename {K L : Type} (f : K → L) : HostLine K → HostLine L
  | .wr off b => .wr off b
  | .rd off t => .rd off t
  | .label l => .label (f l)
  | .wrVar off t => .wrVar off t
  | .ifGoto t bit l => .ifGoto t bit (f l)
  | .goto l => .goto (f l)
  | .reset => .reset

/-- A label of an expanded program: one the program names, or the fresh one of a use of `WAIT` (R113), known by the place
of that use in the program. -/
inductive HostLabel where
  | named (l : String)
  | ofWait (use : Nat)
deriving DecidableEq, Repr

/-- The offset `NAME+k` (R112). -/
def Reg.offset (r : Reg) (k : Nat) : Nat :=
  match regMap.find? fun row => row.reg == r with
  | none => k
  | some row => row.base + k

/-- The number R112's table gives an access: `0x40000 + off*0x100 + b` for a write, `off*0x100` for a read (its byte 0). It
is the bus word of the access (R111) when `off` has 10 bits. -/
def hostWord (we : Bool) (off : Nat) (b : Byte) : Nat := we.toNat * 0x40000 + off * 0x100 + b.toNat

/-! ## The host -/

/-- The host, running a program: its lines, the line it is at, and the variables it has set. -/
structure HostAgent where
  prog : List (HostLine HostLabel)
  line : Nat
  vars : List (HostVar × Byte)
deriving DecidableEq, Repr

/-- The value of a host variable, `none` before the program has set it (R112: variables start undefined). -/
def HostAgent.get (h : HostAgent) (t : HostVar) : Option Byte := (h.vars.find? fun e => e.1 == t).map fun e => e.2

/-- The host sets a variable. -/
def HostAgent.set (h : HostAgent) (t : HostVar) (b : Byte) : HostAgent :=
  { h with vars := (t, b) :: h.vars.filter fun e => !(e.1 == t) }

/-- The host goes on with the next line. -/
def HostAgent.advance (h : HostAgent) : HostAgent := { h with line := h.line + 1 }

/-- Why a host program cannot go on. -/
inductive HostStop where
  /-- It reads a variable it has not set; R112 says a program reads only variables it has set. -/
  | unsetVariable (t : HostVar)
  /-- It goes to a label it does not have. -/
  | noSuchLabel (l : HostLabel)
  /-- It makes an access outside 0x000..0x3FF; such a transaction does not exist, and a model refuses it (R75). -/
  | noSuchTransaction (off : Nat)
  /-- The block has no step for the event; no line leads here, since an access in the register space has a bus word. -/
  | noStep
deriving DecidableEq, Repr

/-- The bus word column of R112's table, with the current value of a variable; `none` for a line without one. -/
def HostLine.busWord? (h : HostAgent) : HostLine HostLabel → Option Nat
  | .wr off b => some (hostWord true off b)
  | .rd off _ => some (hostWord false off 0)
  | .wrVar off t => (h.get t).map fun b => hostWord true off b
  | .label _ => none
  | .ifGoto _ _ _ => none
  | .goto _ => none
  | .reset => none

/-- One event on the block: the step that takes it. -/
def State.issue (s : State) (e : Event) : Except HostStop State :=
  match step { s with agenda := e :: s.agenda } with
  | .next s' => .ok s'
  | .fault _ => .error .noStep
  | .refused _ => .error .noStep

/-- The host's access at an offset: outside the register space there is no such transaction (R75). The offset is
checked itself, since the number of a read outside it is the bus word of another access. -/
def State.access (s : State) (we : Bool) (off : Nat) (b : Byte) : Except HostStop State :=
  if off < 0x400 then s.issue (.bus (hostWord we off b)) else .error (.noSuchTransaction off)

/-- The host goes to a label. R112 does not say where when two lines name one label; the host goes to the first of
them, DESIGN CHOICE (notes/assumptions/10.md). -/
def HostAgent.jump (h : HostAgent) (l : HostLabel) : Except HostStop HostAgent :=
  match h.prog.findIdx? fun x => x == .label l with
  | none => .error (.noSuchLabel l)
  | some n => .ok { h with line := n }

/-- One line of the host's program (R112); past its last line the host does nothing more. -/
def HostAgent.turn (h : HostAgent) (s : State) : Except HostStop (HostAgent × State) :=
  match h.prog[h.line]? with
  | none => .ok (h, s)
  | some (.wr off b) => (s.access true off b).map fun s' => (h.advance, s')
  | some (.rd off t) =>
    (s.access false off 0).map fun s' =>
      ((match s'.lastRead with
        | none => h
        | some b => h.set t b).advance, s')
  | some (.label _) => .ok (h.advance, s)
  | some (.wrVar off t) =>
    match h.get t with
    | none => .error (.unsetVariable t)
    | some b => (s.access true off b).map fun s' => (h.advance, s')
  | some (.ifGoto t bit l) =>
    match h.get { name := t, elem := none } with
    | none => .error (.unsetVariable { name := t, elem := none })
    | some b => if b.getLsbD bit.val then (h.jump l).map fun h' => (h', s) else .ok (h.advance, s)
  | some (.goto l) => (h.jump l).map fun h' => (h', s)
  | some .reset => (s.issue .reset).map fun s' => (h.advance, s')

/-! ## Pseudo-instructions -/

/-- The pseudo-instructions of R113. -/
inductive HostPseudo where
  /-- `WR16 off, h`. -/
  | wr16 (off : Nat) (h : Half)
  /-- `WR32 off, w`. -/
  | wr32 (off : Nat) (w : Word)
  /-- `WRS off, b0 b1 ... bn`. -/
  | wrs (off : Nat) (bs : List Byte)
  /-- `START op`. -/
  | start (op : Byte)
  /-- `WAIT`. -/
  | wait
  /-- `RDS off, n -> t`. -/
  | rds (off : Nat) (n : Nat) (t : String)
deriving DecidableEq, Repr

/-- `WR off+k, bk` for the bytes of a string in order. -/
def writeLines {L : Type} : Nat → List Byte → List (HostLine L)
  | _, [] => []
  | off, b :: rest => .wr off b :: writeLines (off + 1) rest

/-- The expansion of a pseudo-instruction (R113), `use` its place in the program. -/
def HostPseudo.expand (use : Nat) : HostPseudo → List (HostLine HostLabel)
  | .wr16 off h => writeLines off [byteOf h 0, byteOf h 1]
  | .wr32 off w => writeLines off [byteOf w 0, byteOf w 1, byteOf w 2, byteOf w 3]
  | .wrs off bs => writeLines off bs
  | .start op => [.wr (Reg.offset .OP 0) op]
  | .wait =>
    [.label (.ofWait use), .rd (Reg.offset .STATUS 0) { name := "t", elem := none }, .ifGoto "t" 0 (.ofWait use)]
  | .rds off n t => (List.range n).map fun k => .rd (off + k) { name := t, elem := some k }

/-- An item of a program as it is written: a line, its labels the names the program gives, or a pseudo-instruction. -/
inductive HostItem where
  | line (l : HostLine String)
  | pseudo (p : HostPseudo)
deriving DecidableEq, Repr

/-- The lines an item stands for. -/
def HostItem.expand (use : Nat) : HostItem → List (HostLine HostLabel)
  | .line l => [l.rename .named]
  | .pseudo p => p.expand use

/-- The expansion of the items from place `use` on. -/
def expandFrom : Nat → List HostItem → List (HostLine HostLabel)
  | _, [] => []
  | use, i :: rest => i.expand use ++ expandFrom (use + 1) rest

/-- The expansion of a program: each use of `WAIT` gets a label that no line and no other use has (R113). -/
def expandProgram (items : List HostItem) : List (HostLine HostLabel) := expandFrom 0 items

end Sys2Proof.Machine
end

