-- ==== Sys2Proof/Machine/Runs.lean ====
section
/-! DEFINITION. Machine/Runs.lean: runs of the agents in their total order, finite and infinite, and the weak fairness of
the `CODEC` step (spec/20_memory.md R81; spec/45_control_ops.md R286; spec/00_scope.md R6). An infinite order is no data of
`State`: it is given from outside, one event at a time. -/

namespace Sys2Proof.Machine

/-- The two agents (R6). -/
inductive Agent where
  | host
  | codec
deriving DecidableEq, Repr

/-- The host and the block: the agent whose turn it is makes one step (R81). -/
def agentTurn (a : Agent) (h : HostAgent) (s : State) : Except HostStop (HostAgent × State) :=
  match a with
  | .host => h.turn s
  | .codec => (s.issue .codec).map fun s' => (h, s')

/-- A finite run of a host program under a given order of turns. -/
def runTurns : List Agent → HostAgent → State → Except HostStop (HostAgent × State)
  | [], h, s => .ok (h, s)
  | a :: rest, h, s =>
    match agentTurn a h s with
    | .error e => .error e
    | .ok (h', s') => runTurns rest h' s'

/-- An infinite run of the block: `order n` is the event of step `n`, `run n` the state before it. -/
def IsRun (order : Nat → Event) (run : Nat → State) : Prop := ∀ n, (run n).issue (order n) = .ok (run (n + 1))

/-- Weak fairness of the `CODEC` step (R286): if from some step on it stays enabled (`BUSY = 1`, R280), it is taken at
some later step. -/
def WeaklyFair (isCodec : Nat → Prop) (run : Nat → State) : Prop :=
  ∀ n, (∀ m, n ≤ m → (run m).busy = true) → ∃ m, n ≤ m ∧ isCodec m

/-- An infinite run of a host program with the block: `order n` says whose turn step `n` is. -/
def IsHostRun (order : Nat → Agent) (run : Nat → HostAgent × State) : Prop :=
  ∀ n, agentTurn (order n) (run n).1 (run n).2 = .ok (run (n + 1))

end Sys2Proof.Machine
end

