-- ==== Sys2Proof/Safety.lean ====
section
/-! DEFINITION. Safety.lean: what counts as a good state and a safe run, and the words the claims are stated in
(spec/10_state.md R37, R43, R47..R61; spec/20_memory.md R71, R74, R79; spec/45_control_ops.md R286). -/

namespace Sys2Proof.Machine

/-! ## Good states -/

/-- A final state: no pending operation (R286), no fault (R79), and no step of the outside world waiting. -/
def State.Final (s : State) : Prop := s.busy = false ∧ s.fault = false ∧ s.agenda = []

/-- The legal pairs of `ERR` and `ERRSUB` (R300, R301). -/
def legalErrors : List (Byte × Byte) :=
  [(0, 0), (1, 1), (1, 2), (1, 3), (1, 4), (1, 5), (1, 6), (2, 1), (2, 2), (2, 3), (3, 0), (4, 0), (5, 0), (6, 0), (7, 0),
   (8, 0)]

/-- A buffer in canonical form whose listed indexes lie in 0..255 (R57, R58). -/
def Memory.isBuffer (m : Memory) : Prop := m.wf = true ∧ ∀ c ∈ m, c.1 < bufBytes

/-- What the spec says of the block's state at all times. -/
structure State.Inv (s : State) : Prop where
  /-- `IBUF` is a buffer (R57). -/
  ibufForm : s.ibuf.isBuffer
  /-- `OBUF` is a buffer (R58). -/
  obufForm : s.enc.obuf.isBuffer
  /-- `BUSY` and `DONE` are never both 1 (R61). -/
  statusExclusive : ¬(s.busy = true ∧ s.done = true)
  /-- `ERR` and `ERRSUB` hold a listed pair (R300, R301). -/
  errorListed : (s.err, s.errsub) ∈ legalErrors
  /-- Without a completed operation since the last start or reset there is no error (R34, R78). -/
  errorNeedsDone : s.done = false → s.err = 0 ∧ s.errsub = 0
  /-- The values of `OLEN` (R37). -/
  olenValues : s.enc.olen.toNat ∈ [0, 26, 27, 28, 30]
  /-- Every byte of `OBUF` at an index `>= OLEN` is 0 (R58). -/
  outputTail : ∀ i, s.enc.olen.toNat ≤ i → s.enc.obuf.read i = 0
  /-- `O_FLAGS` is 0 without a frame (R43, R206). -/
  replyNeedsFrame : s.enc.olen = 0 → s.enc.replyExpected = false
  /-- Without extracted fields only the two checksum registers can differ from 0 (R47..R56, R175). -/
  fieldsZero : s.dec.fieldsValid = false →
    s.dec = { DecodeGroup.zero with ckCalc := s.dec.ckCalc, ckRx := s.dec.ckRx }
  /-- Extracted fields come from a frame that passed the frame check, with a payload of 0..230 bytes (R50, R142). -/
  fieldsChecked : s.dec.fieldsValid = true → s.dec.ckCalc = s.dec.ckRx ∧ s.dec.plen.toNat ≤ 230
  /-- `D_FLAGS.REPLY_EXPECTED` is set for a known function code other than WRITE only (R51, R235). -/
  replyCodes : s.dec.replyExpected = true → s.dec.fn.toNat ∈ [1, 3, 4, 5]
  /-- `D_VAL` is 0 unless it holds a decoded value (R54). -/
  valueZero : s.dec.valValid = false → s.dec.val = 0
  /-- A decoded value is in the range of its attribute, and its payload had the attribute's width (R51, R173, R174). -/
  valueChecked : s.dec.valValid = true → s.dec.fieldsValid = true ∧
    ∃ d, attrOf s.cfg s.dec.attr = some d ∧ inRange s.dec.val d = true ∧ s.dec.plen.toNat = d.w.bytes

/-- When `OLEN` is not 0, `OBUF[0..OLEN-1]` is a frame that begins with the magic and the version and ends with the
checksum of its other bytes (R101, R206, R207). -/
def State.OutputFrameOk (s : State) : Prop :=
  s.enc.olen.toNat ≠ 0 →
    26 ≤ s.enc.olen.toNat ∧ s.enc.obuf.read 0 = s.cfg.raw.magic0 ∧ s.enc.obuf.read 1 = s.cfg.raw.magic1 ∧
    s.enc.obuf.read 2 = s.cfg.raw.version ∧
    ck s.cfg.raw.ckAlg (s.enc.obuf.range 0 (s.enc.olen.toNat - 1)) = s.enc.obuf.read (s.enc.olen.toNat - 1)

/-! ## The register space by access -/

/-- The reserved offsets (R74). -/
def isReserved (a : Offset) : Bool :=
  let n := a.toNat
  (0x00E ≤ n && n ≤ 0x00F) || (0x028 ≤ n && n ≤ 0x03F) || n == 0x047 || (0x060 ≤ n && n ≤ 0x0FF) || 0x300 ≤ n

/-- The offsets of read-only registers and of `OBUF` (R32). -/
def isReadOnly (a : Offset) : Bool :=
  let n := a.toNat
  (0x001 ≤ n && n ≤ 0x003) || (0x006 ≤ n && n ≤ 0x007) || n == 0x00D || (0x040 ≤ n && n ≤ 0x046) ||
    (0x048 ≤ n && n ≤ 0x05F) || (0x200 ≤ n && n ≤ 0x2FF)

/-- The offsets of the writable registers other than `OP`, and of `IBUF` (R32). -/
def isWritable (a : Offset) : Bool :=
  let n := a.toNat
  (0x004 ≤ n && n ≤ 0x005) || (0x008 ≤ n && n ≤ 0x00C) || (0x010 ≤ n && n ≤ 0x027) || (0x100 ≤ n && n ≤ 0x1FF)

/-! ## The words of the claims -/

/-- The function code as an instruction at a place. -/
def FnCode.instr (fn : FnCode) (place : FnPlace) : Instr :=
  match fn with
  | .read => .read place
  | .write => .write place
  | .readWrite => .readWrite place
  | .increment => .increment place
  | .decrement => .decrement place

/-- The instructions that one value of `OP` selects (R281). -/
def isOperation : Instr → Bool
  | .nop => true
  | .cksum => true
  | .validate => true
  | .decode => true
  | .encode => true
  | .illegal _ => true
  | .read _ => false
  | .write _ => false
  | .readWrite _ => false
  | .increment _ => false
  | .decrement _ => false
  | .fnUnknown _ _ => false
  | .wr _ _ => false
  | .rd _ => false

/-- The decode group of a frame whose fields have been extracted (R142, R171). -/
def receivedFields (s : State) : DecodeGroup :=
  { DecodeGroup.zero with
    ckCalc := ck s.cfg.raw.ckAlg (s.ibuf.range 0 (s.ilen.toNat - 1))
    ckRx := s.ibuf.read (s.ilen.toNat - 1)
    ver := s.ibuf.read 2
    id := Vector.ofFn fun i => s.ibuf.read (3 + i.val)
    pw := Vector.ofFn fun j => s.ibuf.read (19 + j.val)
    fn := s.ibuf.read 23
    attr := s.ibuf.read 24
    plen := BitVec.ofNat 8 (s.ilen.toNat - 26)
    fieldsValid := true }

/-- The input is a frame that passes the frame check (R142). -/
def frameAccepted (s : State) : Prop :=
  26 ≤ s.ilen.toNat ∧ s.ilen.toNat ≤ 256 ∧ s.ibuf.read 0 = s.cfg.raw.magic0 ∧ s.ibuf.read 1 = s.cfg.raw.magic1 ∧
  ck s.cfg.raw.ckAlg (s.ibuf.range 0 (s.ilen.toNat - 1)) = s.ibuf.read (s.ilen.toNat - 1)

/-- Everything but `ERR`, `ERRSUB`, `BUSY`, `DONE` and the result groups is the same (R60). -/
def sameInputs (s t : State) : Prop :=
  t.op = s.op ∧ t.fault = s.fault ∧ t.ilen = s.ilen ∧ t.cmd = s.cmd ∧ t.ibuf = s.ibuf ∧ t.cfg = s.cfg ∧
  t.agenda = s.agenda ∧ t.lastRead = s.lastRead

/-- The operation has completed with this `ERR` and `ERRSUB` (R280). -/
def completedWith (t : State) (err errsub : Nat) : Prop :=
  t.err.toNat = err ∧ t.errsub.toNat = errsub ∧ t.busy = false ∧ t.done = true

/-- Two descriptors an operation cannot tell apart: `NAME`, `KIND`, `MEMBERS` and `RO` are not used (R250, R257). -/
def sameWire (d e : AttrDesc) : Prop :=
  d.w = e.w ∧ d.be = e.be ∧ d.signed = e.signed ∧ d.min = e.min ∧ d.max = e.max

/-- Two configurations an operation cannot tell apart. -/
def sameCodec (c d : Config) : Prop :=
  c.raw.magic0 = d.raw.magic0 ∧ c.raw.magic1 = d.raw.magic1 ∧ c.raw.version = d.raw.version ∧
  c.raw.ckAlg = d.raw.ckAlg ∧ c.raw.pad = d.raw.pad ∧
  ∀ a, match attrOf c a, attrOf d a with
    | none, none => True
    | some x, some y => sameWire x y
    | none, some _ => False
    | some _, none => False

/-- An event whose step exists and that is no reset. -/
def Event.isPlain : Event → Bool
  | .bus w => decide (w < 2 ^ 19)
  | .codec => true
  | .reset => false

end Sys2Proof.Machine
end

