-- ==== Sys2Proof/Certificates/Slice0/Obligations.lean ====
section
/-! DEFINITION. Certificates/Slice0/Obligations.lean: the statements for the provers. -/

open Sys2Proof Sys2Proof.Machine

/-! ## Encodings -/

/-- Decoding the word the encoder writes gives the instruction back, for every instruction of the table, with every
operand at every value (R100, R103, R111). -/
def Obligations.DecodeOfEncodeIsTheInstruction : Prop :=
  ∀ i : Instr, i.wf = true → Sys2Proof.decode (Sys2Proof.encode i).1 (Sys2Proof.encode i).2 = .ok i

/-- Every word that decodes is the word of the instruction it decodes to; a read's DATA bits alone are ignored (R111). -/
def Obligations.EncodeOfDecodeIsTheWord : Prop :=
  ∀ (site : Site) (w : Nat) (i : Instr), Sys2Proof.decode site w = .ok i →
    i.wf = true ∧
    (Sys2Proof.encode i = (site, w) ∨
      ∃ a, i = .rd a ∧ site = .bus ∧ Sys2Proof.encode i = (.bus, w - w % 256) ∧ w < 2 ^ 18)

/-- A word decodes exactly when it is no wider than its format: every `OP` byte, every function code and every 19-bit
bus word has a meaning (R109, R281), and a wider bus word is refused (R75). -/
def Obligations.EveryWordOfItsWidthDecodes : Prop :=
  ∀ (site : Site) (w : Nat), (∃ i, Sys2Proof.decode site w = .ok i) ↔ w < 2 ^ site.width

/-- Every byte matches exactly one OP row and exactly one FRAME_FN row of the opcode table, and decodes to that row's
instruction; every bus word matches exactly one BUS row and decodes to its instruction. -/
def Obligations.EveryWordMatchesOneTableRow : Prop :=
  (∀ b : Byte, ((opRows.filter fun r => r.matches b.toNat).map fun r => r.mnemonic) = [(decodeOp b).mnemonic]) ∧
  (∀ (p : FnPlace) (b : Byte),
    (((fnRows p).filter fun r => r.matches b.toNat).map fun r => r.mnemonic) = [(decodeFn p b).mnemonic]) ∧
  (∀ w : BitVec 19,
    ((busRows.filter fun r => r.matches w.toNat).map fun r => r.mnemonic) = [(decodeBus w).mnemonic])

/-- Words written out from the spec decode to what they stand for: R111's examples, V8.11, the codes of R100, R103. -/
def Obligations.WordsOfTheSpecDecode : Prop :=
  Sys2Proof.decode .bus 0x40004 = .ok (.wr 0x000 0x04) ∧ Sys2Proof.decode .bus 0x00100 = .ok (.rd 0x001) ∧
  Sys2Proof.decode .bus 0x51A11 = .ok (.wr 0x11A 0x11) ∧ Sys2Proof.decode .bus 0x21A00 = .ok (.rd 0x21A) ∧
  Sys2Proof.decode .op 0b00000011 = .ok .decode ∧ Sys2Proof.decode .op 0b01111111 = .ok (.illegal 0x7F) ∧
  Sys2Proof.decode (.fn .frame) 0b00000101 = .ok (.decrement .frame) ∧
  Sys2Proof.decode (.fn .command) 0b00000110 = .ok (.fnUnknown .command 0x06)

/-! ## Steps -/

/-- A step runs the instruction it takes: the host's next bus word, or on the codec's turn, if `BUSY = 1`, the operation
`OP` holds; it removes the entry of the agenda and does nothing else around exec. When `BUSY = 0` the codec's turn
passes. With an empty agenda a pending operation is performed, and without one the block stays as it is. -/
def Obligations.StepRunsTheDecodedInstruction : Prop :=
  (∀ (s : State) (w : Nat) (rest : List Event) (i : Instr), s.agenda = .bus w :: rest → Sys2Proof.decode .bus w = .ok i →
    step s = exec i { s with agenda := rest }) ∧
  (∀ (s : State) (w : Nat) (rest : List Event), s.agenda = .bus w :: rest → 2 ^ 19 ≤ w →
    step s = .refused (.noSuchTransaction w)) ∧
  (∀ (s : State) (rest : List Event), s.agenda = .codec :: rest → s.busy = true →
    step s = exec (decodeOp s.op) { s with agenda := rest }) ∧
  (∀ (s : State) (rest : List Event), s.agenda = .codec :: rest → s.busy = false →
    step s = .next { s with agenda := rest }) ∧
  (∀ s : State, s.agenda = [] → s.busy = true → step s = exec (decodeOp s.op) s) ∧
  (∀ s : State, s.agenda = [] → s.busy = false → step s = .next s)

/-- The pending operation is the one the code in `OP` names, one arm for every value (R281). -/
def Obligations.DispatchOnTheOperationCode : Prop :=
  ∀ s : State, s.busy = true → s.agenda = [] →
    (s.op = 0x00 → step s = exec .nop s) ∧ (s.op = 0x01 → step s = exec .cksum s) ∧
    (s.op = 0x02 → step s = exec .validate s) ∧ (s.op = 0x03 → step s = exec .decode s) ∧
    (s.op = 0x04 → step s = exec .encode s) ∧ (0x05 ≤ s.op.toNat → step s = exec (.illegal s.op) s)

/-- A word placed for the next step is run by it: an 8-bit word as the operation just started (R78), a wider one as
the host's bus word. The placing itself is the model's choice (notes/assumptions/4.md). -/
def Obligations.PlacedWordRunsNext : Prop :=
  (∀ (s : State) (w : Nat) (i : Instr), decodeTableWord 8 w = some i →
    step (s.withFetchWord 8 w) = exec i (s.start (BitVec.ofNat 8 w))) ∧
  (∀ (s : State) (w : Nat) (i : Instr), decodeTableWord 24 w = some i →
    step (s.withFetchWord 24 w) = exec i s)

/-! ## Reset -/

/-- Reset, at any time (`BUSY` and `FAULT` included): every offset then reads 0, `BUSY = DONE = FAULT = 0`, a pending
operation is gone, `CFG` is not affected, and an ENCODE started then fails with `ENCODING_ERROR`/`ID_LEN` (R340, R342). -/
def Obligations.ResetClearsTheBlock : Prop :=
  ∀ (s : State) (rest : List Event), s.agenda = .reset :: rest →
    ∃ t, step s = .next t ∧ (∀ a, t.memRead a = 0) ∧ t.busy = false ∧ t.done = false ∧ t.fault = false ∧
      t.cfg = s.cfg ∧ ∃ u, exec .encode (t.start 0x04) = .next u ∧ completedWith u 1 1

/-- The state after power-on is the reset state: every register, buffer byte and hidden bit 0 (R340). The empty agenda
and the unread byte are the model's own fields (notes/assumptions/2.md, 3.md). -/
def Obligations.PowerOnStateIsZero : Prop :=
  (∀ a, State.reset.memRead a = 0) ∧ State.reset.busy = false ∧ State.reset.done = false ∧ State.reset.fault = false ∧
  State.reset.op = 0 ∧ State.reset.ilen = 0 ∧ State.reset.cmd = CommandInputs.zero ∧
  State.reset.dec = DecodeGroup.zero ∧ State.reset.enc = EncodeGroup.zero ∧ (∀ i, State.reset.ibuf.read i = 0)

/-! ## The host's accesses -/

/-- A host read completes at any time, `BUSY = 1` included, changes nothing but the byte the host holds, and returns the
byte of the register map at the offset (R32, R72). -/
def Obligations.ReadReturnsTheMappedByte : Prop :=
  ∀ (s : State) (a : Offset), ∃ v : Byte, exec (.rd a) s = .next { s with lastRead := some v } ∧
    (a.toNat = 0x000 → v = s.op) ∧
    (a.toNat = 0x001 → v.toNat = 4 * (if s.err = 0 then 0 else 1) + 2 * s.done.toNat + s.busy.toNat) ∧
    (a.toNat = 0x002 → v = s.err) ∧ (a.toNat = 0x003 → v = s.errsub) ∧
    (∀ k < 2, a.toNat = 0x004 + k → v.toNat = s.ilen.toNat / 256 ^ k % 256) ∧
    (∀ k < 2, a.toNat = 0x006 + k → v.toNat = s.enc.olen.toNat / 256 ^ k % 256) ∧
    (a.toNat = 0x008 → v = s.cmd.fn) ∧ (a.toNat = 0x009 → v = s.cmd.attr) ∧
    (a.toNat = 0x00A → v.toNat = s.cmd.valPresent.toNat) ∧
    (a.toNat = 0x00B → v = s.cmd.idLen) ∧ (a.toNat = 0x00C → v = s.cmd.pwLen) ∧
    (a.toNat = 0x00D → v.toNat = s.enc.replyExpected.toNat) ∧
    (∀ k < 4, a.toNat = 0x010 + k → v.toNat = s.cmd.val.toNat / 256 ^ k % 256) ∧
    (∀ i : Fin 16, a.toNat = 0x014 + i.val → v = s.cmd.id[i]) ∧
    (∀ i : Fin 4, a.toNat = 0x024 + i.val → v = s.cmd.pw[i]) ∧
    (a.toNat = 0x040 → v = s.dec.ver) ∧ (a.toNat = 0x041 → v = s.dec.fn) ∧ (a.toNat = 0x042 → v = s.dec.attr) ∧
    (a.toNat = 0x043 → v = s.dec.plen) ∧
    (a.toNat = 0x044 →
      v.toNat = 4 * s.dec.replyExpected.toNat + 2 * s.dec.fieldsValid.toNat + s.dec.valValid.toNat) ∧
    (a.toNat = 0x045 → v = s.dec.ckCalc) ∧ (a.toNat = 0x046 → v = s.dec.ckRx) ∧
    (∀ k < 4, a.toNat = 0x048 + k → v.toNat = s.dec.val.toNat / 256 ^ k % 256) ∧
    (∀ i : Fin 16, a.toNat = 0x04C + i.val → v = s.dec.id[i]) ∧
    (∀ i : Fin 4, a.toNat = 0x05C + i.val → v = s.dec.pw[i]) ∧
    (∀ i < 256, a.toNat = 0x100 + i → v = s.ibuf.read i) ∧
    (∀ i < 256, a.toNat = 0x200 + i → v = s.enc.obuf.read i) ∧
    (isReserved a = true → v = 0)

/-- A write to a reserved offset, to a read-only register or to `OBUF` while `BUSY = 0` has no effect, is no error and
sets no `FAULT`; a reserved offset reads 0 (R74). -/
def Obligations.ReservedAndReadOnlyIgnoreWrites : Prop :=
  (∀ (s : State) (a : Offset) (v : Byte), s.busy = false → (isReserved a = true ∨ isReadOnly a = true) →
    exec (.wr a v) s = .next s) ∧
  (∀ (s : State) (a : Offset), isReserved a = true → exec (.rd a) s = .next { s with lastRead := some 0 })

/-- A write to `OP` while `BUSY = 0` starts the operation: `OP` takes the value, `ERR`, `ERRSUB` and `DONE` become 0 and
`BUSY` 1; nothing else is written (R78). -/
def Obligations.WriteToOpStartsTheOperation : Prop :=
  ∀ (s : State) (v : Byte), s.busy = false →
    exec (.wr 0x000 v) s = .next { s with op := v, err := 0, errsub := 0, done := false, busy := true }

/-- A write of any offset while `BUSY = 1` has no effect on the block and sets `FAULT`; `FAULT` then stays until reset;
no state with `FAULT` is final (R79). -/
def Obligations.WriteWhileBusyFaults : Prop :=
  (∀ (s : State) (a : Offset) (v : Byte), s.busy = true → exec (.wr a v) s = .next { s with fault := true }) ∧
  (∀ s t : State, s.fault = true → step s = .next t → (∀ rest, s.agenda ≠ .reset :: rest) → t.fault = true) ∧
  (∀ s : State, s.fault = true → ¬ s.Final)

/-- A write to a writable offset other than `OP` while `BUSY = 0` stores the byte there (`E_FLAGS` takes bit 0 only);
every other offset reads as before, and nothing outside the register space changes (R73). -/
def Obligations.WriteStoresTheAddressedByteOnly : Prop :=
  ∀ (s : State) (a : Offset) (v : Byte), s.ibuf.wf = true → s.busy = false → isWritable a = true →
    ∃ t, exec (.wr a v) s = .next t ∧
      t.memRead a = (if a.toNat = 0x00A then BitVec.ofNat 8 (v.toNat % 2) else v) ∧
      (∀ b, b ≠ a → t.memRead b = s.memRead b) ∧
      t.op = s.op ∧ t.err = s.err ∧ t.errsub = s.errsub ∧ t.busy = s.busy ∧ t.done = s.done ∧ t.fault = s.fault ∧
      t.dec = s.dec ∧ t.enc = s.enc ∧ t.cfg = s.cfg ∧ t.agenda = s.agenda ∧ t.lastRead = s.lastRead

/-- Repeating an access changes nothing: a write to an offset other than `OP` while `BUSY = 0` made twice leaves what
it left once, and two reads of an offset return the same byte and leave the same state (R80). -/
def Obligations.AccessesAreIdempotent : Prop :=
  (∀ (s t : State) (a : Offset) (v : Byte), s.ibuf.wf = true → s.busy = false → a ≠ 0x000 → exec (.wr a v) s = .next t →
    exec (.wr a v) t = .next t) ∧
  (∀ (s t : State) (a : Offset), exec (.rd a) s = .next t → exec (.rd a) t = .next t)

/-- Four byte writes to `E_VAL`, in any state with `BUSY = 0`, build the value with the byte at the lowest offset least
significant, and two to `ILEN` the length (R76). -/
def Obligations.MultiByteRegistersAreLittleEndian : Prop :=
  (∀ (s : State) (b0 b1 b2 b3 : Byte), s.busy = false →
    ((((s.memWrite 0x010 b0).memWrite 0x011 b1).memWrite 0x012 b2).memWrite 0x013 b3).cmd.val.toNat =
      b0.toNat + b1.toNat * 256 + b2.toNat * 65536 + b3.toNat * 16777216) ∧
  (∀ (s : State) (b0 b1 : Byte), s.busy = false →
    ((s.memWrite 0x004 b0).memWrite 0x005 b1).ilen.toNat = b0.toNat + b1.toNat * 256) ∧
  (∀ s : State, s.dec.val.toNat = (s.memRead 0x048).toNat + (s.memRead 0x049).toNat * 256 +
    (s.memRead 0x04A).toNat * 65536 + (s.memRead 0x04B).toNat * 16777216) ∧
  (∀ s : State, s.enc.olen.toNat = (s.memRead 0x006).toNat + (s.memRead 0x007).toNat * 256)

/-- While an operation is pending, no access of the host changes a byte it can read, so it reads the results of the
operation before (hazard H2, R346). -/
def Obligations.AccessWhileBusyShowsTheOldResults : Prop :=
  ∀ (s : State) (w : Nat) (rest : List Event), s.busy = true → s.agenda = .bus w :: rest → w < 2 ^ 19 →
    ∃ t, step s = .next t ∧ (∀ a, t.memRead a = s.memRead a) ∧ t.busy = true ∧ t.op = s.op ∧ t.ilen = s.ilen ∧
      t.cmd = s.cmd ∧ t.ibuf = s.ibuf ∧ t.dec = s.dec ∧ t.enc = s.enc

/-! ## The checksum -/

/-- `CK` is the sum of the bytes modulo 256 or their exclusive or, and 0 for the empty string under both (R140). -/
def Obligations.ChecksumIsSumOrXor : Prop :=
  (∀ bs : List Byte, (ck .sum8 bs).toNat = (bs.map fun b => b.toNat).sum % 256) ∧
  (∀ bs : List Byte, ck .xor8 bs = bs.foldl (fun acc b => acc ^^^ b) 0) ∧
  (∀ alg : CkAlg, ck alg [] = 0)

/-- The collisions of R146: both algorithms are invariant under a reordering of the bytes; XOR8 is unchanged when the
same bit is flipped in two bytes, SUM8 when one byte rises by `d` and another falls by `d`. -/
def Obligations.ChecksumCollisions : Prop :=
  (∀ (alg : CkAlg) (xs ys : List Byte), xs.Perm ys → ck alg xs = ck alg ys) ∧
  (∀ (xs ys zs : List Byte) (a b : Byte) (k : Fin 8),
    ck .xor8 (xs ++ (a ^^^ BitVec.twoPow 8 k.val) :: ys ++ (b ^^^ BitVec.twoPow 8 k.val) :: zs) =
      ck .xor8 (xs ++ a :: ys ++ b :: zs)) ∧
  (∀ (xs ys zs : List Byte) (a b d : Byte),
    ck .sum8 (xs ++ (a + d) :: ys ++ (b - d) :: zs) = ck .sum8 (xs ++ a :: ys ++ b :: zs))

/-- One flipped bit of an accepted frame makes VALIDATE and DECODE fail: with `CHECKSUM_MISMATCH` at offsets 2..L-1, with
`MALFORMED_FRAME`/`BAD_MAGIC` at offsets 0 and 1 (R145), under both algorithms. -/
def Obligations.OneFlippedBitIsRejected : Prop :=
  ∀ (s u : State) (i : Nat) (k : Fin 8) (op : Instr), s.ibuf.wf = true → frameAccepted s → i < s.ilen.toNat →
    u = { s with ibuf := s.ibuf.write i (s.ibuf.read i ^^^ BitVec.twoPow 8 k.val) } →
    op ∈ [Instr.validate, Instr.decode] →
    ∃ t, exec op u = .next t ∧ (if i < 2 then completedWith t 2 2 else completedWith t 3 0)

/-- The whole-frame identity: CKSUM over all bytes of an accepted frame completes with 0 under XOR8 and with twice the
checksum byte, modulo 256, under SUM8 (R147). -/
def Obligations.WholeFrameChecksum : Prop :=
  ∀ s : State, frameAccepted s → ∃ t, exec .cksum s = .next t ∧ completedWith t 0 0 ∧
    (s.cfg.raw.ckAlg = .xor8 → t.dec.ckCalc = 0) ∧
    (s.cfg.raw.ckAlg = .sum8 → t.dec.ckCalc.toNat = 2 * (s.ibuf.read (s.ilen.toNat - 1)).toNat % 256)

/-! ## CKSUM and VALIDATE -/

/-- CKSUM: with `ILEN <= 256` the decode group is 0 but for `D_CKCALC`, the checksum of all `ILEN` bytes, and there is no
error; with `ILEN > 256` the decode group is 0 and the error is `MALFORMED_FRAME`/`TOO_LONG`. Everything else is as
before but for the completion (R143). -/
def Obligations.CksumResult : Prop :=
  Sys2Proof.decode .op 0x01 = .ok .cksum ∧
  (∀ s : State, s.ilen.toNat ≤ 256 → exec .cksum s = .next { s with
    dec := { DecodeGroup.zero with ckCalc := ck s.cfg.raw.ckAlg (s.ibuf.range 0 s.ilen.toNat) },
    err := 0, errsub := 0, busy := false, done := true }) ∧
  (∀ s : State, 256 < s.ilen.toNat → exec .cksum s = .next { s with
    dec := DecodeGroup.zero, err := 2, errsub := 3, busy := false, done := true })

/-- VALIDATE: the four errors in their order, the two checksum registers once the checksum step is reached, and nothing
else but the completion (R144). -/
def Obligations.ValidateResult : Prop :=
  Sys2Proof.decode .op 0x02 = .ok .validate ∧
  ∀ s : State,
    let computed := ck s.cfg.raw.ckAlg (s.ibuf.range 0 (s.ilen.toNat - 1))
    let rx := s.ibuf.read (s.ilen.toNat - 1)
    let header := s.ibuf.read 0 = s.cfg.raw.magic0 ∧ s.ibuf.read 1 = s.cfg.raw.magic1
    let failed := fun (sub : Byte) => Host.Outcome.next (φ := Fault) (ρ := Refusal) { s with
      dec := DecodeGroup.zero, err := 2, errsub := sub, busy := false, done := true }
    let checked := fun (err : Byte) => Host.Outcome.next (φ := Fault) (ρ := Refusal) { s with
      dec := { DecodeGroup.zero with ckCalc := computed, ckRx := rx }, err := err, errsub := 0, busy := false, done := true }
    (256 < s.ilen.toNat → exec .validate s = failed 3) ∧
    (s.ilen.toNat < 26 → exec .validate s = failed 1) ∧
    (26 ≤ s.ilen.toNat → s.ilen.toNat ≤ 256 → ¬ header → exec .validate s = failed 2) ∧
    (26 ≤ s.ilen.toNat → s.ilen.toNat ≤ 256 → header → computed ≠ rx → exec .validate s = checked 3) ∧
    (26 ≤ s.ilen.toNat → s.ilen.toNat ≤ 256 → header → computed = rx → exec .validate s = checked 0)

/-! ## DECODE -/

/-- DECODE performs the frame check of VALIDATE first: what VALIDATE rejects, DECODE leaves exactly as VALIDATE does
(R142, R170). -/
def Obligations.DecodeRejectsWhatValidateRejects : Prop :=
  ∀ s t : State, exec .validate s = .next t → t.err ≠ 0 → exec .decode s = .next t

/-- On an accepted frame DECODE extracts the fields and goes on as the instruction that byte 23 decodes to, in the state
with those fields (R170, R171).
That a function code is an instruction of its own, with its completion in every state, is the model's choice
(notes/assumptions/7.md). -/
def Obligations.DecodeGoesOnByTheFunctionCode : Prop :=
  ∀ s : State, frameAccepted s →
    exec .decode s = exec (decodeFn .frame (s.ibuf.read 23)) { s with dec := receivedFields s }

/-- DECODE completes in every state and reports the first failure that applies, in the order of R303; VALIDATE reports
the first of the first four, CKSUM only the first. -/
def Obligations.DecodeReportsTheFirstFailure : Prop :=
  ∀ s : State, ∃ t v c, exec .decode s = .next t ∧ exec .validate s = .next v ∧ exec .cksum s = .next c ∧
    let fn := (s.ibuf.read 23).toNat
    let p := s.ilen.toNat - 26
    if 256 < s.ilen.toNat then completedWith t 2 3 ∧ completedWith v 2 3 ∧ completedWith c 2 3
    else if s.ilen.toNat < 26 then completedWith t 2 1 ∧ completedWith v 2 1 ∧ completedWith c 0 0
    else if s.ibuf.read 0 ≠ s.cfg.raw.magic0 ∨ s.ibuf.read 1 ≠ s.cfg.raw.magic1 then
      completedWith t 2 2 ∧ completedWith v 2 2 ∧ completedWith c 0 0
    else if ck s.cfg.raw.ckAlg (s.ibuf.range 0 (s.ilen.toNat - 1)) ≠ s.ibuf.read (s.ilen.toNat - 1) then
      completedWith t 3 0 ∧ completedWith v 3 0 ∧ completedWith c 0 0
    else
      completedWith v 0 0 ∧ completedWith c 0 0 ∧
      if fn = 0 ∨ 5 < fn then completedWith t 6 0
      else match attrOf s.cfg (s.ibuf.read 24) with
        | none => completedWith t 4 0
        | some d =>
          if (fn = 2 ∨ fn = 3) ∧ p ≠ d.w.bytes then completedWith t 5 0
          else if p ≠ 0 ∧ p ≠ d.w.bytes then completedWith t 5 0
          else if p ≠ 0 ∧ inRange (unmarshal (s.ibuf.range 25 d.w.bytes) d) d = false then completedWith t 7 0
          else completedWith t 0 0

/-- The decode group after each outcome of DECODE, and nothing else changed but the completion (R175). -/
def Obligations.DecodeGroupAfterEachOutcome : Prop :=
  ∀ s t : State, exec .decode s = .next t →
    let fields := receivedFields s
    let reply := decide (s.ibuf.read 23 ≠ 0x02)
    sameInputs s t ∧ t.enc = s.enc ∧ t.busy = false ∧ t.done = true ∧
    (t.err = 2 → t.dec = DecodeGroup.zero) ∧
    (t.err = 3 → t.dec = { DecodeGroup.zero with ckCalc := fields.ckCalc, ckRx := fields.ckRx }) ∧
    (t.err = 6 → t.dec = fields) ∧
    (t.err = 4 ∨ t.err = 5 ∨ t.err = 7 → t.dec = { fields with replyExpected := reply }) ∧
    (t.err = 0 → s.ilen.toNat = 26 → t.dec = { fields with replyExpected := reply }) ∧
    (t.err = 0 → s.ilen.toNat ≠ 26 → ∃ d, attrOf s.cfg (s.ibuf.read 24) = some d ∧ s.ilen.toNat = 26 + d.w.bytes ∧
      t.dec = { fields with replyExpected := reply, valValid := true,
                            val := unmarshal (s.ibuf.range 25 d.w.bytes) d })

/-- DECODE of a good frame with a payload: accepted, known function code and attribute, the payload's length the
attribute's width, the value in range. It completes without error with the fields and the value (R170). -/
def Obligations.DecodeOfAGoodFrame : Prop :=
  ∀ (s : State) (d : AttrDesc), frameAccepted s → (s.ibuf.read 23).toNat ∈ [1, 2, 3, 4, 5] →
    attrOf s.cfg (s.ibuf.read 24) = some d → s.ilen.toNat = 26 + d.w.bytes →
    inRange (unmarshal (s.ibuf.range 25 d.w.bytes) d) d = true →
    exec .decode s = .next { s with
      dec := { receivedFields s with replyExpected := decide (s.ibuf.read 23 ≠ 0x02), valValid := true,
                                     val := unmarshal (s.ibuf.range 25 d.w.bytes) d },
      err := 0, errsub := 0, busy := false, done := true }

/-- DECODE is pure: two states with the same `ILEN`, `CFG` and `IBUF[0..ILEN-1]` end with the same decode group, `ERR` and
`ERRSUB`, whatever else they hold; it writes only the decode group and the completion registers (R179). -/
def Obligations.DecodeReadsOnlyTheFrame : Prop :=
  ∀ s t : State, s.ilen = t.ilen → s.cfg = t.cfg → (∀ i < s.ilen.toNat, s.ibuf.read i = t.ibuf.read i) →
    ∃ u v, exec .decode s = .next u ∧ exec .decode t = .next v ∧ u.dec = v.dec ∧ u.err = v.err ∧ u.errsub = v.errsub ∧
      sameInputs s u ∧ u.enc = s.enc

/-! ## Function codes -/

/-- Each of the five function codes, in a frame whose fields have been extracted: with an empty payload, which READ,
INCREMENT and DECREMENT take, it completes without error and without a value; with a payload of the attribute's width
and a value in range, which all five take, it completes with the value. `REPLY_EXPECTED` is 1 but for WRITE
(R230..R235).
That a function code is an instruction of its own, with its completion in every state, is the model's choice
(notes/assumptions/7.md). -/
def Obligations.FunctionCodeParsesItsFrame : Prop :=
  ∀ (fn : FnCode) (s : State) (d : AttrDesc), attrOf s.cfg s.dec.attr = some d →
    (s.ilen.toNat = 26 → fn ∈ [FnCode.read, .increment, .decrement] →
      exec (fn.instr .frame) s = .next { s with
        dec := { s.dec with replyExpected := true }, err := 0, errsub := 0, busy := false, done := true }) ∧
    (s.ilen.toNat = 26 + d.w.bytes → inRange (unmarshal (s.ibuf.range 25 d.w.bytes) d) d = true →
      exec (fn.instr .frame) s = .next { s with
        dec := { s.dec with replyExpected := decide (fn ≠ .write), valValid := true,
                            val := unmarshal (s.ibuf.range 25 d.w.bytes) d },
        err := 0, errsub := 0, busy := false, done := true })

/-- Where a function code in a frame fails: an unknown attribute (R172), a payload length it does not take, which for
WRITE and READ_WRITE includes the empty one (R173), a value out of range (R174); the reply flag is set before.
That a function code is an instruction of its own, with its completion in every state, is the model's choice
(notes/assumptions/7.md). -/
def Obligations.FunctionCodeRejectsItsFrame : Prop :=
  ∀ (fn : FnCode) (s : State), 26 ≤ s.ilen.toNat →
    let failed := fun (err : Byte) => Host.Outcome.next (φ := Fault) (ρ := Refusal) { s with
      dec := { s.dec with replyExpected := decide (fn ≠ .write) }, err := err, errsub := 0, busy := false, done := true }
    (attrOf s.cfg s.dec.attr = none → exec (fn.instr .frame) s = failed 4) ∧
    (∀ d, attrOf s.cfg s.dec.attr = some d →
      (fn = .write ∨ fn = .readWrite ∨ s.ilen.toNat ≠ 26) → s.ilen.toNat ≠ 26 + d.w.bytes →
      exec (fn.instr .frame) s = failed 5) ∧
    (∀ d, attrOf s.cfg s.dec.attr = some d → s.ilen.toNat = 26 + d.w.bytes →
      inRange (unmarshal (s.ibuf.range 25 d.w.bytes) d) d = false → exec (fn.instr .frame) s = failed 7)

/-- Each of the five function codes, in a command: with a known attribute and either a value in range or, for READ,
INCREMENT and DECREMENT, no value, it builds the frame: `OLEN` its length, `OBUF` its bytes from index 0 on,
`O_FLAGS.REPLY_EXPECTED` 1 but for WRITE; no other byte of `OBUF` and nothing else changes but the completion
(R200, R230..R235).
That a function code is an instruction of its own, with its completion in every state, is the model's choice
(notes/assumptions/7.md). -/
def Obligations.FunctionCodeBuildsItsFrame : Prop :=
  ∀ (fn : FnCode) (s : State) (d : AttrDesc), s.enc.obuf.wf = true → attrOf s.cfg s.cmd.attr = some d →
    (s.cmd.valPresent = true ∧ inRange s.cmd.val d = true ∨
      s.cmd.valPresent = false ∧ fn ∈ [FnCode.read, .increment, .decrement]) →
    ∃ t, exec (fn.instr .command) s = .next t ∧ completedWith t 0 0 ∧ sameInputs s t ∧ t.dec = s.dec ∧
      t.enc.olen.toNat = 26 + (if s.cmd.valPresent then d.w.bytes else 0) ∧
      t.enc.replyExpected = decide (fn ≠ .write) ∧
      t.enc.obuf.range 0 t.enc.olen.toNat = frameOf fn d s.cfg s.cmd ∧
      (∀ i, t.enc.olen.toNat ≤ i → t.enc.obuf.read i = s.enc.obuf.read i)

/-- Where a function code in a command fails: an unknown attribute, WRITE and READ_WRITE without a value, a value out of
range; the encode group stays as it is (R203, R204).
That a function code is an instruction of its own, with its completion in every state, is the model's choice
(notes/assumptions/7.md). -/
def Obligations.FunctionCodeRejectsItsCommand : Prop :=
  ∀ (fn : FnCode) (s : State),
    let failed := fun (sub : Byte) => Host.Outcome.next (φ := Fault) (ρ := Refusal) { s with
      err := 1, errsub := sub, busy := false, done := true }
    (attrOf s.cfg s.cmd.attr = none → exec (fn.instr .command) s = failed 4) ∧
    (∀ d, attrOf s.cfg s.cmd.attr = some d → (fn = .write ∨ fn = .readWrite) → s.cmd.valPresent = false →
      exec (fn.instr .command) s = failed 5) ∧
    (∀ d, attrOf s.cfg s.cmd.attr = some d → s.cmd.valPresent = true → inRange s.cmd.val d = false →
      exec (fn.instr .command) s = failed 6)

/-- An unknown function code as an instruction of its own, which completes in every state: that is the model's choice
(notes/assumptions/7.md), and its content is what R176 says of DECODE, `UNKNOWN_FUNCTION`, and R202 of ENCODE,
`ENCODING_ERROR`/`BAD_FN`. Nothing else is written but the completion. -/
def Obligations.UnknownFunctionCodeFails : Prop :=
  ∀ (b : Byte) (s : State),
    exec (.fnUnknown .frame b) s = .next { s with err := 6, errsub := 0, busy := false, done := true } ∧
    exec (.fnUnknown .command b) s = .next { s with err := 1, errsub := 3, busy := false, done := true }

/-- `ReplyExpected` is 0 for WRITE and 1 for the other codes, in `D_FLAGS` after a DECODE that got past the function check
and in `O_FLAGS` after a successful ENCODE; for an unknown code DECODE fails before setting the flag and ENCODE refuses the
code (R235). -/
def Obligations.ReplyExpectedButForWrite : Prop :=
  (∀ s t : State, exec .decode s = .next t →
    (t.err ∈ [0, 4, 5, 7] → (t.dec.replyExpected = false ↔ s.ibuf.read 23 = 0x02)) ∧
    ((s.ibuf.read 23).toNat ∉ [1, 2, 3, 4, 5] → t.err ≠ 0 ∧ t.dec.replyExpected = false)) ∧
  (∀ s t : State, exec .encode s = .next t →
    (t.err = 0 → (t.enc.replyExpected = false ↔ s.cmd.fn = 0x02)) ∧
    (s.cmd.fn.toNat ∉ [1, 2, 3, 4, 5] → t.err ≠ 0 ∧ t.enc.replyExpected = false))

/-! ## ENCODE -/

/-- ENCODE completes in every state and reports the first failure that applies, in the order of R304. -/
def Obligations.EncodeReportsTheFirstFailure : Prop :=
  ∀ s : State, ∃ t, exec .encode s = .next t ∧
    let fn := s.cmd.fn.toNat
    if s.cmd.idLen.toNat ≠ 16 then completedWith t 1 1
    else if 4 < s.cmd.pwLen.toNat then completedWith t 1 2
    else if fn = 0 ∨ 5 < fn then completedWith t 1 3
    else match attrOf s.cfg s.cmd.attr with
      | none => completedWith t 1 4
      | some d =>
        if (fn = 2 ∨ fn = 3) ∧ s.cmd.valPresent = false then completedWith t 1 5
        else if s.cmd.valPresent = true ∧ inRange s.cmd.val d = false then completedWith t 1 6
        else completedWith t 0 0

/-- The output of ENCODE: on success `OBUF[0..L-1]` holds the frame, `OBUF[L..255]` are 0 and `OLEN = L`, 26 without a
value and 26 plus the width, 27, 28 or 30, with one; on any error `OLEN`, `O_FLAGS` and all of `OBUF` are 0 (R206). -/
def Obligations.EncodeOutput : Prop :=
  ∀ s t : State, exec .encode s = .next t →
    (t.err ≠ 0 → t.enc.olen = 0 ∧ t.enc.flags = 0 ∧ ∀ i, t.enc.obuf.read i = 0) ∧
    (t.err = 0 → ∃ (d : AttrDesc) (fn : FnCode), attrOf s.cfg s.cmd.attr = some d ∧ fn.byte = s.cmd.fn ∧
      t.enc.obuf.range 0 t.enc.olen.toNat = frameOf fn d s.cfg s.cmd ∧
      (∀ i, t.enc.olen.toNat ≤ i → t.enc.obuf.read i = 0) ∧
      (s.cmd.valPresent = false → t.enc.olen.toNat = 26) ∧
      (s.cmd.valPresent = true → t.enc.olen.toNat = 26 + d.w.bytes ∧ t.enc.olen.toNat ∈ [27, 28, 30]))

/-- The layout of the frame ENCODE leaves in `OBUF`, offset by offset: magic, version, identifier, password with `PAD`
from index `E_PWLEN` on, function code, attribute id, payload, checksum of all bytes before it (R101, R205, R207). -/
def Obligations.EncodedFrameLayout : Prop :=
  ∀ s t : State, exec .encode s = .next t → t.err = 0 →
    t.enc.obuf.read 0 = s.cfg.raw.magic0 ∧ t.enc.obuf.read 1 = s.cfg.raw.magic1 ∧
    t.enc.obuf.read 2 = s.cfg.raw.version ∧
    (∀ i : Fin 16, t.enc.obuf.read (3 + i.val) = s.cmd.id[i]) ∧
    (∀ j : Fin 4, t.enc.obuf.read (19 + j.val) =
      if j.val < s.cmd.pwLen.toNat then s.cmd.pw[j] else s.cfg.raw.pad) ∧
    t.enc.obuf.read 23 = s.cmd.fn ∧ t.enc.obuf.read 24 = s.cmd.attr ∧
    (s.cmd.valPresent = false → t.enc.olen.toNat = 26) ∧
    (∀ d, attrOf s.cfg s.cmd.attr = some d → s.cmd.valPresent = true →
      t.enc.olen.toNat = 26 + d.w.bytes ∧ t.enc.obuf.range 25 d.w.bytes = marshal s.cmd.val d) ∧
    t.enc.obuf.read (t.enc.olen.toNat - 1) = ck s.cfg.raw.ckAlg (t.enc.obuf.range 0 (t.enc.olen.toNat - 1))

/-- ENCODE of a good command: a 16-byte identifier, a password of at most 4 bytes, a known function code and attribute,
and a value in range or none where the code needs none. It completes without error with the built frame (R200). -/
def Obligations.EncodeOfAGoodCommand : Prop :=
  ∀ (s : State) (fn : FnCode) (d : AttrDesc), s.cmd.idLen = 16 → s.cmd.pwLen.toNat ≤ 4 → s.cmd.fn = fn.byte →
    attrOf s.cfg s.cmd.attr = some d →
    (s.cmd.valPresent = true ∧ inRange s.cmd.val d = true ∨
      s.cmd.valPresent = false ∧ fn ∈ [FnCode.read, .increment, .decrement]) →
    ∃ t, exec .encode s = .next t ∧ completedWith t 0 0 ∧ sameInputs s t ∧ t.dec = s.dec ∧
      t.enc.olen.toNat = 26 + (if s.cmd.valPresent then d.w.bytes else 0) ∧
      t.enc.obuf.range 0 t.enc.olen.toNat = frameOf fn d s.cfg s.cmd

/-- ENCODE does not read `E_PW[j]` for `j >= E_PWLEN`, nor `E_VAL` without a value, nor anything but its operands: two
states that agree on those end with the same encode group, `ERR` and `ERRSUB` (R208, R210). -/
def Obligations.EncodeReadsOnlyItsOperands : Prop :=
  ∀ s t : State, s.cfg = t.cfg → s.cmd.fn = t.cmd.fn → s.cmd.attr = t.cmd.attr →
    s.cmd.valPresent = t.cmd.valPresent → s.cmd.idLen = t.cmd.idLen → s.cmd.pwLen = t.cmd.pwLen →
    s.cmd.id = t.cmd.id → (∀ j : Fin 4, j.val < s.cmd.pwLen.toNat → s.cmd.pw[j] = t.cmd.pw[j]) →
    (s.cmd.valPresent = true → s.cmd.val = t.cmd.val) →
    ∃ u v, exec .encode s = .next u ∧ exec .encode t = .next v ∧ u.enc = v.enc ∧ u.err = v.err ∧ u.errsub = v.errsub

/-- The round trip: when ENCODE succeeds and the host copies `OBUF[0..OLEN-1]` to `IBUF` and `OLEN` to `ILEN`, DECODE
succeeds and gives the command back (R209). -/
def Obligations.DecodeOfEncodeGivesTheCommand : Prop :=
  ∀ s t u : State, exec .encode s = .next t → t.err = 0 → u.cfg = s.cfg → u.ilen = t.enc.olen →
    (∀ i < t.enc.olen.toNat, u.ibuf.read i = t.enc.obuf.read i) →
    ∃ v, exec .decode u = .next v ∧ completedWith v 0 0 ∧ v.dec.fn = s.cmd.fn ∧ v.dec.attr = s.cmd.attr ∧
      v.dec.ver = s.cfg.raw.version ∧ v.dec.id = s.cmd.id ∧
      (∀ j : Fin 4, v.dec.pw[j] = if j.val < s.cmd.pwLen.toNat then s.cmd.pw[j] else s.cfg.raw.pad) ∧
      v.dec.valValid = s.cmd.valPresent ∧ (s.cmd.valPresent = true → v.dec.val = s.cmd.val)

/-! ## Attributes -/

/-- The conversions give a value in range back: `Unmarshal(Marshal(v, d), d) = v` for every descriptor of a well-formed
configuration (R256). -/
def Obligations.UnmarshalOfMarshalIsTheValue : Prop :=
  ∀ (d : AttrDesc) (v : Word), d.wf = true → inRange v d = true → unmarshal (marshal v d) d = v

/-- Marshalling takes the low `8W` bits in the attribute's byte order, and unmarshalling sign- or zero-extends them
(R253, R254). -/
def Obligations.ConversionsInBothByteOrders : Prop :=
  (∀ (d : AttrDesc) (v : Word), (marshal v d).length = d.w.bytes ∧
    leNat (if d.be then (marshal v d).reverse else marshal v d) = v.toNat % 2 ^ (8 * d.w.bytes)) ∧
  (∀ (d : AttrDesc) (b : List Byte), b.length = d.w.bytes →
    let u := leNat (if d.be then b.reverse else b)
    (d.signed = false → (unmarshal b d).toNat = u) ∧
    (d.signed = true → (unmarshal b d).toInt =
      if u < 2 ^ (8 * d.w.bytes - 1) then (u : Int) else (u : Int) - 2 ^ (8 * d.w.bytes)))

/-- Each of the thirteen attributes is the name of exactly one id of every configuration (R251). -/
def Obligations.EachNamedAttributeHasOneId : Prop :=
  ∀ (c : Config) (n : AttrName), n ∈ AttrName.thirteen →
    ∃ a : Byte, (∃ d, attrOf c a = some d ∧ d.name = n) ∧
      ∀ b e, attrOf c b = some e → e.name = n → b = a

/-- The values that the spec's rules allow an attribute: a BOOL attribute has width 1 and takes 0 and 1, an ENUM has one
member per code (R251); power and boost are BOOL, the preset speed takes 1 to 10, the manual speed 0 to 255, and 45 is a
humidity (R259..R261, R263, R265). Of these the source does not state that the filter alarm is BOOL (R269, decision D7) nor
that off is 0 (R258, decision D23): both are the spec's own readings. That every configuration meets the rules of the named
attributes is the model's reading, DEDUCED (notes/assumptions/5.md). -/
def Obligations.NamedAttributesTakeTheirValues : Prop :=
  ∀ (c : Config) (a : Byte) (d : AttrDesc) (v : Word), attrOf c a = some d →
    (d.kind = .bool ∨ d.name ∈ [AttrName.power, .boost, .filterAlarm] →
      d.w = .one ∧ (inRange v d = true ↔ v.toNat ≤ 1)) ∧
    (d.name = .presetSpeed → (inRange v d = true ↔ 1 ≤ v.toNat ∧ v.toNat ≤ 10)) ∧
    (d.name = .manualSpeed → (inRange v d = true ↔ v.toNat ≤ 255)) ∧
    (d.name = .humidity → inRange 45 d = true) ∧
    (d.kind = .enum → (d.members.length : Int) = d.max - d.min + 1)

/-- The read-only mark, the name, the kind and the member names of an attribute change nothing that DECODE and ENCODE do
(R250, R257). -/
def Obligations.ReadOnlyMarkIsNotUsed : Prop :=
  ∀ (s : State) (c : Config) (op : Instr), sameCodec s.cfg c → op ∈ [Instr.decode, Instr.encode] →
    ∃ t, exec op s = .next t ∧ exec op { s with cfg := c } = .next { t with cfg := c }

/-! ## NOP, illegal codes, frames -/

/-- NOP completes in every state with `ERR = ERRSUB = 0` and changes nothing else (R282). -/
def Obligations.NopOnlyCompletes : Prop :=
  Sys2Proof.decode .op 0x00 = .ok .nop ∧
  ∀ s : State, exec .nop s = .next { s with err := 0, errsub := 0, busy := false, done := true }

/-- An illegal operation code completes in every state with `ILLEGAL_OP`, `STATUS.ERRF` reads 1, `OP` keeps the code, and
nothing else changes (R283). -/
def Obligations.IllegalCodeReportsIllegalOp : Prop :=
  (∀ v : Byte, 5 ≤ v.toNat → Sys2Proof.decode .op v.toNat = .ok (.illegal v)) ∧
  (∀ (v : Byte) (s : State),
    exec (.illegal v) s = .next { s with err := 8, errsub := 0, busy := false, done := true }) ∧
  (∀ (s : State) (v : Byte), 5 ≤ v.toNat → s.busy = true → s.op = v → s.agenda = [] →
    ∃ t, step s = .next t ∧ completedWith t 8 0 ∧ t.dec = s.dec ∧ t.enc = s.enc ∧ t.fault = s.fault ∧
      t.memRead 0x000 = v ∧ t.memRead 0x001 = 0x06)

/-- What an operation leaves unchanged: CKSUM, VALIDATE and DECODE write only the decode group, ENCODE only the encode
group, NOP and an illegal code neither; all write the completion registers, and no operation writes an input, `IBUF`, `OP`
or `FAULT` (R60). -/
def Obligations.OperationsWriteOnlyTheirGroup : Prop :=
  ∀ (i : Instr) (s : State), isOperation i = true →
    ∃ t, exec i s = .next t ∧ sameInputs s t ∧ t.busy = false ∧ t.done = true ∧
      (i ∉ [Instr.cksum, .validate, .decode] → t.dec = s.dec) ∧ (i ≠ .encode → t.enc = s.enc) ∧
      (∀ a, s.memRead a ≠ t.memRead a → 0x001 ≤ a.toNat ∧ a.toNat ≤ 0x003 ∨
        i ∈ [Instr.cksum, .validate, .decode] ∧ 0x040 ≤ a.toNat ∧ a.toNat ≤ 0x05F ∨
        i = .encode ∧ (a.toNat = 0x006 ∨ a.toNat = 0x007 ∨ a.toNat = 0x00D ∨ 0x200 ≤ a.toNat ∧ a.toNat ≤ 0x2FF))

/-- What a function code leaves unchanged: in a frame it writes at most `D_FLAGS` and `D_VAL` and stores to no buffer; in
a command at most the encode group, and of `OBUF` only the bytes of the frame it builds (R170, R200).
That a function code is an instruction of its own, with its completion in every state, is the model's choice
(notes/assumptions/7.md). -/
def Obligations.FunctionCodesWriteOnlyTheirResults : Prop :=
  ∀ (fn : FnCode) (s : State),
    (∃ t, exec (fn.instr .frame) s = .next t ∧ sameInputs s t ∧ t.busy = false ∧ t.done = true ∧ t.enc = s.enc ∧
      t.dec = { s.dec with replyExpected := t.dec.replyExpected, valValid := t.dec.valValid, val := t.dec.val }) ∧
    (∃ t, exec (fn.instr .command) s = .next t ∧ sameInputs s t ∧ t.busy = false ∧ t.done = true ∧ t.dec = s.dec ∧
      (t.err ≠ 0 → t.enc = s.enc) ∧
      (t.err = 0 → ∀ i, t.enc.olen.toNat ≤ i → t.enc.obuf.read i = s.enc.obuf.read i))

/-! ## The whole machine -/

/-- The reset state is a good state. -/
def Obligations.ResetIsGood : Prop := State.reset.Inv ∧ State.reset.OutputFrameOk

/-- Every step keeps what the spec says of the block's state at all times: the buffers' form, `BUSY` and `DONE` never both
1, listed error codes, the values of `OLEN`, zeros past the output frame, and what the decode group can hold. -/
def Obligations.StepKeepsTheStateGood : Prop := ∀ s t : State, s.Inv → step s = .next t → t.Inv

/-- Every step keeps the output frame valid: whenever `OLEN` is not 0, `OBUF` holds a frame with the magic, the version
and a right checksum (R206, R207). -/
def Obligations.StepKeepsTheOutputFrameValid : Prop :=
  ∀ s t : State, s.OutputFrameOk → step s = .next t → t.OutputFrameOk

/-- Only these steps change each part of the block's state: `CFG` never changes; `ERR` and `ERRSUB` change only by a start, a
codec step with `BUSY = 1` or reset; `BUSY` is set only by a start and cleared only by such a codec step or reset; `DONE` is
set only by such a codec step and cleared only by a start or reset; `OP` changes by a host write to `OP` while `BUSY = 0` or by
reset; the encode group by a codec step with `OP = 0x04` or by reset; the decode group by a codec step with `OP` 0x01, 0x02 or
0x03 or by reset; the inputs and `IBUF` by a host write while `BUSY = 0` or by reset; `FAULT` is set by a host write while
`BUSY = 1` and cleared by reset (R33, R34, R35, R37, R43, R57, R58, R59, R61, R84, R307). -/
def Obligations.OnlyTheNamedStepsChangeAPart : Prop :=
  ∀ s t : State, step s = .next t →
    let byReset := ∃ rest, s.agenda = .reset :: rest
    let performed := s.busy = true ∧ (s.agenda = [] ∨ ∃ rest, s.agenda = .codec :: rest)
    let byCodec := fun (ops : List Nat) => performed ∧ s.op.toNat ∈ ops
    let byWrite := fun (busy : Bool) (p : Nat → Prop) =>
      s.busy = busy ∧ ∃ (a : Offset) (v : Byte) (rest : List Event),
        s.agenda = .bus (busWord true a v) :: rest ∧ p a.toNat
    let byStart := byWrite false (fun n => n = 0)
    t.cfg = s.cfg ∧
    (t.op ≠ s.op → byReset ∨ byStart) ∧
    (t.err ≠ s.err → byReset ∨ byStart ∨ performed) ∧
    (t.errsub ≠ s.errsub → byReset ∨ byStart ∨ performed) ∧
    (s.busy = false → t.busy = true → byStart) ∧
    (s.busy = true → t.busy = false → byReset ∨ performed) ∧
    (s.done = false → t.done = true → performed) ∧
    (s.done = true → t.done = false → byReset ∨ byStart) ∧
    (t.enc ≠ s.enc → byReset ∨ byCodec [4]) ∧
    (t.dec ≠ s.dec → byReset ∨ byCodec [1, 2, 3]) ∧
    (t.ilen ≠ s.ilen → byReset ∨ byWrite false (fun n => n = 4 ∨ n = 5)) ∧
    (t.cmd ≠ s.cmd → byReset ∨ byWrite false (fun n => 8 ≤ n ∧ n ≤ 0x27)) ∧
    (t.ibuf ≠ s.ibuf → byReset ∨ byWrite false (fun n => 0x100 ≤ n ∧ n ≤ 0x1FF)) ∧
    (s.fault = false → t.fault = true → byWrite true (fun _ => True)) ∧
    (s.fault = true → t.fault = false → byReset)

/-- A pending operation is performed: from any state with `BUSY = 1`, if the steps to come hold no reset and only
transactions that exist, the machine reaches a state with `BUSY = 0` and `DONE = 1` within one step more than the agenda is
long (R286). That the agenda is finite, so that no run starves the codec, is the model's choice (notes/assumptions/2.md). -/
def Obligations.PendingOperationIsPerformed : Prop :=
  ∀ s : State, s.busy = true → s.agenda.all Event.isPlain = true →
    ∃ k t, k ≤ s.agenda.length + 1 ∧ Sys2Proof.core.run k s = .next t ∧ t.busy = false ∧ t.done = true

/-! ## Host programs -/

/-- The bus words of the host notation: a line's number is that of R112's table, and within the register space it decodes
to the line's access; a line whose offset lies outside 0x000..0x3FF is refused (R75), whatever its number. -/
def Obligations.HostLinesAreBusWords : Prop :=
  (∀ (h : HostAgent) (off : Nat) (b : Byte),
    HostLine.busWord? h (.wr off b) = some (0x40000 + off * 0x100 + b.toNat) ∧
    (off < 0x400 → Sys2Proof.decode .bus (0x40000 + off * 0x100 + b.toNat) = .ok (.wr (BitVec.ofNat 10 off) b))) ∧
  (∀ (h : HostAgent) (off : Nat) (t : HostVar),
    HostLine.busWord? h (.rd off t) = some (off * 0x100) ∧
    (off < 0x400 → Sys2Proof.decode .bus (off * 0x100) = .ok (.rd (BitVec.ofNat 10 off)))) ∧
  (∀ (h : HostAgent) (off : Nat) (t : HostVar) (b : Byte), h.get t = some b →
    HostLine.busWord? h (.wrVar off t) = some (0x40000 + off * 0x100 + b.toNat)) ∧
  (∀ (h : HostAgent) (s : State) (off : Nat), 0x400 ≤ off →
    (∀ b : Byte, h.prog[h.line]? = some (.wr off b) → h.turn s = .error (.noSuchTransaction off)) ∧
    (∀ t : HostVar, h.prog[h.line]? = some (.rd off t) → h.turn s = .error (.noSuchTransaction off)) ∧
    (∀ (t : HostVar) (b : Byte), h.prog[h.line]? = some (.wrVar off t) → h.get t = some b →
      h.turn s = .error (.noSuchTransaction off)))

/-- A host that reads `STATUS` and finds bit 0 clear may write: a turn that reads `STATUS` with `BUSY = 0` sets its variable
to a byte with bit 0 clear, the branch of `WAIT` is then not taken, and a write that follows sets no `FAULT`; with `BUSY = 1`
bit 0 is set (R82, R113, R345). -/
def Obligations.WaitSeesBusy : Prop :=
  ∀ (h : HostAgent) (s : State),
    h.prog[h.line]? = some (.rd (Reg.offset .STATUS 0) { name := "t", elem := none }) →
    ∃ (h' : HostAgent) (s' : State) (b : Byte), h.turn s = .ok (h', s') ∧
      h'.get { name := "t", elem := none } = some b ∧ h'.line = h.line + 1 ∧ h'.prog = h.prog ∧
      b.getLsbD 0 = s.busy ∧ s' = { s with lastRead := some b } ∧
      (b.getLsbD 0 = false → ∀ a v, (s'.memWrite a v).fault = s'.fault)

/-- Progress (R286): a state with `BUSY = 1` is not final; in every infinite weakly fair run of the block, and of a host
program with the block, a pending operation stays pending until the `CODEC` step performs it or a reset discards it (R342),
one of which happens; and no bound holds on how long that takes: from every state with `BUSY = 1`, for every number `n`
there is a weakly fair run in which the operation is still pending after `n` steps. A codec turn with `BUSY = 0` passes,
which is the model's choice (notes/assumptions/2.md). -/
def Obligations.FairRunsPerformThePendingOperation : Prop :=
  (∀ s : State, s.busy = true → ¬ s.Final) ∧
  (∀ (order : Nat → Event) (run : Nat → State), IsRun order run → WeaklyFair (fun m => order m = .codec) run →
    ∀ n, (run n).busy = true → ∃ m, n ≤ m ∧ (∀ k, n ≤ k → k ≤ m → (run k).busy = true) ∧
      (order m = .codec ∧ (run (m + 1)).busy = false ∧ (run (m + 1)).done = true ∨
        order m = .reset ∧ (run (m + 1)).busy = false ∧ (run (m + 1)).done = false)) ∧
  (∀ (order : Nat → Agent) (run : Nat → HostAgent × State), IsHostRun order run →
    WeaklyFair (fun m => order m = .codec) (fun m => (run m).2) →
    ∀ n, (run n).2.busy = true → ∃ m, n ≤ m ∧ (∀ k, n ≤ k → k ≤ m → (run k).2.busy = true) ∧
      (order m = .codec ∧ (run (m + 1)).2.busy = false ∧ (run (m + 1)).2.done = true ∨
        order m = .host ∧ (run m).1.prog[(run m).1.line]? = some .reset ∧
          (run (m + 1)).2.busy = false ∧ (run (m + 1)).2.done = false)) ∧
  (∀ (s : State) (n : Nat), s.busy = true → ∃ (order : Nat → Event) (run : Nat → State),
    IsRun order run ∧ WeaklyFair (fun m => order m = .codec) run ∧ run 0 = s ∧ ∀ k, k ≤ n → (run k).busy = true)

/-- Each use of `WAIT` has a label of its own: wherever it stands in a program, its label is the line just before its read of
`STATUS`, its branch follows, and a jump to that label goes there, whatever labels the other items name or make (R113). -/
def Obligations.WaitGoesBackToItsOwnRead : Prop :=
  ∀ (before after : List HostItem) (h : HostAgent), h.prog = expandProgram (before ++ .pseudo .wait :: after) →
    let at' := (expandProgram before).length
    let own := HostLabel.ofWait before.length
    h.prog[at']? = some (.label own) ∧
    h.prog[at' + 1]? = some (.rd 0x001 { name := "t", elem := none }) ∧
    h.prog[at' + 2]? = some (.ifGoto "t" 0 own) ∧
    h.jump own = .ok { h with line := at' }
end

