-- ==== Sys2Proof/Laws/State.lean ====
section
/-! SUPPORT. Laws/State.lean: one lemma per field per update of the state, each true by unfolding, so that no later proof
unfolds a record update. -/

namespace Sys2Proof.Machine

variable (s : State)

/-! ### complete -/

@[simp] theorem State.complete_op (f : Option Failure) : (s.complete f).op = s.op := rfl
@[simp] theorem State.complete_err (f : Option Failure) : (s.complete f).err = errOf f := rfl
@[simp] theorem State.complete_errsub (f : Option Failure) : (s.complete f).errsub = subOf f := rfl
@[simp] theorem State.complete_busy (f : Option Failure) : (s.complete f).busy = false := rfl
@[simp] theorem State.complete_done (f : Option Failure) : (s.complete f).done = true := rfl
@[simp] theorem State.complete_fault (f : Option Failure) : (s.complete f).fault = s.fault := rfl
@[simp] theorem State.complete_ilen (f : Option Failure) : (s.complete f).ilen = s.ilen := rfl
@[simp] theorem State.complete_cmd (f : Option Failure) : (s.complete f).cmd = s.cmd := rfl
@[simp] theorem State.complete_ibuf (f : Option Failure) : (s.complete f).ibuf = s.ibuf := rfl
@[simp] theorem State.complete_dec (f : Option Failure) : (s.complete f).dec = s.dec := rfl
@[simp] theorem State.complete_enc (f : Option Failure) : (s.complete f).enc = s.enc := rfl
@[simp] theorem State.complete_cfg (f : Option Failure) : (s.complete f).cfg = s.cfg := rfl
@[simp] theorem State.complete_agenda (f : Option Failure) : (s.complete f).agenda = s.agenda := rfl
@[simp] theorem State.complete_lastRead (f : Option Failure) : (s.complete f).lastRead = s.lastRead := rfl

/-! ### start -/

@[simp] theorem State.start_op (v : Byte) : (s.start v).op = v := rfl
@[simp] theorem State.start_err (v : Byte) : (s.start v).err = 0 := rfl
@[simp] theorem State.start_errsub (v : Byte) : (s.start v).errsub = 0 := rfl
@[simp] theorem State.start_busy (v : Byte) : (s.start v).busy = true := rfl
@[simp] theorem State.start_done (v : Byte) : (s.start v).done = false := rfl
@[simp] theorem State.start_fault (v : Byte) : (s.start v).fault = s.fault := rfl
@[simp] theorem State.start_ilen (v : Byte) : (s.start v).ilen = s.ilen := rfl
@[simp] theorem State.start_cmd (v : Byte) : (s.start v).cmd = s.cmd := rfl
@[simp] theorem State.start_ibuf (v : Byte) : (s.start v).ibuf = s.ibuf := rfl
@[simp] theorem State.start_dec (v : Byte) : (s.start v).dec = s.dec := rfl
@[simp] theorem State.start_enc (v : Byte) : (s.start v).enc = s.enc := rfl
@[simp] theorem State.start_cfg (v : Byte) : (s.start v).cfg = s.cfg := rfl
@[simp] theorem State.start_agenda (v : Byte) : (s.start v).agenda = s.agenda := rfl
@[simp] theorem State.start_lastRead (v : Byte) : (s.start v).lastRead = s.lastRead := rfl

/-! ### dclear -/

@[simp] theorem State.dclear_op : (s.dclear).op = s.op := rfl
@[simp] theorem State.dclear_err : (s.dclear).err = s.err := rfl
@[simp] theorem State.dclear_errsub : (s.dclear).errsub = s.errsub := rfl
@[simp] theorem State.dclear_busy : (s.dclear).busy = s.busy := rfl
@[simp] theorem State.dclear_done : (s.dclear).done = s.done := rfl
@[simp] theorem State.dclear_fault : (s.dclear).fault = s.fault := rfl
@[simp] theorem State.dclear_ilen : (s.dclear).ilen = s.ilen := rfl
@[simp] theorem State.dclear_cmd : (s.dclear).cmd = s.cmd := rfl
@[simp] theorem State.dclear_ibuf : (s.dclear).ibuf = s.ibuf := rfl
@[simp] theorem State.dclear_dec : (s.dclear).dec = DecodeGroup.zero := rfl
@[simp] theorem State.dclear_enc : (s.dclear).enc = s.enc := rfl
@[simp] theorem State.dclear_cfg : (s.dclear).cfg = s.cfg := rfl
@[simp] theorem State.dclear_agenda : (s.dclear).agenda = s.agenda := rfl
@[simp] theorem State.dclear_lastRead : (s.dclear).lastRead = s.lastRead := rfl

/-! ### eclear -/

@[simp] theorem State.eclear_op : (s.eclear).op = s.op := rfl
@[simp] theorem State.eclear_err : (s.eclear).err = s.err := rfl
@[simp] theorem State.eclear_errsub : (s.eclear).errsub = s.errsub := rfl
@[simp] theorem State.eclear_busy : (s.eclear).busy = s.busy := rfl
@[simp] theorem State.eclear_done : (s.eclear).done = s.done := rfl
@[simp] theorem State.eclear_fault : (s.eclear).fault = s.fault := rfl
@[simp] theorem State.eclear_ilen : (s.eclear).ilen = s.ilen := rfl
@[simp] theorem State.eclear_cmd : (s.eclear).cmd = s.cmd := rfl
@[simp] theorem State.eclear_ibuf : (s.eclear).ibuf = s.ibuf := rfl
@[simp] theorem State.eclear_dec : (s.eclear).dec = s.dec := rfl
@[simp] theorem State.eclear_enc : (s.eclear).enc = EncodeGroup.zero := rfl
@[simp] theorem State.eclear_cfg : (s.eclear).cfg = s.cfg := rfl
@[simp] theorem State.eclear_agenda : (s.eclear).agenda = s.agenda := rfl
@[simp] theorem State.eclear_lastRead : (s.eclear).lastRead = s.lastRead := rfl

/-! ### withChecksums -/

@[simp] theorem State.withChecksums_op : (s.withChecksums).op = s.op := rfl
@[simp] theorem State.withChecksums_err : (s.withChecksums).err = s.err := rfl
@[simp] theorem State.withChecksums_errsub : (s.withChecksums).errsub = s.errsub := rfl
@[simp] theorem State.withChecksums_busy : (s.withChecksums).busy = s.busy := rfl
@[simp] theorem State.withChecksums_done : (s.withChecksums).done = s.done := rfl
@[simp] theorem State.withChecksums_fault : (s.withChecksums).fault = s.fault := rfl
@[simp] theorem State.withChecksums_ilen : (s.withChecksums).ilen = s.ilen := rfl
@[simp] theorem State.withChecksums_cmd : (s.withChecksums).cmd = s.cmd := rfl
@[simp] theorem State.withChecksums_ibuf : (s.withChecksums).ibuf = s.ibuf := rfl
@[simp] theorem State.withChecksums_dec : (s.withChecksums).dec = { s.dec with ckCalc := s.computedCk, ckRx := s.receivedCk } := rfl
@[simp] theorem State.withChecksums_enc : (s.withChecksums).enc = s.enc := rfl
@[simp] theorem State.withChecksums_cfg : (s.withChecksums).cfg = s.cfg := rfl
@[simp] theorem State.withChecksums_agenda : (s.withChecksums).agenda = s.agenda := rfl
@[simp] theorem State.withChecksums_lastRead : (s.withChecksums).lastRead = s.lastRead := rfl

/-! ### withValue -/

@[simp] theorem State.withValue_op (v : Word) : (s.withValue v).op = s.op := rfl
@[simp] theorem State.withValue_err (v : Word) : (s.withValue v).err = s.err := rfl
@[simp] theorem State.withValue_errsub (v : Word) : (s.withValue v).errsub = s.errsub := rfl
@[simp] theorem State.withValue_busy (v : Word) : (s.withValue v).busy = s.busy := rfl
@[simp] theorem State.withValue_done (v : Word) : (s.withValue v).done = s.done := rfl
@[simp] theorem State.withValue_fault (v : Word) : (s.withValue v).fault = s.fault := rfl
@[simp] theorem State.withValue_ilen (v : Word) : (s.withValue v).ilen = s.ilen := rfl
@[simp] theorem State.withValue_cmd (v : Word) : (s.withValue v).cmd = s.cmd := rfl
@[simp] theorem State.withValue_ibuf (v : Word) : (s.withValue v).ibuf = s.ibuf := rfl
@[simp] theorem State.withValue_dec (v : Word) : (s.withValue v).dec = { s.dec with val := v, valValid := true } := rfl
@[simp] theorem State.withValue_enc (v : Word) : (s.withValue v).enc = s.enc := rfl
@[simp] theorem State.withValue_cfg (v : Word) : (s.withValue v).cfg = s.cfg := rfl
@[simp] theorem State.withValue_agenda (v : Word) : (s.withValue v).agenda = s.agenda := rfl
@[simp] theorem State.withValue_lastRead (v : Word) : (s.withValue v).lastRead = s.lastRead := rfl

/-! ### withReply -/

@[simp] theorem State.withReply_op (b : Bool) : (s.withReply b).op = s.op := rfl
@[simp] theorem State.withReply_err (b : Bool) : (s.withReply b).err = s.err := rfl
@[simp] theorem State.withReply_errsub (b : Bool) : (s.withReply b).errsub = s.errsub := rfl
@[simp] theorem State.withReply_busy (b : Bool) : (s.withReply b).busy = s.busy := rfl
@[simp] theorem State.withReply_done (b : Bool) : (s.withReply b).done = s.done := rfl
@[simp] theorem State.withReply_fault (b : Bool) : (s.withReply b).fault = s.fault := rfl
@[simp] theorem State.withReply_ilen (b : Bool) : (s.withReply b).ilen = s.ilen := rfl
@[simp] theorem State.withReply_cmd (b : Bool) : (s.withReply b).cmd = s.cmd := rfl
@[simp] theorem State.withReply_ibuf (b : Bool) : (s.withReply b).ibuf = s.ibuf := rfl
@[simp] theorem State.withReply_dec (b : Bool) : (s.withReply b).dec = { s.dec with replyExpected := b } := rfl
@[simp] theorem State.withReply_enc (b : Bool) : (s.withReply b).enc = s.enc := rfl
@[simp] theorem State.withReply_cfg (b : Bool) : (s.withReply b).cfg = s.cfg := rfl
@[simp] theorem State.withReply_agenda (b : Bool) : (s.withReply b).agenda = s.agenda := rfl
@[simp] theorem State.withReply_lastRead (b : Bool) : (s.withReply b).lastRead = s.lastRead := rfl

/-! ### withFrame -/

@[simp] theorem State.withFrame_op (fn : FnCode) (bytes : List Byte) : (s.withFrame fn bytes).op = s.op := rfl
@[simp] theorem State.withFrame_err (fn : FnCode) (bytes : List Byte) : (s.withFrame fn bytes).err = s.err := rfl
@[simp] theorem State.withFrame_errsub (fn : FnCode) (bytes : List Byte) : (s.withFrame fn bytes).errsub = s.errsub := rfl
@[simp] theorem State.withFrame_busy (fn : FnCode) (bytes : List Byte) : (s.withFrame fn bytes).busy = s.busy := rfl
@[simp] theorem State.withFrame_done (fn : FnCode) (bytes : List Byte) : (s.withFrame fn bytes).done = s.done := rfl
@[simp] theorem State.withFrame_fault (fn : FnCode) (bytes : List Byte) : (s.withFrame fn bytes).fault = s.fault := rfl
@[simp] theorem State.withFrame_ilen (fn : FnCode) (bytes : List Byte) : (s.withFrame fn bytes).ilen = s.ilen := rfl
@[simp] theorem State.withFrame_cmd (fn : FnCode) (bytes : List Byte) : (s.withFrame fn bytes).cmd = s.cmd := rfl
@[simp] theorem State.withFrame_ibuf (fn : FnCode) (bytes : List Byte) : (s.withFrame fn bytes).ibuf = s.ibuf := rfl
@[simp] theorem State.withFrame_dec (fn : FnCode) (bytes : List Byte) : (s.withFrame fn bytes).dec = s.dec := rfl
@[simp] theorem State.withFrame_enc (fn : FnCode) (bytes : List Byte) : (s.withFrame fn bytes).enc = { olen := BitVec.ofNat 16 bytes.length, replyExpected := fn.replyExpected, obuf := s.enc.obuf.writeBytes 0 bytes } := rfl
@[simp] theorem State.withFrame_cfg (fn : FnCode) (bytes : List Byte) : (s.withFrame fn bytes).cfg = s.cfg := rfl
@[simp] theorem State.withFrame_agenda (fn : FnCode) (bytes : List Byte) : (s.withFrame fn bytes).agenda = s.agenda := rfl
@[simp] theorem State.withFrame_lastRead (fn : FnCode) (bytes : List Byte) : (s.withFrame fn bytes).lastRead = s.lastRead := rfl

/-! ### assertReset -/

@[simp] theorem State.assertReset_op : (s.assertReset).op = 0 := rfl
@[simp] theorem State.assertReset_err : (s.assertReset).err = 0 := rfl
@[simp] theorem State.assertReset_errsub : (s.assertReset).errsub = 0 := rfl
@[simp] theorem State.assertReset_busy : (s.assertReset).busy = false := rfl
@[simp] theorem State.assertReset_done : (s.assertReset).done = false := rfl
@[simp] theorem State.assertReset_fault : (s.assertReset).fault = false := rfl
@[simp] theorem State.assertReset_ilen : (s.assertReset).ilen = 0 := rfl
@[simp] theorem State.assertReset_cmd : (s.assertReset).cmd = CommandInputs.zero := rfl
@[simp] theorem State.assertReset_ibuf : (s.assertReset).ibuf = [] := rfl
@[simp] theorem State.assertReset_dec : (s.assertReset).dec = DecodeGroup.zero := rfl
@[simp] theorem State.assertReset_enc : (s.assertReset).enc = EncodeGroup.zero := rfl
@[simp] theorem State.assertReset_cfg : (s.assertReset).cfg = s.cfg := rfl
@[simp] theorem State.assertReset_agenda : (s.assertReset).agenda = s.agenda := rfl
@[simp] theorem State.assertReset_lastRead : (s.assertReset).lastRead = s.lastRead := rfl

/-! ### extract: every field but the decode group -/

@[simp] theorem State.extract_op : s.extract.op = s.op := rfl
@[simp] theorem State.extract_err : s.extract.err = s.err := rfl
@[simp] theorem State.extract_errsub : s.extract.errsub = s.errsub := rfl
@[simp] theorem State.extract_busy : s.extract.busy = s.busy := rfl
@[simp] theorem State.extract_done : s.extract.done = s.done := rfl
@[simp] theorem State.extract_fault : s.extract.fault = s.fault := rfl
@[simp] theorem State.extract_ilen : s.extract.ilen = s.ilen := rfl
@[simp] theorem State.extract_cmd : s.extract.cmd = s.cmd := rfl
@[simp] theorem State.extract_ibuf : s.extract.ibuf = s.ibuf := rfl
@[simp] theorem State.extract_enc : s.extract.enc = s.enc := rfl
@[simp] theorem State.extract_cfg : s.extract.cfg = s.cfg := rfl
@[simp] theorem State.extract_agenda : s.extract.agenda = s.agenda := rfl
@[simp] theorem State.extract_lastRead : s.extract.lastRead = s.lastRead := rfl
@[simp] theorem State.extract_dec_ver : s.extract.dec.ver = s.ibuf.read 2 := rfl
@[simp] theorem State.extract_dec_fn : s.extract.dec.fn = s.ibuf.read 23 := rfl
@[simp] theorem State.extract_dec_attr : s.extract.dec.attr = s.ibuf.read 24 := rfl
@[simp] theorem State.extract_dec_plen : s.extract.dec.plen = BitVec.ofNat 8 (s.frameLen - minFrame) := rfl
@[simp] theorem State.extract_dec_fieldsValid : s.extract.dec.fieldsValid = true := rfl
@[simp] theorem State.extract_dec_valValid : s.extract.dec.valValid = s.dec.valValid := rfl
@[simp] theorem State.extract_dec_replyExpected : s.extract.dec.replyExpected = s.dec.replyExpected := rfl
@[simp] theorem State.extract_dec_ckCalc : s.extract.dec.ckCalc = s.dec.ckCalc := rfl
@[simp] theorem State.extract_dec_ckRx : s.extract.dec.ckRx = s.dec.ckRx := rfl
@[simp] theorem State.extract_dec_val : s.extract.dec.val = s.dec.val := rfl
@[simp] theorem State.extract_dec_id : s.extract.dec.id = Vector.ofFn fun i => s.ibuf.read (3 + i.val) := rfl
@[simp] theorem State.extract_dec_pw : s.extract.dec.pw = Vector.ofFn fun j => s.ibuf.read (19 + j.val) := rfl

end Sys2Proof.Machine
end

