-- ==== Sys2Proof/Laws/Memory.lean ====
section
/-! SUPPORT. Laws/Memory.lean: the laws of a buffer: read after write, the canonical form, byte strings. -/

namespace Sys2Proof.Machine.Memory

open Sys2Proof.Machine

@[simp] theorem read_nil (i : Nat) : Memory.read [] i = 0 := rfl

/-- A write leaves every other index alone, whatever form the list has. -/
theorem read_write_other (m : Memory) {i j : Nat} (v : Byte) (h : j ≠ i) : (Memory.write m i v).read j = m.read j := by
  induction m with
  | nil =>
    unfold write
    split <;> simp [read, Ne.symm h]
  | cons c rest ih =>
    obtain ⟨k, b⟩ := c
    unfold write
    split_ifs with h1 h2 h3 h4
    · rfl
    · simp [read, Ne.symm h]
    · subst h3; simp [read, Ne.symm h]
    · subst h3; simp [read, Ne.symm h]
    · simp [read, ih]

theorem wf_tail {c : Host.Cell} {rest : Memory} (h : Memory.wf (c :: rest) = true) : Memory.wf rest = true := by
  obtain ⟨k, b⟩ := c
  simp only [wf, Bool.and_eq_true] at h
  exact h.2

theorem wf_head_lt {k : Nat} {b : Byte} {rest : Memory} (h : Memory.wf ((k, b) :: rest) = true) :
    ∀ c ∈ rest, k < c.1 := by
  simp only [wf, Bool.and_eq_true, List.all_eq_true, decide_eq_true_eq] at h
  exact h.1.2

/-- Below its first listed index a buffer reads as unlisted. -/
theorem read_eq_zero_of_lt (m : Memory) (i : Nat) (h : ∀ c ∈ m, i < c.1) : m.read i = 0 := by
  induction m with
  | nil => rfl
  | cons c rest ih =>
    obtain ⟨k, b⟩ := c
    have hk : i < k := h (k, b) (by simp)
    simp only [read, if_neg (Nat.ne_of_gt hk)]
    exact ih fun c hc => h c (by simp [hc])

/-- Reading the written index gives the written byte. -/
theorem read_write_same (m : Memory) (i : Nat) (v : Byte) (hw : m.wf = true) : (Memory.write m i v).read i = v := by
  induction m with
  | nil =>
    unfold write
    split <;> simp_all [read, unlisted]
  | cons c rest ih =>
    obtain ⟨k, b⟩ := c
    have ht := wf_tail hw
    have hl := wf_head_lt hw
    unfold write
    split_ifs with h1 h2 h3 h4
    · rw [h2]
      refine read_eq_zero_of_lt _ _ fun c hc => ?_
      rcases List.mem_cons.1 hc with rfl | hc
      · exact h1
      · exact Nat.lt_trans h1 (hl c hc)
    · simp [read]
    · subst h3
      rw [h4]
      exact read_eq_zero_of_lt _ _ hl
    · simp [read]
    · simp [read, Ne.symm h3, ih ht]

/-- Read after write, at any index. -/
theorem read_write (m : Memory) (i j : Nat) (v : Byte) (hw : m.wf = true) :
    (Memory.write m i v).read j = if j = i then v else m.read j := by
  split_ifs with h
  · rw [h, read_write_same m i v hw]
  · exact read_write_other m v h

theorem mem_write {m : Memory} {i : Nat} {v : Byte} {c : Host.Cell} (h : c ∈ Memory.write m i v) :
    c = (i, v) ∨ c ∈ m := by
  induction m with
  | nil =>
    unfold write at h
    split at h <;> simp_all
  | cons d rest ih =>
    obtain ⟨k, b⟩ := d
    unfold write at h
    split_ifs at h with h1 h2 h3 h4
    · exact .inr h
    · exact List.mem_cons.1 h
    · exact .inr (List.mem_cons_of_mem _ h)
    · rcases List.mem_cons.1 h with h | h
      · exact .inl h
      · exact .inr (List.mem_cons_of_mem _ h)
    · rcases List.mem_cons.1 h with h | h
      · exact .inr (by simp [h])
      · rcases ih h with h | h
        · exact .inl h
        · exact .inr (List.mem_cons_of_mem _ h)

/-- A write keeps the canonical form. -/
theorem wf_write (m : Memory) (i : Nat) (v : Byte) (hw : m.wf = true) : (Memory.write m i v).wf = true := by
  induction m with
  | nil =>
    unfold write
    split <;> simp_all [wf]
  | cons c rest ih =>
    obtain ⟨k, b⟩ := c
    have ht := wf_tail hw
    have hl := wf_head_lt hw
    have hb : b ≠ unlisted := by
      simp only [wf, Bool.and_eq_true, decide_eq_true_eq] at hw
      exact hw.1.1
    unfold write
    split_ifs with h1 h2 h3 h4
    · exact hw
    · simp only [wf, Bool.and_eq_true, List.all_eq_true, decide_eq_true_eq]
      refine ⟨⟨h2, fun c hc => ?_⟩, ⟨hb, hl⟩, ht⟩
      rcases List.mem_cons.1 hc with rfl | hc
      · exact h1
      · exact Nat.lt_trans h1 (hl c hc)
    · exact ht
    · subst h3
      simp only [wf, Bool.and_eq_true, List.all_eq_true, decide_eq_true_eq]
      exact ⟨⟨h4, hl⟩, ht⟩
    · simp only [wf, Bool.and_eq_true, List.all_eq_true, decide_eq_true_eq]
      refine ⟨⟨hb, fun c hc => ?_⟩, ih ht⟩
      rcases mem_write hc with rfl | hc
      · show k < i
        omega
      · exact hl c hc

theorem isBuffer_nil : Memory.isBuffer [] := ⟨rfl, by simp⟩

/-- A write at an index of the buffer keeps a buffer a buffer. -/
theorem isBuffer_write {m : Memory} {i : Nat} (v : Byte) (hm : m.isBuffer) (hi : i < bufBytes) :
    (Memory.write m i v).isBuffer := by
  refine ⟨wf_write m i v hm.1, fun c hc => ?_⟩
  rcases mem_write hc with rfl | hc
  · exact hi
  · exact hm.2 c hc

theorem wf_writeBytes (m : Memory) (i : Nat) (bs : List Byte) (hw : m.wf = true) : (m.writeBytes i bs).wf = true := by
  induction bs generalizing m i with
  | nil => exact hw
  | cons b rest ih => exact ih _ _ (wf_write m i b hw)

theorem isBuffer_writeBytes (m : Memory) (i : Nat) (bs : List Byte) (hm : m.isBuffer) (h : i + bs.length ≤ bufBytes) :
    (m.writeBytes i bs).isBuffer := by
  induction bs generalizing m i with
  | nil => exact hm
  | cons b rest ih =>
    simp only [List.length_cons] at h
    exact ih _ _ (isBuffer_write b hm (by omega)) (by omega)

/-- Writing a byte string leaves the indexes outside it alone, whatever form the list has. -/
theorem read_writeBytes_other (m : Memory) (i : Nat) (bs : List Byte) (j : Nat) (h : j < i ∨ i + bs.length ≤ j) :
    (m.writeBytes i bs).read j = m.read j := by
  induction bs generalizing m i with
  | nil => rfl
  | cons b rest ih =>
    simp only [List.length_cons] at h
    show ((m.write i b).writeBytes (i + 1) rest).read j = _
    rw [ih _ _ (by omega), read_write_other m b (by omega)]

/-- Writing a byte string stores byte `k` of it at index `i + k`. -/
theorem read_writeBytes_at (m : Memory) (i : Nat) (bs : List Byte) (k : Nat) (hw : m.wf = true) (h : k < bs.length) :
    (m.writeBytes i bs).read (i + k) = bs[k] := by
  induction bs generalizing m i k with
  | nil => simp at h
  | cons b rest ih =>
    show ((m.write i b).writeBytes (i + 1) rest).read (i + k) = _
    cases k with
    | zero =>
      rw [read_writeBytes_other _ _ _ _ (by omega)]
      exact read_write_same m i b hw
    | succ k =>
      have := ih (m.write i b) (i + 1) k (wf_write m i b hw) (by simpa using h)
      rw [show i + (k + 1) = i + 1 + k by omega, this]
      rfl

@[simp] theorem length_range (m : Memory) (i n : Nat) : (m.range i n).length = n := by simp [range]

theorem getElem_range (m : Memory) (i n k : Nat) (h : k < (m.range i n).length) : (m.range i n)[k] = m.read (i + k) := by
  simp [range]

/-- A range depends only on the bytes in it. -/
theorem range_congr {m m' : Memory} {i n : Nat} (h : ∀ k < n, m.read (i + k) = m'.read (i + k)) :
    m.range i n = m'.range i n := by
  simp only [range]
  exact List.map_congr_left fun k hk => h k (List.mem_range.1 hk)

/-- Reading back a byte string just written. -/
theorem range_writeBytes (m : Memory) (i : Nat) (bs : List Byte) (hw : m.wf = true) :
    (m.writeBytes i bs).range i bs.length = bs := by
  refine List.ext_getElem (by simp) fun k h1 h2 => ?_
  rw [getElem_range, read_writeBytes_at m i bs k hw h2]

theorem range_succ (m : Memory) (i n : Nat) : m.range i (n + 1) = m.range i n ++ [m.read (i + n)] := by
  simp [range, List.range_succ]

theorem range_append (m : Memory) (i a b : Nat) : m.range i (a + b) = m.range i a ++ m.range (i + a) b := by
  induction b with
  | zero => simp [range]
  | succ b ih => rw [← Nat.add_assoc, range_succ, ih, range_succ, List.append_assoc, Nat.add_assoc]

end Sys2Proof.Machine.Memory
end

