-- ==== Sys2Proof/Laws/Ops.lean ====
section
/-! SUPPORT. Laws/Ops.lean: one lemma for each shared operation, saying once everything it can do. -/

namespace Sys2Proof.Machine

/-! ## The register map -/

/-- An offset is in no row of the map exactly when it is reserved (R74). -/
theorem rowAt_none_iff : ∀ a : Offset, (rowAt a.toNat).isNone = isReserved a := by decide +kernel

/-- An offset's row is writable exactly for `OP` and the writable offsets (R32). -/
theorem rowAt_rw_iff : ∀ a : Offset,
    (match rowAt a.toNat with | none => false | some r => decide (r.access = .rw)) = (decide (a = 0) || isWritable a) := by
  decide +kernel

/-- An offset lies in its row, and the row is one of the map's. -/
theorem rowAt_mem {n : Nat} {r : RegRow} (h : rowAt n = some r) : r ∈ regMap ∧ r.base ≤ n ∧ n < r.base + r.size := by
  have h1 := List.find?_some h
  simp only [Bool.and_eq_true, decide_eq_true_eq] at h1
  exact ⟨List.mem_of_find?_eq_some h, h1⟩

theorem memWrite_busy {s : State} (h : s.busy = true) (a : Offset) (v : Byte) :
    s.memWrite a v = { s with fault := true } := by simp [State.memWrite, h]

/-- A write while `BUSY = 0` is ignored, or is a write of the byte of a writable register or buffer. -/
theorem memWrite_free {s : State} (h : s.busy = false) (a : Offset) (v : Byte) :
    (s.memWrite a v = s ∧ ∀ r, rowAt a.toNat = some r → r.access = .ro) ∨
      ∃ r, rowAt a.toNat = some r ∧ r.access = .rw ∧ s.memWrite a v = s.setRegByte r.reg (a.toNat - r.base) v := by
  unfold State.memWrite
  rw [h]
  simp only [Bool.false_eq_true, if_false]
  cases hr : rowAt a.toNat with
  | none => exact .inl ⟨rfl, by simp⟩
  | some r =>
    cases ha : r.access with
    | ro => exact .inl ⟨by simp [ha], by rintro r' ⟨⟩; exact ha⟩
    | rw => exact .inr ⟨r, rfl, ha, by simp [ha]⟩

/-! ## Byte strings -/

theorem ck_append_sum8 (xs ys : List Byte) : ck .sum8 (xs ++ ys) = ck .sum8 xs + ck .sum8 ys := by
  induction xs with
  | nil => simp [ck]
  | cons x rest ih => simp [ck, ih, BitVec.add_assoc]

theorem ck_append_xor8 (xs ys : List Byte) : ck .xor8 (xs ++ ys) = ck .xor8 xs ^^^ ck .xor8 ys := by
  induction xs with
  | nil => simp [ck]
  | cons x rest ih => simp [ck, ih, BitVec.xor_assoc]

@[simp] theorem length_marshal (v : Word) (d : AttrDesc) : (marshal v d).length = d.w.bytes := by
  unfold marshal
  split <;> simp

theorem width_cases (d : AttrDesc) : d.w.bytes = 1 ∨ d.w.bytes = 2 ∨ d.w.bytes = 4 := by
  cases d.w <;> simp [PayloadWidth.bytes]

@[simp] theorem length_passwordField (c : CommandInputs) (pad : Byte) : (passwordField c pad).length = 4 := rfl

theorem length_payloadField (c : CommandInputs) (d : AttrDesc) :
    (payloadField c d).length = if c.valPresent then d.w.bytes else 0 := by
  unfold payloadField
  split <;> simp

/-- The assembled bytes: 25 of header and the payload (R205). -/
theorem length_assemble (fn : FnCode) (d : AttrDesc) (cfg : Config) (c : CommandInputs) :
    (assemble fn d cfg c).length = 25 + if c.valPresent then d.w.bytes else 0 := by
  simp [assemble, length_payloadField]
  omega

/-- The frame's length: 26 and the payload (R206). -/
theorem length_frameOf (fn : FnCode) (d : AttrDesc) (cfg : Config) (c : CommandInputs) :
    (frameOf fn d cfg c).length = 26 + if c.valPresent then d.w.bytes else 0 := by
  simp [frameOf, length_assemble]
  omega

/-! ## The bodies of the operations -/

/-- Everything the frame check can do (R142). -/
theorem frameCheck_cases (s : State) :
    (frameCheck s = (s, some .tooLong) ∧ 256 < s.ilen.toNat) ∨
    (frameCheck s = (s, some .tooShort) ∧ s.ilen.toNat < 26) ∨
    (frameCheck s = (s, some .badMagic) ∧ 26 ≤ s.ilen.toNat ∧ s.ilen.toNat ≤ 256 ∧ s.magicOk = false) ∨
    (frameCheck s = (s.withChecksums, some .checksumMismatch) ∧ 26 ≤ s.ilen.toNat ∧ s.ilen.toNat ≤ 256 ∧
      s.magicOk = true ∧ s.computedCk ≠ s.receivedCk) ∨
    (frameCheck s = (s.withChecksums, none) ∧ 26 ≤ s.ilen.toNat ∧ s.ilen.toNat ≤ 256 ∧
      s.magicOk = true ∧ s.computedCk = s.receivedCk) := by
  unfold frameCheck State.tooLong bufBytes State.frameLen minFrame
  by_cases h1 : 256 < s.ilen.toNat
  · exact .inl ⟨by simp [h1], h1⟩
  · by_cases h2 : s.ilen.toNat < 26
    · exact .inr (.inl ⟨by simp [h1, h2], h2⟩)
    · cases hm : s.magicOk with
      | false => exact .inr (.inr (.inl ⟨by simp [h1, h2], by omega, by omega, rfl⟩))
      | true =>
        by_cases h3 : s.computedCk = s.receivedCk
        · exact .inr (.inr (.inr (.inr ⟨by simp [h1, h2, h3], by omega, by omega, rfl, h3⟩)))
        · exact .inr (.inr (.inr (.inl ⟨by simp [h1, h2, h3], by omega, by omega, rfl, h3⟩)))

theorem magicOk_iff (s : State) :
    s.magicOk = true ↔ s.ibuf.read 0 = s.cfg.raw.magic0 ∧ s.ibuf.read 1 = s.cfg.raw.magic1 := by
  simp [State.magicOk]

/-- Everything DECODE can do after the function check (R170). -/
theorem parseCommand_cases (fn : FnCode) (s : State) :
    (parseCommand fn s = (s.withReply fn.replyExpected, some .unknownAttribute) ∧ attrOf s.cfg s.dec.attr = none) ∨
    ∃ d, attrOf s.cfg s.dec.attr = some d ∧
      ((parseCommand fn s = (s.withReply fn.replyExpected, some .payloadLengthMismatch) ∧
          payloadLenOk fn (s.ilen.toNat - 26) d.w.bytes = false) ∨
        (parseCommand fn s = (s.withReply fn.replyExpected, none) ∧
          payloadLenOk fn (s.ilen.toNat - 26) d.w.bytes = true ∧ s.ilen.toNat - 26 = 0) ∨
        (parseCommand fn s = (s.withReply fn.replyExpected, some .decodeValueRange) ∧
          payloadLenOk fn (s.ilen.toNat - 26) d.w.bytes = true ∧ s.ilen.toNat - 26 ≠ 0 ∧
          inRange (unmarshal (s.ibuf.range 25 d.w.bytes) d) d = false) ∨
        (parseCommand fn s =
            ((s.withReply fn.replyExpected).withValue (unmarshal (s.ibuf.range 25 d.w.bytes) d), none) ∧
          payloadLenOk fn (s.ilen.toNat - 26) d.w.bytes = true ∧ s.ilen.toNat - 26 ≠ 0 ∧
          inRange (unmarshal (s.ibuf.range 25 d.w.bytes) d) d = true)) := by
  unfold parseCommand State.frameLen minFrame hdrBytes
  cases ha : attrOf s.cfg s.dec.attr with
  | none => exact .inl ⟨by simp [ha], rfl⟩
  | some d =>
    refine .inr ⟨d, rfl, ?_⟩
    cases hl : payloadLenOk fn (s.ilen.toNat - 26) d.w.bytes with
    | false => exact .inl ⟨by simp [ha, hl], rfl⟩
    | true =>
      by_cases hp : s.ilen.toNat - 26 = 0
      · refine .inr (.inl ⟨?_, rfl, hp⟩)
        rw [hp] at hl
        simp [ha, hl, hp]
      · cases hr : inRange (unmarshal (s.ibuf.range 25 d.w.bytes) d) d with
        | false =>
          refine .inr (.inr (.inl ⟨?_, rfl, hp, rfl⟩))
          simp [ha, hl, hp, hr]
        | true =>
          refine .inr (.inr (.inr ⟨?_, rfl, hp, rfl⟩))
          simp [ha, hl, hp, hr]

/-- Everything ENCODE can do after the function check (R200). -/
theorem buildCommand_cases (fn : FnCode) (s : State) :
    (buildCommand fn s = (s, some .unknownAttr) ∧ attrOf s.cfg s.cmd.attr = none) ∨
    ∃ d, attrOf s.cfg s.cmd.attr = some d ∧
      ((buildCommand fn s = (s, some .valueMissing) ∧ fn.needsValue = true ∧ s.cmd.valPresent = false) ∨
        (buildCommand fn s = (s, some .encodeValueRange) ∧ s.cmd.valPresent = true ∧ inRange s.cmd.val d = false) ∨
        (buildCommand fn s = (s.withFrame fn (frameOf fn d s.cfg s.cmd), none) ∧
          (s.cmd.valPresent = true ∧ inRange s.cmd.val d = true ∨
            s.cmd.valPresent = false ∧ fn.needsValue = false))) := by
  unfold buildCommand
  cases ha : attrOf s.cfg s.cmd.attr with
  | none => exact .inl ⟨rfl, rfl⟩
  | some d =>
    refine .inr ⟨d, rfl, ?_⟩
    cases hv : s.cmd.valPresent <;> cases hn : fn.needsValue <;> cases hr : inRange s.cmd.val d <;> simp [hr]

/-- Going on by a function code: one of the five codes, or an unknown one (R103, R109). -/
theorem runFn_cases (place : FnPlace) (b : Byte) (s : State) :
    (∃ fn : FnCode, b = fn.byte ∧ runFn place b s = finish (fnBody fn place s)) ∨
    ((b.toNat = 0 ∨ 5 < b.toNat) ∧ runFn place b s = execFnUnknown place s) := by
  have hb := b.isLt
  unfold runFn
  split
  · exact .inl ⟨.read, BitVec.eq_of_toNat_eq ‹_›, rfl⟩
  · exact .inl ⟨.write, BitVec.eq_of_toNat_eq ‹_›, rfl⟩
  · exact .inl ⟨.readWrite, BitVec.eq_of_toNat_eq ‹_›, rfl⟩
  · exact .inl ⟨.increment, BitVec.eq_of_toNat_eq ‹_›, rfl⟩
  · exact .inl ⟨.decrement, BitVec.eq_of_toNat_eq ‹_›, rfl⟩
  · refine .inr ⟨?_, rfl⟩
    simp only [imp_false] at *
    omega

/-- Everything ENCODE can do (R200). -/
theorem execEncode_cases (s : State) :
    (∃ f, credentialFailure s.cmd = some f ∧ execEncode s = finish (s.eclear, some f)) ∨
    (credentialFailure s.cmd = none ∧ execEncode s = runFn .command s.cmd.fn s.eclear) := by
  unfold execEncode
  cases h : credentialFailure s.cmd with
  | none => exact .inr ⟨rfl, rfl⟩
  | some f => exact .inl ⟨f, rfl, rfl⟩

theorem credentialFailure_cases (c : CommandInputs) :
    (credentialFailure c = some .idLen ∧ c.idLen.toNat ≠ 16) ∨
    (credentialFailure c = some .pwLen ∧ c.idLen.toNat = 16 ∧ 4 < c.pwLen.toNat) ∨
    (credentialFailure c = none ∧ c.idLen.toNat = 16 ∧ c.pwLen.toNat ≤ 4) := by
  unfold credentialFailure idBytes pwBytes
  by_cases h1 : c.idLen.toNat = 16
  · by_cases h2 : 4 < c.pwLen.toNat
    · exact .inr (.inl ⟨by simp [h1, h2], h1, h2⟩)
    · exact .inr (.inr ⟨by simp [h1, h2], h1, by omega⟩)
  · exact .inl ⟨by simp [h1], h1⟩

/-- Every instruction answers a next state, in every state. -/
theorem exec_answers (i : Instr) (s : State) : ∃ t, exec i s = .next t := by
  have hrun : ∀ place b u, ∃ t, runFn place b u = .next t := by
    intro place b u
    rcases runFn_cases place b u with ⟨fn, -, h⟩ | ⟨-, h⟩
    · exact ⟨_, h⟩
    · rw [h]
      cases place <;> exact ⟨_, rfl⟩
  cases i with
  | nop => exact ⟨_, rfl⟩
  | cksum => exact ⟨_, rfl⟩
  | validate => exact ⟨_, rfl⟩
  | decode =>
    show ∃ t, afterFrameCheck _ = _
    unfold afterFrameCheck
    split
    · exact ⟨_, rfl⟩
    · exact hrun _ _ _
  | encode =>
    rcases execEncode_cases s with ⟨f, -, h⟩ | ⟨-, h⟩
    · exact ⟨_, h⟩
    · obtain ⟨t, ht⟩ := hrun .command s.cmd.fn s.eclear
      exact ⟨t, h.trans ht⟩
  | illegal op => exact ⟨_, rfl⟩
  | read place => exact ⟨_, rfl⟩
  | write place => exact ⟨_, rfl⟩
  | readWrite place => exact ⟨_, rfl⟩
  | increment place => exact ⟨_, rfl⟩
  | decrement place => exact ⟨_, rfl⟩
  | fnUnknown place fn => cases place <;> exact ⟨_, rfl⟩
  | wr addr data => exact ⟨_, rfl⟩
  | rd addr => exact ⟨_, rfl⟩

/-- Whatever operation `OP` names, its step is what its pseudocode leaves, completed (R280). -/
theorem exec_decodeOp_finishes (op : Byte) (s : State) : ∃ r, exec (decodeOp op) s = finish r := by
  have hrun : ∀ place b u, ∃ r, runFn place b u = finish r := by
    intro place b u
    rcases runFn_cases place b u with ⟨fn, -, h⟩ | ⟨-, h⟩
    · exact ⟨_, h⟩
    · rw [h]
      cases place <;> exact ⟨_, rfl⟩
  unfold decodeOp
  split
  · exact ⟨_, rfl⟩
  · exact ⟨_, rfl⟩
  · exact ⟨_, rfl⟩
  · show ∃ r, afterFrameCheck _ = _
    unfold afterFrameCheck
    split
    · exact ⟨_, rfl⟩
    · exact hrun _ _ _
  · rcases execEncode_cases s with ⟨f, -, h⟩ | ⟨-, h⟩
    · exact ⟨_, h⟩
    · obtain ⟨r, hr⟩ := hrun .command s.cmd.fn s.eclear
      exact ⟨r, h.trans hr⟩
  · exact ⟨_, rfl⟩

end Sys2Proof.Machine
end

