-- ==== Sys2Proof/Laws/Host.lean ====
section
/-! SUPPORT. Laws/Host.lean: what an event does to the block, what a host's access does, and where its jumps go: one lemma
for each, for the statements over runs and host programs. -/

namespace Sys2Proof.Machine

/-! ## Bus words -/

/-- The bus word of an access decodes to that access (R111). -/
theorem decode_busWord (we : Bool) (a : Offset) (b : Byte) :
    decode .bus (busWord we a b) = .ok (if we then .wr a b else .rd a) := by
  have h1 := a.isLt
  have h2 := b.isLt
  have hbit : (BitVec.ofNat 19 (busWord we a b)).getLsbD 18 = we := by
    rw [BitVec.getLsbD_ofNat]
    cases we <;> simp [busWord, Nat.testBit_eq_decide_div_mod_eq] <;> omega
  have haddr : (BitVec.ofNat 19 (busWord we a b)).extractLsb' 8 10 = a := by
    apply BitVec.eq_of_toNat_eq
    cases we <;> simp [busWord, Nat.shiftRight_eq_div_pow] <;> omega
  have hdata : (BitVec.ofNat 19 (busWord we a b)).extractLsb' 0 8 = b := by
    apply BitVec.eq_of_toNat_eq
    cases we <;> simp [busWord] <;> omega
  have hlt : busWord we a b < 2 ^ 19 := by cases we <;> simp [busWord] <;> omega
  simp only [decode, decodeBus, if_pos hlt, hbit, haddr, hdata]

/-- Within the register space the number of R112's table is the bus word of R111. -/
theorem hostWord_eq_busWord {off : Nat} (h : off < 0x400) (we : Bool) (b : Byte) :
    hostWord we off b = busWord we (BitVec.ofNat 10 off) b := by
  have : off % 1024 = off := Nat.mod_eq_of_lt h
  cases we <;> simp [hostWord, busWord, this]

/-! ## Events -/

/-- A host access as an event. -/
theorem issue_bus (s : State) (we : Bool) (a : Offset) (b : Byte) :
    s.issue (.bus (busWord we a b)) =
      .ok (if we then s.memWrite a b else { s with lastRead := some (s.memRead a) }) := by
  have h : step { s with agenda := .bus (busWord we a b) :: s.agenda } = exec (if we then .wr a b else .rd a) s := by
    show hostTurn (busWord we a b) s = _
    unfold hostTurn
    rw [decode_busWord]
  unfold State.issue
  rw [h]
  cases we <;> rfl

@[simp] theorem issue_reset (s : State) : s.issue .reset = .ok s.assertReset := rfl

/-- The codec's turn while its step is not enabled passes. -/
theorem issue_codec_idle {s : State} (h : s.busy = false) : s.issue .codec = .ok s := by
  have : step { s with agenda := .codec :: s.agenda } = .next s := by
    show codecTurn s = _
    simp [codecTurn, h]
  simp [State.issue, this]

/-- The codec's turn with `BUSY = 1` performs and completes the operation `OP` names (R280). -/
theorem issue_codec_busy {s : State} (h : s.busy = true) :
    ∃ t, s.issue .codec = .ok t ∧ exec (decodeOp s.op) s = .next t ∧ t.busy = false ∧ t.done = true := by
  obtain ⟨r, hr⟩ := exec_decodeOp_finishes s.op s
  have hs : step { s with agenda := .codec :: s.agenda } = finish r := by
    show codecTurn s = _
    rw [codecTurn, if_pos h, hr]
  exact ⟨r.1.complete r.2, by rw [State.issue, hs]; rfl, hr, rfl, rfl⟩

/-- What an event that happens while an operation is pending does: an access leaves it pending, with its operands and
results as they were; the codec completes it; a reset discards it. -/
theorem issue_cases {s t : State} {e : Event} (hb : s.busy = true) (h : s.issue e = .ok t) :
    (∃ w, e = .bus w ∧ (t = { s with fault := true } ∨ ∃ b, t = { s with lastRead := some b })) ∨
    (e = .codec ∧ exec (decodeOp s.op) s = .next t ∧ t.busy = false ∧ t.done = true) ∨
    (e = .reset ∧ t = s.assertReset) := by
  cases e with
  | bus w =>
    refine .inl ⟨w, rfl, ?_⟩
    have hs : step { s with agenda := .bus w :: s.agenda } = hostTurn w s := rfl
    unfold State.issue at h
    rw [hs] at h
    unfold hostTurn at h
    split at h
    · next heq =>
      split at heq
      · next i hd =>
        simp only [decode] at hd
        split at hd
        · cases hd
          unfold decodeBus at heq
          cases h
          split at heq
          · exact .inl (by cases heq; exact memWrite_busy hb _ _)
          · exact .inr ⟨_, by cases heq; rfl⟩
        · cases hd
      · cases heq
    · cases h
    · cases h
  | codec =>
    obtain ⟨t', ht', hrest⟩ := issue_codec_busy hb
    rw [h] at ht'
    cases ht'
    exact .inr (.inl ⟨rfl, hrest⟩)
  | reset =>
    cases h
    exact .inr (.inr ⟨rfl, rfl⟩)

/-! ## Accesses and jumps of a host program -/

/-- Within the register space a host's access is the event of its bus word. -/
theorem access_inside {off : Nat} (h : off < 0x400) (s : State) (we : Bool) (b : Byte) :
    s.access we off b = .ok
      (if we then s.memWrite (BitVec.ofNat 10 off) b else { s with lastRead := some (s.memRead (BitVec.ofNat 10 off)) }) := by
  rw [State.access, if_pos h, hostWord_eq_busWord h, issue_bus]

/-- Outside it there is no such access (R75). -/
theorem access_outside {off : Nat} (h : 0x400 ≤ off) (s : State) (we : Bool) (b : Byte) :
    s.access we off b = .error (.noSuchTransaction off) := by
  rw [State.access, if_neg (by omega)]

/-- A jump to a label whose first line is `n` goes there. -/
theorem jump_eq {h : HostAgent} {l : HostLabel} {n : Nat} (hn : h.prog[n]? = some (.label l))
    (hfirst : ∀ k, k < n → h.prog[k]? ≠ some (.label l)) : h.jump l = .ok { h with line := n } := by
  have : (h.prog.findIdx? fun x => x == .label l) = some n := by
    rw [List.findIdx?_eq_some_iff_getElem]
    obtain ⟨hlt, he⟩ := List.getElem?_eq_some_iff.mp hn
    refine ⟨hlt, by simp [he], fun k hk => ?_⟩
    have := hfirst k hk
    rw [List.getElem?_eq_getElem (by omega)] at this
    simpa using this
  simp [HostAgent.jump, this]

/-- The labels of an expansion's fresh kind are those of the places its items stand at (R113). -/
theorem ofWait_mem_expandFrom {items : List HostItem} {use k : Nat}
    (h : HostLine.label (HostLabel.ofWait k) ∈ expandFrom use items) : use ≤ k ∧ k < use + items.length := by
  induction items generalizing use with
  | nil => cases h
  | cons i rest ih =>
    have hw : ∀ (bs : List Byte) (off : Nat),
        HostLine.label (HostLabel.ofWait k) ∉ (writeLines off bs : List (HostLine HostLabel)) := by
      intro bs
      induction bs with
      | nil => intro off hm; cases hm
      | cons b bs ihb => intro off hm; simp [writeLines] at hm; exact ihb _ hm
    simp only [expandFrom, List.mem_append] at h
    simp only [List.length_cons]
    rcases h with h | h
    · have : k = use := by
        cases i with
        | line l => cases l <;> simp [HostItem.expand, HostLine.rename] at h
        | pseudo p =>
          cases p with
          | wr16 off x => exact absurd h (hw _ _)
          | wr32 off x => exact absurd h (hw _ _)
          | wrs off bs => exact absurd h (hw _ _)
          | start op => simp [HostItem.expand, HostPseudo.expand] at h
          | wait => simpa [HostItem.expand, HostPseudo.expand] using h
          | rds off n t => simp [HostItem.expand, HostPseudo.expand] at h
      omega
    · have := ih h
      omega

theorem expandFrom_append (xs ys : List HostItem) (use : Nat) :
    expandFrom use (xs ++ ys) = expandFrom use xs ++ expandFrom (use + xs.length) ys := by
  induction xs generalizing use with
  | nil => simp [expandFrom]
  | cons x xs ih => simp [expandFrom, ih, List.append_assoc, Nat.add_comm, Nat.add_left_comm]

end Sys2Proof.Machine
end

