-- ==== Sys2Proof/Laws/PerInstr.lean ====
section
/-! SUPPORT. Laws/PerInstr.lean: what is said of every instruction as syntax, one lemma per constructor. -/

/-- `EncodeFits`: the word the encoder writes for a well-formed instruction has the width of its format
(spec/30_encoding.md R100, R103, R111). -/
def Sys2Proof.Laws.EncodeFits.Statement (i : Sys2Proof.Instr) : Prop :=
  i.wf = true → (Sys2Proof.encode i).2 < 2 ^ (Sys2Proof.encode i).1.width

theorem Sys2Proof.Laws.busWord_lt (we : Bool) (a : Sys2Proof.Offset) (b : Sys2Proof.Byte) :
    Sys2Proof.busWord we a b < 2 ^ 19 := by
  have ha := a.isLt
  have hb := b.isLt
  have hw := Bool.toNat_le we
  simp only [Sys2Proof.busWord]
  omega

theorem Sys2Proof.Laws.EncodeFits.nop : Sys2Proof.Laws.EncodeFits.Statement .nop := fun _ => by decide

theorem Sys2Proof.Laws.EncodeFits.cksum : Sys2Proof.Laws.EncodeFits.Statement .cksum := fun _ => by decide

theorem Sys2Proof.Laws.EncodeFits.validate : Sys2Proof.Laws.EncodeFits.Statement .validate := fun _ => by decide

theorem Sys2Proof.Laws.EncodeFits.decode : Sys2Proof.Laws.EncodeFits.Statement .decode := fun _ => by decide

theorem Sys2Proof.Laws.EncodeFits.encode : Sys2Proof.Laws.EncodeFits.Statement .encode := fun _ => by decide

theorem Sys2Proof.Laws.EncodeFits.illegal (op : Sys2Proof.Byte) :
    Sys2Proof.Laws.EncodeFits.Statement (.illegal op) := fun _ => op.isLt

theorem Sys2Proof.Laws.EncodeFits.read (place : Sys2Proof.FnPlace) :
    Sys2Proof.Laws.EncodeFits.Statement (.read place) := fun _ => show 1 < 2 ^ 8 by decide

theorem Sys2Proof.Laws.EncodeFits.write (place : Sys2Proof.FnPlace) :
    Sys2Proof.Laws.EncodeFits.Statement (.write place) := fun _ => show 2 < 2 ^ 8 by decide

theorem Sys2Proof.Laws.EncodeFits.readWrite (place : Sys2Proof.FnPlace) :
    Sys2Proof.Laws.EncodeFits.Statement (.readWrite place) := fun _ => show 3 < 2 ^ 8 by decide

theorem Sys2Proof.Laws.EncodeFits.increment (place : Sys2Proof.FnPlace) :
    Sys2Proof.Laws.EncodeFits.Statement (.increment place) := fun _ => show 4 < 2 ^ 8 by decide

theorem Sys2Proof.Laws.EncodeFits.decrement (place : Sys2Proof.FnPlace) :
    Sys2Proof.Laws.EncodeFits.Statement (.decrement place) := fun _ => show 5 < 2 ^ 8 by decide

theorem Sys2Proof.Laws.EncodeFits.fnUnknown (place : Sys2Proof.FnPlace) (fn : Sys2Proof.Byte) :
    Sys2Proof.Laws.EncodeFits.Statement (.fnUnknown place fn) := fun _ => fn.isLt

theorem Sys2Proof.Laws.EncodeFits.wr (addr : Sys2Proof.Offset) (data : Sys2Proof.Byte) :
    Sys2Proof.Laws.EncodeFits.Statement (.wr addr data) := fun _ => Sys2Proof.Laws.busWord_lt true addr data

theorem Sys2Proof.Laws.EncodeFits.rd (addr : Sys2Proof.Offset) :
    Sys2Proof.Laws.EncodeFits.Statement (.rd addr) := fun _ => Sys2Proof.Laws.busWord_lt false addr 0
end

