-- ==== Sys2Proof/Tests/Slice0.lean ====
section
/-! SUPPORT. Tests/Slice0.lean: the smoke test of well-formedness, words written out from the spec, one-step tests from
the spec's examples and vectors (spec/95_test_vectors.md), and for every statement with hypotheses a state that meets them.
The expected values are the spec's; the configurations are its REFCFG and variants (R272). -/

namespace Sys2Proof.Tests

open Sys2Proof Sys2Proof.Machine

/-! ## Small states -/

/-- One field of the next state of an outcome, `none` when there is no next state. -/
def after {α : Type} (f : State → α) : Host.Outcome State Fault Refusal → Option α
  | .next t => some (f t)
  | .fault _ => none
  | .refused _ => none

theorem next_of_after {α : Type} {f : State → α} {o : Host.Outcome State Fault Refusal} {v : α}
    (h : after f o = some v) : ∃ t, o = .next t ∧ f t = v := by
  cases o with
  | next t => exact ⟨t, rfl, by simpa [after] using h⟩
  | fault r => simp [after] at h
  | refused r => simp [after] at h

/-- The reset state under a configuration. -/
def idle (c : Config) : State := { State.reset with cfg := c }

/-- A pending operation, its code in `OP`. -/
def pending (c : Config) (op : Byte) : State := (idle c).start op

/-- A byte string in `IBUF` and its length in `ILEN`. -/
def withInput (c : Config) (bs : List Byte) : State :=
  { idle c with ibuf := Memory.writeBytes [] 0 bs, ilen := BitVec.ofNat 16 bs.length }

/-- The first 23 bytes of the example frames (R170): magic, version, "1234567890123456", "1234". -/
def header : List Byte :=
  [0xA5, 0x5A, 0x01] ++ [0x31, 0x32, 0x33, 0x34, 0x35, 0x36, 0x37, 0x38] ++
    [0x39, 0x30, 0x31, 0x32, 0x33, 0x34, 0x35, 0x36] ++ [0x31, 0x32, 0x33, 0x34]

/-- A frame in `IBUF` under REFCFG: function code, attribute and the rest, its last byte the checksum as written. -/
def input (rest : List Byte) : State := withInput refCfg (header ++ rest)

/-- The credentials of the example commands (R200), with the rest of the command. -/
def command (fn attr : Byte) (valPresent : Bool) (val : Word) : State :=
  { idle refCfg with cmd :=
    { fn := fn, attr := attr, valPresent := valPresent, idLen := 16, pwLen := 4, val := val,
      id := #v[0x31, 0x32, 0x33, 0x34, 0x35, 0x36, 0x37, 0x38, 0x39, 0x30, 0x31, 0x32, 0x33, 0x34, 0x35, 0x36],
      pw := #v[0x31, 0x32, 0x33, 0x34] } }

/-- The bytes of `OBUF[25..OLEN-1]`. -/
def tail (t : State) : List Byte := t.enc.obuf.range 23 (t.enc.olen.toNat - 23)

/-! ## Well-formedness -/

theorem test_wf_illegal_refuses_a_legal_code : (Instr.illegal 0x04).wf = false := by decide
theorem test_wf_illegal_takes_5 : (Instr.illegal 0x05).wf = true := by decide
theorem test_wf_unknown_refuses_a_known_code : (Instr.fnUnknown .frame 0x05).wf = false := by decide
theorem test_wf_unknown_refuses_read : (Instr.fnUnknown .command 0x01).wf = false := by decide
theorem test_wf_unknown_takes_0_and_6 :
    (Instr.fnUnknown .frame 0x00).wf = true ∧ (Instr.fnUnknown .command 0x06).wf = true := by decide

/-- Each clause of R251 and each of R259..R271 that the tests name refuses a configuration (R9). -/
def refRawWith (i : Nat) (f : AttrDesc → AttrDesc) : RawConfig :=
  { refRaw with attrTable := refTable.modify i fun e => (e.1, f e.2) }

theorem test_cfg_takes_refcfg : refRaw.wf = true := by decide
theorem test_cfg_refuses_max_too_wide : (refRawWith 2 fun d => { d with max := 256 }).wf = false := by decide
theorem test_cfg_refuses_min_above_max : (refRawWith 7 fun d => { d with min := 2, max := 1 }).wf = false := by decide
theorem test_cfg_refuses_negative_min : (refRawWith 7 fun d => { d with min := -1 }).wf = false := by decide
theorem test_cfg_refuses_signed_max :
    (refRawWith 7 fun d => { d with signed := true, max := 32768 }).wf = false := by decide
theorem test_cfg_refuses_wide_bool : (refRawWith 0 fun d => { d with w := .two }).wf = false := by decide
theorem test_cfg_refuses_member_count : (refRawWith 3 fun d => { d with max := 3 }).wf = false := by decide
theorem test_cfg_refuses_missing_name : (refRawWith 12 fun d => { d with name := .other "x" }).wf = false := by decide
theorem test_cfg_refuses_name_twice : (refRawWith 9 fun d => { d with name := .filterTimer }).wf = false := by decide
theorem test_cfg_refuses_unsorted_ids :
    ({ refRaw with attrTable := refTable ++ [(0x01, testSigned)] } : RawConfig).wf = false := by decide
theorem test_cfg_refuses_preset_speed_range : (refRawWith 1 fun d => { d with max := 11 }).wf = false := by decide
theorem test_cfg_refuses_writable_humidity : (refRawWith 6 fun d => { d with ro := false }).wf = false := by decide

/-! ## Words written out from the spec's encodings -/

theorem test_word_nop : decode .op 0b00000000 = .ok .nop := by decide
theorem test_word_cksum : decode .op 0b00000001 = .ok .cksum := by decide
theorem test_word_validate : decode .op 0b00000010 = .ok .validate := by decide
theorem test_word_decode : decode .op 0b00000011 = .ok .decode := by decide
theorem test_word_encode : decode .op 0b00000100 = .ok .encode := by decide
theorem test_word_illegal_low : decode .op 0b00000101 = .ok (.illegal 0x05) := by decide
theorem test_word_illegal_high : decode .op 0b11111111 = .ok (.illegal 0xFF) := by decide
theorem test_word_read : decode (.fn .frame) 0b00000001 = .ok (.read .frame) := by decide
theorem test_word_write : decode (.fn .command) 0b00000010 = .ok (.write .command) := by decide
theorem test_word_read_write : decode (.fn .frame) 0b00000011 = .ok (.readWrite .frame) := by decide
theorem test_word_increment : decode (.fn .command) 0b00000100 = .ok (.increment .command) := by decide
theorem test_word_decrement : decode (.fn .frame) 0b00000101 = .ok (.decrement .frame) := by decide
theorem test_word_unknown_0 : decode (.fn .frame) 0b00000000 = .ok (.fnUnknown .frame 0x00) := by decide
theorem test_word_unknown_high : decode (.fn .command) 0b10000000 = .ok (.fnUnknown .command 0x80) := by decide
/-- `WE` 1, `ADDR` 01_0001_1010, `DATA` 0001_0001 (R111). -/
theorem test_word_wr : decode .bus 0b1_0100011010_00010001 = .ok (.wr 0x11A 0x11) := by decide
/-- `WE` 0, `ADDR` 10_0001_1010, `DATA` ignored (R111). -/
theorem test_word_rd : decode .bus 0b0_1000011010_11111111 = .ok (.rd 0x21A) := by decide
theorem test_word_too_wide : decode .bus 0x80000 = .error .busWordTooWide ∧ decode .op 0x100 = .error .opTooWide ∧
    decode (.fn .frame) 0x100 = .error .fnTooWide := by decide
theorem test_table_word_bus : decodeTableWord 24 0x40004 = some (.wr 0x000 0x04) ∧ decodeTableWord 24 0x80000 = none := by
  decide
theorem test_table_word_op : decodeTableWord 8 0x05 = some (.illegal 0x05) := by decide

/-! ## One step -/

/-- R143: `FF 01` sums to 0x00. -/
theorem test_cksum_sum8 : after (fun t => (t.dec.ckCalc, t.err)) (exec .cksum (withInput refCfg [0xFF, 0x01])) =
    some (0x00, 0x00) := by decide
/-- R143: `FF 01` folds to 0xFE. -/
theorem test_cksum_xor8 : after (fun t => t.dec.ckCalc) (exec .cksum (withInput refCfgXor [0xFF, 0x01])) = some 0xFE := by
  decide
/-- R144. -/
theorem test_validate_passes : after (fun t => (t.err, t.dec.ckCalc, t.dec.ckRx))
    (exec .validate (input [0x03, 0x01, 0x01, 0x11])) = some (0x00, 0x11, 0x11) := by decide
/-- R144: the same bytes under XOR8. -/
theorem test_validate_mismatch : after (fun t => (t.err, t.dec.ckCalc, t.dec.ckRx))
    (exec .validate (withInput refCfgXor (header ++ [0x03, 0x01, 0x01, 0x11]))) = some (0x03, 0xFF, 0x11) := by decide
/-- R170. -/
theorem test_decode_fields : after (fun t => [t.err, t.dec.fn, t.dec.attr, t.dec.plen, t.dec.flags, t.dec.id[15]])
    (exec .decode (input [0x03, 0x01, 0x01, 0x11])) = some [0x00, 0x03, 0x01, 0x01, 0x07, 0x36] := by decide
/-- A big-endian payload, filter timer 300 (R253, R272). -/
theorem test_decode_big_endian : after (fun t => (t.err, t.dec.val)) (exec .decode (input [0x02, 0x09, 0x01, 0x2C, 0x44])) =
    some (0x00, 300) := by decide
/-- R200. -/
theorem test_encode_frame : after (fun t => t.enc.obuf.range 0 t.enc.olen.toNat) (exec .encode (command 0x03 0x01 true 1)) =
    some (header ++ [0x03, 0x01, 0x01, 0x11]) := by decide
/-- R210: a short password is padded; here two `PAD` bytes, so the checksum falls by 0x67. -/
theorem test_encode_short_password :
    let s := command 0x03 0x01 true 1
    after (fun t => t.enc.obuf.range 19 8) (exec .encode { s with cmd := { s.cmd with pwLen := 2 } }) =
      some [0x31, 0x32, 0x00, 0x00, 0x03, 0x01, 0x01, 0xAA] := by decide
/-- R282: after an error `NOP` gives `ERR = 0` and `STATUS = 0x02`. -/
theorem test_nop : after (fun t => (t.err, t.statusByte)) (exec .nop { pending refCfg 0x00 with err := 0x03 }) =
    some (0x00, 0x02) := by decide
/-- R283: `START 0x7F`. -/
theorem test_illegal : after (fun t => (t.err, t.errsub, t.statusByte, t.op)) (step (pending refCfg 0x7F)) =
    some (0x08, 0x00, 0x06, 0x7F) := by decide
/-- R230: READ humidity without a value ends `01 07 14`. -/
theorem test_read_command : after (fun t => (tail t, t.enc.flags)) (exec (.read .command) (command 0x01 0x07 false 0)) =
    some ([0x01, 0x07, 0x14], 0x01) := by decide
/-- R178: `ILEN = 26` is accepted for READ. -/
theorem test_read_frame : after (fun t => (t.err, t.dec.flags))
    (exec (.read .frame) { input [0x01, 0x07, 0x14] with dec := { DecodeGroup.zero with attr := 0x07 } }) =
    some (0x00, 0x04) := by decide
/-- R231: WRITE manual speed 200 carries `C8`, and no reply is expected. -/
theorem test_write_command : after (fun t => ((tail t).take 3, t.enc.olen, t.enc.flags))
    (exec (.write .command) (command 0x02 0x03 true 0xC8)) = some ([0x02, 0x03, 0xC8], 27, 0x00) := by decide
/-- R178: an empty payload does not do for WRITE. -/
theorem test_write_frame_empty : after (fun t => t.err)
    (exec (.write .frame) { input [0x02, 0x03, 0x11] with dec := { DecodeGroup.zero with attr := 0x03 } }) =
    some 0x05 := by decide
/-- R232, R200. -/
theorem test_read_write_command : after (fun t => (tail t, t.enc.flags))
    (exec (.readWrite .command) (command 0x03 0x01 true 1)) = some ([0x03, 0x01, 0x01, 0x11], 0x01) := by decide
/-- R204: READ_WRITE needs a value. -/
theorem test_read_write_command_missing : after (fun t => (t.err, t.errsub))
    (exec (.readWrite .command) (command 0x03 0x01 false 1)) = some (0x01, 0x05) := by decide
/-- R233: INCREMENT preset speed ends `04 02 12`. -/
theorem test_increment_command : after tail (exec (.increment .command) (command 0x04 0x02 false 0)) =
    some [0x04, 0x02, 0x12] := by decide
/-- R234: DECREMENT manual speed ends `05 03 14`. -/
theorem test_decrement_command : after tail (exec (.decrement .command) (command 0x05 0x03 false 0)) =
    some [0x05, 0x03, 0x14] := by decide
/-- R176, R202. -/
theorem test_unknown : after (fun t => (t.err, t.errsub)) (exec (.fnUnknown .frame 0x06) (idle refCfg)) = some (0x06, 0x00) ∧
    after (fun t => (t.err, t.errsub)) (exec (.fnUnknown .command 0x06) (idle refCfg)) = some (0x01, 0x03) := by decide
/-- R73: `E_FLAGS` takes bit 0 only. -/
theorem test_wr_flags : after (fun t => t.memRead 0x00A) (exec (.wr 0x00A 0xFF) (idle refCfg)) = some 0x01 := by decide
/-- R79: a write while busy sets `FAULT` and stores nothing. -/
theorem test_wr_busy : after (fun t => (t.fault, t.cmd.fn)) (exec (.wr 0x008 0x05) (pending refCfg 0x00)) =
    some (true, 0x00) := by decide
/-- R72: `STATUS` while busy. -/
theorem test_rd_status : after (fun t => t.lastRead) (exec (.rd 0x001) (pending refCfg 0x03)) = some (some 0x01) := by decide
/-! ## Witnesses: for each statement with hypotheses, states and operands that meet them -/

theorem witness_DecodeOfEncodeIsTheInstruction :
    [Instr.illegal 0x05, .illegal 0xFF, .fnUnknown .frame 0x00, .fnUnknown .command 0x06, .fnUnknown .frame 0xFF, .wr 0x3FF 0xFF,
      .wr 0x000 0x00, .rd 0x3FF].all Instr.wf = true := by decide

theorem witness_EncodeOfDecodeIsTheWord :
    decode .op 0xFF = .ok (.illegal 0xFF) ∧ decode (.fn .command) 0x05 = .ok (.decrement .command) ∧
    decode .bus 0x7FFFF = .ok (.wr 0x3FF 0xFF) ∧ decode .bus 0x3FFFF = .ok (.rd 0x3FF) := by decide

theorem witness_StepRunsTheDecodedInstruction :
    decode .bus 0x7FFFF = .ok (.wr 0x3FF 0xFF) ∧
    ({ idle refCfg with agenda := [.bus 0x7FFFF] } : State).agenda = .bus 0x7FFFF :: [] ∧
    2 ^ 19 ≤ 0x80000 ∧ ({ idle refCfg with agenda := [.bus 0x80000] } : State).agenda = .bus 0x80000 :: [] ∧
    (let s := { pending refCfg 0x03 with agenda := [.codec] }; s.agenda = .codec :: [] ∧ s.busy = true) ∧
    (let s := { idle refCfg with agenda := [.codec] }; s.agenda = .codec :: [] ∧ s.busy = false) ∧
    ((pending refCfg 0x03).agenda = [] ∧ (pending refCfg 0x03).busy = true) ∧
    ((idle refCfg).agenda = [] ∧ (idle refCfg).busy = false) := by decide

theorem witness_DispatchOnTheOperationCode :
    (pending refCfg 0x05).busy = true ∧ (pending refCfg 0x05).agenda = [] ∧ 0x05 ≤ (pending refCfg 0x05).op.toNat ∧
    (pending refCfg 0x04).busy = true ∧ (pending refCfg 0x04).agenda = [] ∧ (pending refCfg 0x04).op = 0x04 := by decide

theorem witness_PlacedWordRunsNext :
    decodeTableWord 8 0xFF = some (.illegal 0xFF) ∧ decodeTableWord 24 0x7FFFF = some (.wr 0x3FF 0xFF) := by decide

theorem witness_ResetClearsTheBlock :
    ({ pending refCfg 0x03 with fault := true, ilen := 27, agenda := [.reset, .codec] } : State).agenda =
      .reset :: [.codec] := by decide

/-- Every offset is `OP`, or reserved, or read-only, or writable, and only one of them. -/
theorem witness_offset_classes :
    ∀ m n : Fin 32, let a : Offset := BitVec.ofNat 10 (32 * m.val + n.val)
      [decide (a = 0), isReserved a, isReadOnly a, isWritable a].count true = 1 := by decide

theorem witness_ReadReturnsTheMappedByte :
    (0x005 : Offset).toNat = 0x004 + 1 ∧ (0x007 : Offset).toNat = 0x006 + 1 ∧ (0x013 : Offset).toNat = 0x010 + 3 ∧
    (0x023 : Offset).toNat = 0x014 + (15 : Fin 16).val ∧ (0x027 : Offset).toNat = 0x024 + (3 : Fin 4).val ∧
    (0x04B : Offset).toNat = 0x048 + 3 ∧ (0x05B : Offset).toNat = 0x04C + (15 : Fin 16).val ∧
    (0x05F : Offset).toNat = 0x05C + (3 : Fin 4).val ∧ (0x1FF : Offset).toNat = 0x100 + 255 ∧
    (0x2FF : Offset).toNat = 0x200 + 255 ∧ isReserved 0x300 = true ∧ isReserved 0x047 = true := by decide

theorem witness_ReservedAndReadOnlyIgnoreWrites :
    (idle refCfg).busy = false ∧ [0x00E, 0x00F, 0x028, 0x03F, 0x047, 0x060, 0x0FF, 0x300, 0x3FF].all isReserved = true ∧
    [0x001, 0x003, 0x006, 0x00D, 0x040, 0x046, 0x048, 0x05F, 0x200, 0x2FF].all isReadOnly = true := by decide

theorem witness_WriteToOpStartsTheOperation : (idle refCfg).busy = false := by decide

theorem witness_WriteWhileBusyFaults :
    (pending refCfg 0x03).busy = true ∧
    (let s : State := { pending refCfg 0x03 with fault := true }
     s.fault = true ∧ (∃ t, step s = .next t ∧ t.err = 0x02) ∧ ∀ rest, s.agenda ≠ .reset :: rest) :=
  ⟨by decide, by decide, next_of_after (by decide), fun _ h => by simp [pending, idle, State.start, State.reset] at h⟩

theorem witness_WriteStoresTheAddressedByteOnly :
    (idle refCfg).ibuf.wf = true ∧ (idle refCfg).busy = false ∧
    [0x004, 0x005, 0x008, 0x00A, 0x00C, 0x010, 0x013, 0x014, 0x023, 0x024, 0x027, 0x100, 0x1FF].all isWritable = true := by
  decide

theorem witness_AccessesAreIdempotent :
    (input [0x01, 0x07, 0x14]).ibuf.wf = true ∧ (input [0x01, 0x07, 0x14]).busy = false ∧ (0x100 : Offset) ≠ 0x000 ∧
    (∃ t, exec (.wr 0x100 0x00) (input [0x01, 0x07, 0x14]) = .next t ∧ t.ilen = 26) ∧
    (∃ t, exec (.rd 0x100) (input [0x01, 0x07, 0x14]) = .next t ∧ t.lastRead = some 0xA5) :=
  ⟨by decide, by decide, by decide, next_of_after (by decide), next_of_after (by decide)⟩

theorem witness_MultiByteRegistersAreLittleEndian : (idle refCfg).busy = false := by decide

theorem witness_AccessWhileBusyShowsTheOldResults :
    let s := { pending refCfg 0x03 with agenda := [.bus 0x7FFFF] }
    s.busy = true ∧ s.agenda = .bus 0x7FFFF :: [] ∧ 0x7FFFF < 2 ^ 19 := by decide

theorem witness_ChecksumCollisions : [(0x01 : Byte), 0x02].Perm [0x02, 0x01] := List.Perm.swap _ _ _

/-- A known and an unknown function code. -/
theorem witness_DecodeGoesOnByTheFunctionCode :
    frameAccepted (input [0x03, 0x01, 0x01, 0x11]) ∧ frameAccepted (input [0x06, 0x01, 0x13]) := by
  unfold frameAccepted; decide

theorem witness_OneFlippedBitIsRejected :
    let s := input [0x03, 0x01, 0x01, 0x11]
    s.ibuf.wf = true ∧ frameAccepted s ∧ 0 < s.ilen.toNat ∧ 26 < s.ilen.toNat ∧
    Instr.decode ∈ [Instr.validate, Instr.decode] := by
  unfold frameAccepted; decide

theorem witness_WholeFrameChecksum :
    (let s := input [0x03, 0x01, 0x01, 0x11]; frameAccepted s ∧ s.cfg.raw.ckAlg = .sum8) ∧
    (let s := withInput refCfgXor (header ++ [0x03, 0x01, 0x01, 0xFF]); frameAccepted s ∧ s.cfg.raw.ckAlg = .xor8) := by
  unfold frameAccepted; decide

theorem witness_CksumResult : (256 : Half).toNat ≤ 256 ∧ 256 < (257 : Half).toNat ∧
    ({ idle refCfg with ilen := 256 } : State).ilen = 256 := by decide

/-- A state for each clause: too long, too short, bad magic, wrong checksum, accepted. -/
theorem witness_ValidateResult :
    256 < ({ idle refCfg with ilen := 257 } : State).ilen.toNat ∧ ({ idle refCfg with ilen := 25 } : State).ilen.toNat < 26 ∧
    (let s : State := { idle refCfg with ilen := 26 }
     26 ≤ s.ilen.toNat ∧ s.ilen.toNat ≤ 256 ∧ ¬(s.ibuf.read 0 = s.cfg.raw.magic0 ∧ s.ibuf.read 1 = s.cfg.raw.magic1)) ∧
    (let s := input [0x03, 0x01, 0x01, 0x12]
     26 ≤ s.ilen.toNat ∧ s.ilen.toNat ≤ 256 ∧ (s.ibuf.read 0 = s.cfg.raw.magic0 ∧ s.ibuf.read 1 = s.cfg.raw.magic1) ∧
       ck s.cfg.raw.ckAlg (s.ibuf.range 0 (s.ilen.toNat - 1)) ≠ s.ibuf.read (s.ilen.toNat - 1)) := by decide

theorem witness_DecodeRejectsWhatValidateRejects :
    ∃ t, exec .validate (input [0x03, 0x01, 0x01, 0x12]) = .next t ∧ t.err = 0x03 := next_of_after (by decide)

/-- A frame for each outcome of DECODE, with the boundary codes 0 and 6, and lengths 26 and 27. -/
theorem witness_DecodeGroupAfterEachOutcome :
    (∃ t, exec .decode (idle refCfg) = .next t ∧ t.err = 0x02) ∧
    (∃ t, exec .decode (input [0x03, 0x01, 0x01, 0x12]) = .next t ∧ t.err = 0x03) ∧
    (∃ t, exec .decode (input [0x00, 0x01, 0x0D]) = .next t ∧ t.err = 0x06) ∧
    (∃ t, exec .decode (input [0x06, 0x01, 0x13]) = .next t ∧ t.err = 0x06) ∧
    (∃ t, exec .decode (input [0x01, 0xFF, 0x0C]) = .next t ∧ t.err = 0x04) ∧
    (∃ t, exec .decode (input [0x02, 0x03, 0x11]) = .next t ∧ t.err = 0x05) ∧
    (∃ t, exec .decode (input [0x02, 0x02, 0x0B, 0x1B]) = .next t ∧ t.err = 0x07) ∧
    (∃ t, exec .decode (input [0x01, 0x07, 0x14]) = .next t ∧ t.err = 0x00) ∧
    (∃ t, exec .decode (input [0x03, 0x01, 0x01, 0x11]) = .next t ∧ t.err = 0x00) :=
  ⟨next_of_after (by decide), next_of_after (by decide), next_of_after (by decide), next_of_after (by decide),
   next_of_after (by decide), next_of_after (by decide), next_of_after (by decide), next_of_after (by decide),
   next_of_after (by decide)⟩

/-- The power attribute of REFCFG. -/
def power : AttrDesc := { AttrDesc.plain .power .one 1 with kind := .bool }

theorem witness_DecodeOfAGoodFrame :
    let s := input [0x03, 0x01, 0x01, 0x11]
    frameAccepted s ∧ (s.ibuf.read 23).toNat ∈ [1, 2, 3, 4, 5] ∧ attrOf s.cfg (s.ibuf.read 24) = some power ∧
    s.ilen.toNat = 26 + power.w.bytes ∧ inRange (unmarshal (s.ibuf.range 25 power.w.bytes) power) power = true := by
  unfold frameAccepted; decide

theorem witness_DecodeReadsOnlyTheFrame :
    let s := input [0x03, 0x01, 0x01, 0x11]
    let t : State := { s with ibuf := s.ibuf.write 27 0x55, op := 0x01, err := 0x07 }
    s.ilen = t.ilen ∧ s.cfg = t.cfg ∧ ∀ i < s.ilen.toNat, s.ibuf.read i = t.ibuf.read i := by decide

theorem witness_FunctionCodeParsesItsFrame :
    let s := input [0x01, 0x01, 0x0E]
    let t := input [0x03, 0x01, 0x01, 0x11]
    let dec := { DecodeGroup.zero with attr := 0x01 }
    attrOf { s with dec := dec }.cfg dec.attr = some power ∧ s.ilen.toNat = 26 ∧
    FnCode.read ∈ [FnCode.read, .increment, .decrement] ∧ t.ilen.toNat = 26 + power.w.bytes ∧
    inRange (unmarshal (t.ibuf.range 25 power.w.bytes) power) power = true := by decide

/-- A frame in `IBUF` whose attribute has been extracted. -/
def extracted (attr : Byte) (rest : List Byte) : State := { input rest with dec := { DecodeGroup.zero with attr := attr } }

/-- For each clause: an unknown attribute, a length a WRITE and a READ do not take, a value out of range. -/
theorem witness_FunctionCodeRejectsItsFrame :
    (let s := extracted 0xFF [0x01, 0xFF, 0x0C]; 26 ≤ s.ilen.toNat ∧ attrOf s.cfg s.dec.attr = none) ∧
    (let s := extracted 0x01 [0x02, 0x01, 0x0F]
     26 ≤ s.ilen.toNat ∧ attrOf s.cfg s.dec.attr = some power ∧ s.ilen.toNat ≠ 26 + power.w.bytes) ∧
    (let s := extracted 0x01 [0x01, 0x01, 0x00, 0x00, 0x0E]
     26 ≤ s.ilen.toNat ∧ attrOf s.cfg s.dec.attr = some power ∧ s.ilen.toNat ≠ 26 ∧
       s.ilen.toNat ≠ 26 + power.w.bytes) ∧
    (let s := extracted 0x01 [0x01, 0x01, 0x02, 0x10]
     26 ≤ s.ilen.toNat ∧ attrOf s.cfg s.dec.attr = some power ∧ s.ilen.toNat = 26 + power.w.bytes ∧
       inRange (unmarshal (s.ibuf.range 25 power.w.bytes) power) power = false) := by decide

theorem witness_FunctionCodeBuildsItsFrame :
    let s := command 0x03 0x01 true 1
    let t := command 0x01 0x01 false 7
    s.enc.obuf.wf = true ∧ attrOf s.cfg s.cmd.attr = some power ∧ s.cmd.valPresent = true ∧
    inRange s.cmd.val power = true ∧ t.enc.obuf.wf = true ∧ attrOf t.cfg t.cmd.attr = some power ∧ t.cmd.valPresent = false ∧
    FnCode.read ∈ [FnCode.read, .increment, .decrement] := by decide

theorem witness_FunctionCodeRejectsItsCommand :
    attrOf refCfg (command 0x03 0x00 true 1).cmd.attr = none ∧
    (let s := command 0x03 0x01 false 1; attrOf s.cfg s.cmd.attr = some power ∧ s.cmd.valPresent = false) ∧
    (let s := command 0x03 0x01 true 2
     attrOf s.cfg s.cmd.attr = some power ∧ s.cmd.valPresent = true ∧ inRange s.cmd.val power = false) := by decide

/-- A frame for each error after the function check is in `witness_DecodeGroupAfterEachOutcome`. -/
theorem witness_ReplyExpectedButForWrite :
    (∃ t, exec .encode (command 0x02 0x03 true 0xC8) = .next t ∧ t.err = 0x00) ∧
    (∃ t, exec .encode (command 0x01 0x07 false 0) = .next t ∧ t.err = 0x00) ∧
    (∃ t, exec .decode (input [0x02, 0x03, 0x11]) = .next t ∧ t.err = 0x05) ∧
    ((input [0x06, 0x01, 0x13]).ibuf.read 23).toNat ∉ [1, 2, 3, 4, 5] ∧
    (command 0x00 0x07 false 0).cmd.fn.toNat ∉ [1, 2, 3, 4, 5] :=
  ⟨next_of_after (by decide), next_of_after (by decide), next_of_after (by decide), by decide, by decide⟩

/-- An ENCODE that fails, one without and one with a value; for `EncodeOutput`, `EncodedFrameLayout`. -/
theorem witness_EncodeOutput :
    (∃ t, exec .encode (command 0x03 0x01 true 2) = .next t ∧ t.err = 0x01) ∧
    (∃ t, exec .encode (command 0x01 0x07 false 0) = .next t ∧ (t.err, t.enc.olen) = (0x00, 26)) ∧
    (∃ t, exec .encode (command 0x03 0x0C true 1) = .next t ∧ (t.err, t.enc.olen) = (0x00, 30)) :=
  ⟨next_of_after (by decide), next_of_after (by decide), next_of_after (by decide)⟩

theorem witness_EncodedFrameLayout :
    (∃ t, exec .encode (command 0x03 0x01 true 1) = .next t ∧ t.err = 0x00) ∧ attrOf refCfg 0x01 = some power ∧
    (command 0x03 0x01 true 1).cmd.valPresent = true :=
  ⟨next_of_after (by decide), by decide, by decide⟩

theorem witness_EncodeOfAGoodCommand :
    let s := command 0x03 0x01 true 1
    s.cmd.idLen = 16 ∧ s.cmd.pwLen.toNat ≤ 4 ∧ s.cmd.fn = FnCode.readWrite.byte ∧ attrOf s.cfg s.cmd.attr = some power ∧
    s.cmd.valPresent = true ∧ inRange s.cmd.val power = true ∧
    (let t := command 0x05 0x01 false 9
     t.cmd.idLen = 16 ∧ t.cmd.pwLen.toNat ≤ 4 ∧ t.cmd.fn = FnCode.decrement.byte ∧ attrOf t.cfg t.cmd.attr = some power ∧
     t.cmd.valPresent = false ∧ FnCode.decrement ∈ [FnCode.read, .increment, .decrement]) := by decide

theorem witness_EncodeReadsOnlyItsOperands :
    let s := command 0x01 0x07 false 0
    let a : State := { s with cmd := { s.cmd with pwLen := 3 } }
    let b : State := { a with cmd := { a.cmd with pw := #v[0x31, 0x32, 0x33, 0x99], val := 5 }, ilen := 9 }
    a.cfg = b.cfg ∧ a.cmd.fn = b.cmd.fn ∧ a.cmd.attr = b.cmd.attr ∧ a.cmd.valPresent = b.cmd.valPresent ∧
    a.cmd.idLen = b.cmd.idLen ∧ a.cmd.pwLen = b.cmd.pwLen ∧ a.cmd.id = b.cmd.id ∧
    (∀ j : Fin 4, j.val < a.cmd.pwLen.toNat → a.cmd.pw[j] = b.cmd.pw[j]) ∧
    (a.cmd.valPresent = true → a.cmd.val = b.cmd.val) := by decide

/-- The ENCODE of R200 and the copy of its output. -/
theorem witness_DecodeOfEncodeGivesTheCommand :
    ∃ t, exec .encode (command 0x03 0x01 true 1) = .next t ∧
      (fun t : State => (t.err, t.enc.olen,
        (List.range 27).all fun i => (input [0x03, 0x01, 0x01, 0x11]).ibuf.read i == t.enc.obuf.read i)) t =
      (0x00, (input [0x03, 0x01, 0x01, 0x11]).ilen, true) := next_of_after (by decide)

/-- The signed attribute at its two ends, a boolean at its two ends. -/
theorem witness_UnmarshalOfMarshalIsTheValue :
    testSigned.wf = true ∧ inRange (BitVec.ofInt 32 (-300)) testSigned = true ∧ inRange 300 testSigned = true ∧
    power.wf = true ∧ inRange 0 power = true ∧ inRange 1 power = true := by decide

theorem witness_ConversionsInBothByteOrders :
    [(0x80 : Byte), 0xFF].length = testSigned.w.bytes ∧ testSigned.signed = true ∧ [(0xFF : Byte)].length = power.w.bytes ∧
    power.signed = false ∧ leNat [0x80, 0xFF] ≥ 2 ^ (8 * testSigned.w.bytes - 1) ∧
    leNat [0xFF, 0x7F] < 2 ^ (8 * testSigned.w.bytes - 1) := by decide

theorem witness_EachNamedAttributeHasOneId : AttrName.deviceType ∈ AttrName.thirteen ∧ AttrName.power ∈ AttrName.thirteen := by
  decide

theorem witness_NamedAttributesTakeTheirValues :
    (attrOf refCfg 0x01).map (fun d => (d.name, d.kind)) = some (AttrName.power, AttrKind.bool) ∧
    (attrOf refCfg 0x02).map (fun d => d.name) = some AttrName.presetSpeed ∧
    (attrOf refCfg 0x03).map (fun d => d.name) = some AttrName.manualSpeed ∧
    (attrOf refCfg 0x07).map (fun d => d.name) = some AttrName.humidity ∧
    (attrOf refCfg 0x04).map (fun d => d.kind) = some AttrKind.enum := by decide

/-- Read-only marks and names as they are not in REFCFG. -/
def marked (e : Byte × AttrDesc) : Byte × AttrDesc :=
  (e.1, if e.1 = 0x09 then { e.2 with ro := true } else e.2)

/-- REFCFG with the filter timer marked read-only, which no rule excludes. -/
def markedCfg : Config := { raw := { refRaw with attrTable := refTable.map marked }, ok := by decide }

theorem witness_ReadOnlyMarkIsNotUsed : sameCodec (idle refCfg).cfg markedCfg ∧ markedCfg ≠ refCfg ∧
    Instr.encode ∈ [Instr.decode, Instr.encode] := by
  refine ⟨⟨rfl, rfl, rfl, rfl, rfl, fun a => ?_⟩, by decide, by decide⟩
  have h : attrOf markedCfg a = (refTable.find? fun e => e.1 == a).map fun e => (marked e).2 := by
    simp only [attrOf, markedCfg, List.find?_map, Option.map_map]
    rfl
  have h0 : attrOf (idle refCfg).cfg a = (refTable.find? fun e => e.1 == a).map fun e => e.2 := rfl
  rw [h, h0]
  cases refTable.find? fun e => e.1 == a with
  | none => trivial
  | some e =>
    simp only [Option.map_some, marked, sameWire]
    split <;> simp

theorem witness_IllegalCodeReportsIllegalOp :
    5 ≤ (0x05 : Byte).toNat ∧ 5 ≤ (0xFF : Byte).toNat ∧ (pending refCfg 0x05).busy = true ∧ (pending refCfg 0x05).op = 0x05 ∧
    (pending refCfg 0x05).agenda = [] := by decide

theorem witness_OperationsWriteOnlyTheirGroup :
    [Instr.nop, .cksum, .validate, .decode, .encode, .illegal 0x05].all isOperation = true := by decide

theorem witness_FunctionCodesWriteOnlyTheirResults :
    (∃ t, exec (FnCode.write.instr .command) (command 0x02 0x03 false 0) = .next t ∧ t.err = 0x01) ∧
    (∃ t, exec (FnCode.write.instr .command) (command 0x02 0x03 true 0) = .next t ∧ t.err = 0x00) :=
  ⟨next_of_after (by decide), next_of_after (by decide)⟩

/-- A pending DECODE of the frame of R170, in a state whose output buffer holds that frame. -/
def busyState : State :=
  { input [0x03, 0x01, 0x01, 0x11] with
    op := 0x03, busy := true
    enc := { olen := 27, replyExpected := true, obuf := Memory.writeBytes [] 0 (header ++ [0x03, 0x01, 0x01, 0x11]) } }

theorem buffer_ends (i : Nat) (h : 27 ≤ i) : busyState.enc.obuf.read i = 0 := by
  have hk : ∀ c ∈ busyState.enc.obuf, c.1 < 27 := by decide
  revert hk
  generalize busyState.enc.obuf = m
  intro hk
  induction m with
  | nil => rfl
  | cons c rest ih =>
    have := hk c (by simp)
    simp only [Memory.read]
    rw [if_neg (by omega)]
    exact ih fun d hd => hk d (by simp [hd])

theorem witness_StepKeepsTheStateGood : busyState.Inv ∧ ∃ t, step busyState = .next t ∧ t.dec.val = 1 := by
  refine ⟨?_, next_of_after (by decide)⟩
  exact
    { ibufForm := by unfold Memory.isBuffer; decide
      obufForm := by unfold Memory.isBuffer; decide
      statusExclusive := by decide
      errorListed := by decide
      errorNeedsDone := by decide
      olenValues := by decide
      outputTail := buffer_ends
      replyNeedsFrame := by decide
      fieldsZero := by decide
      fieldsChecked := by decide
      replyCodes := by decide
      valueZero := by decide
      valueChecked := fun h => absurd h (by decide) }

theorem witness_StepKeepsTheOutputFrameValid :
    busyState.OutputFrameOk ∧ busyState.enc.olen = 27 ∧ ∃ t, step busyState = .next t ∧ t.err = 0x00 := by
  refine ⟨?_, by decide, next_of_after (by decide)⟩
  unfold State.OutputFrameOk
  decide

/-- For each clause a step that changes the part: a start, an ENCODE, a DECODE, a write of an input, a fault, a reset, an
illegal operation; `ERR`, `ERRSUB` and `DONE` cleared by a start, `BUSY` by the codec and by a reset, `DONE` by a reset. -/
theorem witness_OnlyTheNamedStepsChangeAPart :
    after (fun t => t.op) (step { idle refCfg with agenda := [.bus 0x40004] }) = some 0x04 ∧
    after (fun t => t.enc.olen) (step { command 0x03 0x01 true 1 with op := 0x04, busy := true }) = some 27 ∧
    after (fun t => t.dec.val) (step busyState) = some 1 ∧
    after (fun t => t.ilen) (step { idle refCfg with agenda := [.bus 0x4041A] }) = some 26 ∧
    after (fun t => t.cmd.fn) (step { idle refCfg with agenda := [.bus 0x40803] }) = some 3 ∧
    after (fun t => t.ibuf) (step { idle refCfg with agenda := [.bus 0x51A11] }) = some [(26, 0x11)] ∧
    after (fun t => t.fault) (step { busyState with agenda := [.bus 0x40004] }) = some true ∧
    after (fun t => t.fault) (step { busyState with fault := true, agenda := [.reset] }) = some false ∧
    after (fun t => (t.err, t.busy, t.done)) (step { idle refCfg with op := 0x05, busy := true }) = some (0x08, false, true) ∧
    after (fun t => t.errsub) (step { idle refCfg with op := 0x04, busy := true, agenda := [.codec] }) = some 0x01 ∧
    after (fun t => (t.err, t.errsub, t.busy, t.done))
      (step { idle refCfg with err := 0x01, errsub := 0x01, done := true, agenda := [.bus 0x40000] }) =
        some (0x00, 0x00, true, false) ∧
    after (fun t => t.busy) (step { busyState with agenda := [.reset] }) = some false ∧
    after (fun t => (t.err, t.errsub, t.done))
      (step { idle refCfg with err := 0x01, errsub := 0x01, done := true, agenda := [.reset] }) =
        some (0x00, 0x00, false) := by decide

theorem witness_PendingOperationIsPerformed :
    let s : State := { busyState with agenda := [.bus 0x00100, .bus 0x40004, .codec, .bus 0x7FFFF] }
    s.busy = true ∧ s.agenda.all Event.isPlain = true := by decide

/-- A program with a named label and two uses of `WAIT`. -/
def waitingItems : List HostItem := [.line (.label "L"), .pseudo .wait, .pseudo .wait, .line (.goto "L")]

/-- A host at the `RD STATUS -> t` of the first `WAIT`. -/
def waitingHost : HostAgent := { prog := expandProgram waitingItems, line := 2, vars := [] }

/-- A host with one line, `x` set to 0x2A. -/
def hostAt (l : HostLine HostLabel) : HostAgent := { prog := [l], line := 0, vars := [({ name := "x", elem := none }, 0x2A)] }

/-- R112, R75: `WR OBUF+200, 03` has the number 0x80003 and is refused, not taken for the start of DECODE. -/
theorem test_access_outside_the_space :
    HostLine.busWord? (hostAt .reset) (.wr (Reg.offset .OBUF 0x200) 0x03) = some 0x80003 ∧
    ((hostAt (.wr (Reg.offset .OBUF 0x200) 0x03)).turn (idle refCfg)).toBool = false := by decide

/-- R113, R75: the second byte of `WRS 3FF, 00 03` is at 0x400. -/
theorem test_string_past_the_space :
    HostPseudo.expand 0 (.wrs 0x3FF [0x00, 0x03]) = [.wr 0x3FF 0x00, .wr 0x400 0x03] := by decide

/-- Clause by clause: the last offset of the register space, a variable that is set, and the first offset outside the space
for each of the three line forms; of these only the write of a variable needs it set. -/
theorem witness_HostLinesAreBusWords :
    let x : HostVar := { name := "x", elem := none }
    (0x3FF : Nat) < 0x400 ∧ (hostAt .reset).get x = some 0x2A ∧
    (hostAt (.wr 0x400 0x03)).prog[(hostAt (.wr 0x400 0x03)).line]? = some (.wr 0x400 0x03) ∧
    (let h : HostAgent := { hostAt (.rd 0x400 x) with vars := [] }; h.prog[h.line]? = some (.rd 0x400 x)) ∧
    (let h := hostAt (.wrVar 0x400 x); h.prog[h.line]? = some (.wrVar 0x400 x) ∧ h.get x = some 0x2A) := by decide

theorem witness_WaitSeesBusy :
    waitingHost.prog[waitingHost.line]? = some (.rd (Reg.offset .STATUS 0) { name := "t", elem := none }) := by decide

/-- The second `WAIT` of the program: its label is line 4, and the `GOTO L` before the end does not go there. -/
theorem witness_WaitGoesBackToItsOwnRead :
    waitingHost.prog = expandProgram ([.line (.label "L"), .pseudo .wait] ++ .pseudo .wait :: [.line (.goto "L")]) ∧
    (expandProgram [.line (.label "L"), .pseudo .wait]).length = 4 := by decide

/-- A run in which a NOP is pending, and performed at the codec's first turn; from then on its turns pass. -/
def nopRun (n : Nat) : State := if n = 0 then { idle refCfg with busy := true } else { idle refCfg with done := true }

theorem witness_FairRunsPerformThePendingOperation :
    (nopRun 0).busy = true ∧
    IsRun (fun _ => .codec) nopRun ∧ WeaklyFair (fun _ => Event.codec = .codec) nopRun ∧
    IsHostRun (fun _ => .codec) (fun n => (hostAt .reset, nopRun n)) ∧
    WeaklyFair (fun _ => Agent.codec = .codec) (fun n => ((fun k => (hostAt .reset, nopRun k)) n).2) := by
  have run : IsRun (fun _ => .codec) nopRun := fun n => by cases n <;> rfl
  refine ⟨rfl, run, fun n _ => ⟨n, Nat.le_refl n, rfl⟩, fun n => ?_, fun n _ => ⟨n, Nat.le_refl n, rfl⟩⟩
  simp only [agentTurn, run n, Except.map]

end Sys2Proof.Tests
end

section
/-! PROOFS. The host's accesses (spec/20_memory.md R72, R74, R78, R79): which byte a read returns, which writes are
ignored, what a write to `OP` starts, and the fault of a write while an operation is pending. -/

namespace Sys2Proof.Machine

/-! ## The rows of the register map -/

/-- The rows of the map do not overlap (R32). -/
theorem regMap_disjoint : ∀ r ∈ regMap, ∀ r' ∈ regMap,
    r.base < r'.base + r'.size → r'.base < r.base + r.size → r = r' := by decide

/-- Offset `k` of a row lies in that row and in no other. -/
theorem rowAt_base_add {r : RegRow} (hr : r ∈ regMap) {k : Nat} (hk : k < r.size) : rowAt (r.base + k) = some r := by
  cases h : rowAt (r.base + k) with
  | none =>
    have hout : r.size ≤ k := by simpa using List.find?_eq_none.1 h r hr
    exact absurd hk (Nat.not_lt.2 hout)
  | some r' =>
    obtain ⟨hr', hlo, hhi⟩ := rowAt_mem h
    rw [regMap_disjoint r hr r' hr' (by omega) (by omega)]

/-- A read at offset `k` of a row returns byte `k` of the row's register (R72). -/
theorem memRead_row {s : State} {a : Offset} (r : RegRow) {k : Nat} (hk : k < r.size) (ha : a.toNat = r.base + k)
    (hr : r ∈ regMap := by decide) : s.memRead a = s.regByte r.reg k := by
  simp [State.memRead, ha, rowAt_base_add hr hk]

/-- A reserved offset reads 0 (R74). -/
theorem memRead_reserved {s : State} {a : Offset} (ha : isReserved a = true) : s.memRead a = 0 := by
  have hrow : rowAt a.toNat = none := by rw [← Option.isNone_iff_eq_none, rowAt_none_iff, ha]
  simp [State.memRead, hrow]

/-- No reserved or read-only offset is `OP` or a writable offset (R32, R74). -/
theorem not_writable_of_reserved_or_readOnly {a : Offset} (ha : isReserved a = true ∨ isReadOnly a = true) :
    a ≠ 0 ∧ isWritable a = false := by
  constructor
  · rintro rfl
    exact absurd ha (by decide)
  · simp only [isReserved, isReadOnly, isWritable, Bool.or_eq_true, Bool.or_eq_false_iff, Bool.and_eq_true,
      Bool.and_eq_false_iff, beq_iff_eq, decide_eq_true_eq, decide_eq_false_iff_not] at ha ⊢
    omega

/-! ## The bytes of a register -/

theorem byteOf_toNat {n : Nat} (x : BitVec n) (k : Nat) : (byteOf x k).toNat = x.toNat / 256 ^ k % 256 := by
  simp [byteOf, Nat.shiftRight_eq_div_pow, Nat.pow_mul]

theorem bitAt_zero_toNat (b : Bool) : (bitAt 0 b).toNat = b.toNat := by cases b <;> rfl

/-- A byte whose upper five bits are reserved, as a number (R51, R61). -/
theorem threeBits_toNat (x y z : Bool) :
    (bitAt 2 x ||| bitAt 1 y ||| bitAt 0 z).toNat = 4 * x.toNat + 2 * y.toNat + z.toNat := by
  cases x <;> cases y <;> cases z <;> rfl

theorem State.errf_toNat (s : State) : s.errf.toNat = if s.err = 0 then 0 else 1 := by
  unfold State.errf
  split <;> simp_all

/-- `STATUS` as a number (R61). -/
theorem State.statusByte_toNat (s : State) :
    s.statusByte.toNat = 4 * (if s.err = 0 then 0 else 1) + 2 * s.done.toNat + s.busy.toNat := by
  rw [State.statusByte, threeBits_toNat, errf_toNat]

/-- Settles O11: the offset's row of the map names the register, and each register's byte is the one listed. -/
theorem readReturnsTheMappedByte : Obligations.ReadReturnsTheMappedByte := by
  intro s a
  refine ⟨s.memRead a, rfl, ?op, ?status, ?err, ?errsub, ?ilen, ?olen, ?eFn, ?eAttr, ?eFlags, ?eIdLen, ?ePwLen,
    ?oFlags, ?eVal, ?eId, ?ePw, ?dVer, ?dFn, ?dAttr, ?dPlen, ?dFlags, ?dCkCalc, ?dCkRx, ?dVal, ?dId, ?dPw, ?ibuf,
    ?obuf, memRead_reserved⟩
  case op => exact memRead_row ⟨.OP, 0x000, 1, .rw⟩ Nat.one_pos
  case status =>
    intro h
    rw [memRead_row ⟨.STATUS, 0x001, 1, .ro⟩ Nat.one_pos h]
    exact s.statusByte_toNat
  case err => exact memRead_row ⟨.ERR, 0x002, 1, .ro⟩ Nat.one_pos
  case errsub => exact memRead_row ⟨.ERRSUB, 0x003, 1, .ro⟩ Nat.one_pos
  case ilen =>
    intro k hk h
    rw [memRead_row ⟨.ILEN, 0x004, 2, .rw⟩ hk h]
    exact byteOf_toNat _ k
  case olen =>
    intro k hk h
    rw [memRead_row ⟨.OLEN, 0x006, 2, .ro⟩ hk h]
    exact byteOf_toNat _ k
  case eFn => exact memRead_row ⟨.E_FN, 0x008, 1, .rw⟩ Nat.one_pos
  case eAttr => exact memRead_row ⟨.E_ATTR, 0x009, 1, .rw⟩ Nat.one_pos
  case eFlags =>
    intro h
    rw [memRead_row ⟨.E_FLAGS, 0x00A, 1, .rw⟩ Nat.one_pos h]
    exact bitAt_zero_toNat s.cmd.valPresent
  case eIdLen => exact memRead_row ⟨.E_IDLEN, 0x00B, 1, .rw⟩ Nat.one_pos
  case ePwLen => exact memRead_row ⟨.E_PWLEN, 0x00C, 1, .rw⟩ Nat.one_pos
  case oFlags =>
    intro h
    rw [memRead_row ⟨.O_FLAGS, 0x00D, 1, .ro⟩ Nat.one_pos h]
    exact bitAt_zero_toNat s.enc.replyExpected
  case eVal =>
    intro k hk h
    rw [memRead_row ⟨.E_VAL, 0x010, 4, .rw⟩ hk h]
    exact byteOf_toNat _ k
  case eId =>
    intro i h
    rw [memRead_row ⟨.E_ID, 0x014, 16, .rw⟩ i.isLt h]
    simp [State.regByte]
  case ePw =>
    intro i h
    rw [memRead_row ⟨.E_PW, 0x024, 4, .rw⟩ i.isLt h]
    simp [State.regByte]
  case dVer => exact memRead_row ⟨.D_VER, 0x040, 1, .ro⟩ Nat.one_pos
  case dFn => exact memRead_row ⟨.D_FN, 0x041, 1, .ro⟩ Nat.one_pos
  case dAttr => exact memRead_row ⟨.D_ATTR, 0x042, 1, .ro⟩ Nat.one_pos
  case dPlen => exact memRead_row ⟨.D_PLEN, 0x043, 1, .ro⟩ Nat.one_pos
  case dFlags =>
    intro h
    rw [memRead_row ⟨.D_FLAGS, 0x044, 1, .ro⟩ Nat.one_pos h]
    exact threeBits_toNat s.dec.replyExpected s.dec.fieldsValid s.dec.valValid
  case dCkCalc => exact memRead_row ⟨.D_CKCALC, 0x045, 1, .ro⟩ Nat.one_pos
  case dCkRx => exact memRead_row ⟨.D_CKRX, 0x046, 1, .ro⟩ Nat.one_pos
  case dVal =>
    intro k hk h
    rw [memRead_row ⟨.D_VAL, 0x048, 4, .ro⟩ hk h]
    exact byteOf_toNat _ k
  case dId =>
    intro i h
    rw [memRead_row ⟨.D_ID, 0x04C, 16, .ro⟩ i.isLt h]
    simp [State.regByte]
  case dPw =>
    intro i h
    rw [memRead_row ⟨.D_PW, 0x05C, 4, .ro⟩ i.isLt h]
    simp [State.regByte]
  case ibuf => exact fun k hk => memRead_row ⟨.IBUF, 0x100, 256, .rw⟩ hk
  case obuf => exact fun k hk => memRead_row ⟨.OBUF, 0x200, 256, .ro⟩ hk

/-! ## Writes while `BUSY = 0` -/

/-- A write to an offset that is neither `OP` nor writable is ignored (R74). -/
theorem memWrite_ignored {s : State} (hb : s.busy = false) {a : Offset} (v : Byte) (hop : a ≠ 0)
    (hw : isWritable a = false) : s.memWrite a v = s := by
  rcases memWrite_free hb a v with ⟨h, -⟩ | ⟨r, hr, hrw, -⟩
  · exact h
  · exact absurd (by simpa [hr, hrw, hw] using rowAt_rw_iff a) hop

/-- Settles O12: such an offset lies in no writable row. -/
theorem reservedAndReadOnlyIgnoreWrites : Obligations.ReservedAndReadOnlyIgnoreWrites := by
  refine ⟨fun s a v hb ha => ?_, fun s a ha => ?_⟩
  · obtain ⟨hop, hw⟩ := not_writable_of_reserved_or_readOnly ha
    exact congrArg _ (memWrite_ignored hb v hop hw)
  · show Host.Outcome.next { s with lastRead := some (s.memRead a) } = _
    rw [memRead_reserved ha]

/-- A write to `OP` is a start (R78). -/
theorem memWrite_op {s : State} (hb : s.busy = false) (v : Byte) : s.memWrite 0x000 v = s.start v := by
  rw [State.memWrite, hb]
  rfl

/-- Settles O13: the write is a start, which writes these five registers alone. -/
theorem writeToOpStartsTheOperation : Obligations.WriteToOpStartsTheOperation :=
  fun _ v hb => congrArg _ (memWrite_op hb v)

/-! ## What an instruction leaves alone -/

theorem sameInputs.refl (s : State) : sameInputs s s := by simp [sameInputs]

theorem sameInputs.trans {s t u : State} (hst : sameInputs s t) (htu : sameInputs t u) : sameInputs s u := by
  simp_all [sameInputs]

/-- The completion of an operation writes only `ERR`, `ERRSUB`, `BUSY` and `DONE` (R280). -/
theorem finish_sameInputs {s t : State} {r : Ran} (hr : sameInputs s r.1) (h : finish r = .next t) :
    sameInputs s t := by
  cases h
  simpa [sameInputs] using hr

theorem cksumBody_sameInputs (s : State) : sameInputs s (cksumBody s).1 := by
  unfold cksumBody
  split <;> simp [sameInputs]

theorem frameCheck_sameInputs (s : State) : sameInputs s (frameCheck s).1 := by
  rcases frameCheck_cases s with ⟨h, -⟩ | ⟨h, -⟩ | ⟨h, -⟩ | ⟨h, -⟩ | ⟨h, -⟩ <;> simp [h, sameInputs]

theorem parseCommand_sameInputs (fn : FnCode) (s : State) : sameInputs s (parseCommand fn s).1 := by
  rcases parseCommand_cases fn s with ⟨h, -⟩ | ⟨d, -, ⟨h, -⟩ | ⟨h, -⟩ | ⟨h, -⟩ | ⟨h, -⟩⟩ <;> simp [h, sameInputs]

theorem buildCommand_sameInputs (fn : FnCode) (s : State) : sameInputs s (buildCommand fn s).1 := by
  rcases buildCommand_cases fn s with ⟨h, -⟩ | ⟨d, -, ⟨h, -⟩ | ⟨h, -⟩ | ⟨h, -⟩⟩ <;> simp [h, sameInputs]

theorem fnBody_sameInputs (fn : FnCode) (place : FnPlace) (s : State) : sameInputs s (fnBody fn place s).1 := by
  cases place with
  | frame => exact parseCommand_sameInputs fn s
  | command => exact buildCommand_sameInputs fn s

theorem execFnUnknown_sameInputs {place : FnPlace} {s t : State} (h : execFnUnknown place s = .next t) :
    sameInputs s t := by
  cases place <;> exact finish_sameInputs (.refl s) h

theorem runFn_sameInputs {place : FnPlace} {b : Byte} {s t : State} (h : runFn place b s = .next t) :
    sameInputs s t := by
  rcases runFn_cases place b s with ⟨fn, -, hrun⟩ | ⟨-, hrun⟩
  · exact finish_sameInputs (fnBody_sameInputs fn place s) (hrun ▸ h)
  · exact execFnUnknown_sameInputs (hrun ▸ h)

theorem dclear_sameInputs (s : State) : sameInputs s s.dclear := by simp [sameInputs]

theorem eclear_sameInputs (s : State) : sameInputs s s.eclear := by simp [sameInputs]

theorem extract_sameInputs (s : State) : sameInputs s s.extract := by simp [sameInputs]

theorem afterFrameCheck_sameInputs {s t : State} {r : Ran} (hr : sameInputs s r.1)
    (h : afterFrameCheck r = .next t) : sameInputs s t := by
  obtain ⟨u, failure⟩ := r
  cases failure with
  | some f => exact finish_sameInputs hr h
  | none => exact (hr.trans (extract_sameInputs u)).trans (runFn_sameInputs h)

theorem execDecode_sameInputs {s t : State} (h : execDecode s = .next t) : sameInputs s t :=
  afterFrameCheck_sameInputs ((dclear_sameInputs s).trans (frameCheck_sameInputs s.dclear)) h

theorem execEncode_sameInputs {s t : State} (h : execEncode s = .next t) : sameInputs s t := by
  rcases execEncode_cases s with ⟨f, -, hrun⟩ | ⟨-, hrun⟩
  · exact finish_sameInputs (eclear_sameInputs s) (hrun ▸ h)
  · exact (eclear_sameInputs s).trans (runFn_sameInputs (hrun ▸ h))

/-- An instruction is a host write, a host read, or one that leaves the inputs, `OP`, `FAULT` and all that is not the
block's as they were. -/
theorem exec_cases {i : Instr} {s t : State} (h : exec i s = .next t) :
    (∃ a v, i = .wr a v ∧ t = s.memWrite a v) ∨
    (∃ a, i = .rd a ∧ t = { s with lastRead := some (s.memRead a) }) ∨
    sameInputs s t := by
  cases i with
  | wr a v => cases h; exact .inl ⟨a, v, rfl, rfl⟩
  | rd a => cases h; exact .inr (.inl ⟨a, rfl, rfl⟩)
  | nop => exact .inr (.inr (finish_sameInputs (.refl s) h))
  | illegal op => exact .inr (.inr (finish_sameInputs (.refl s) h))
  | cksum => exact .inr (.inr (finish_sameInputs ((dclear_sameInputs s).trans (cksumBody_sameInputs _)) h))
  | validate => exact .inr (.inr (finish_sameInputs ((dclear_sameInputs s).trans (frameCheck_sameInputs _)) h))
  | decode => exact .inr (.inr (execDecode_sameInputs h))
  | encode => exact .inr (.inr (execEncode_sameInputs h))
  | read place => exact .inr (.inr (finish_sameInputs (fnBody_sameInputs .read place s) h))
  | write place => exact .inr (.inr (finish_sameInputs (fnBody_sameInputs .write place s) h))
  | readWrite place => exact .inr (.inr (finish_sameInputs (fnBody_sameInputs .readWrite place s) h))
  | increment place => exact .inr (.inr (finish_sameInputs (fnBody_sameInputs .increment place s) h))
  | decrement place => exact .inr (.inr (finish_sameInputs (fnBody_sameInputs .decrement place s) h))
  | fnUnknown place fn => exact .inr (.inr (execFnUnknown_sameInputs h))

/-! ## `FAULT` -/

@[simp] theorem State.setRegByte_fault (s : State) (r : Reg) (k : Nat) (v : Byte) :
    (s.setRegByte r k v).fault = s.fault := by
  cases r <;> rfl

/-- A write sets `FAULT` exactly when `BUSY = 1`, and never clears it (R73, R79). -/
theorem memWrite_fault (s : State) (a : Offset) (v : Byte) : (s.memWrite a v).fault = (s.busy || s.fault) := by
  cases hb : s.busy with
  | true => simp [memWrite_busy hb]
  | false => rcases memWrite_free hb a v with ⟨h, -⟩ | ⟨r, -, -, h⟩ <;> simp [h]

theorem exec_keeps_fault {i : Instr} {s t : State} (h : exec i s = .next t) (hf : s.fault = true) :
    t.fault = true := by
  rcases exec_cases h with ⟨a, v, -, rfl⟩ | ⟨a, -, rfl⟩ | ⟨-, hfault, -⟩
  · simp [memWrite_fault, hf]
  · exact hf
  · rw [hfault, hf]

theorem codecTurn_keeps_fault {s t : State} (h : codecTurn s = .next t) (hf : s.fault = true) : t.fault = true := by
  unfold codecTurn at h
  split at h
  · exact exec_keeps_fault h hf
  · cases h; exact hf

theorem hostTurn_keeps_fault {w : Nat} {s t : State} (h : hostTurn w s = .next t) (hf : s.fault = true) :
    t.fault = true := by
  unfold hostTurn at h
  split at h
  · exact exec_keeps_fault h hf
  · cases h

/-- Only a reset clears `FAULT` (R79, R340). -/
theorem step_keeps_fault {s t : State} (h : step s = .next t) (hf : s.fault = true)
    (hreset : ∀ rest, s.agenda ≠ .reset :: rest) : t.fault = true := by
  unfold step nextTurn at h
  split at h
  · exact codecTurn_keeps_fault h hf
  · exact hostTurn_keeps_fault h hf
  · exact codecTurn_keeps_fault h hf
  · next rest hagenda => exact absurd hagenda (hreset rest)

/-- Settles O14: the write's own equation, `FAULT` kept by every step but reset, and `FAULT` in no final state. -/
theorem writeWhileBusyFaults : Obligations.WriteWhileBusyFaults := by
  refine ⟨fun s a v hb => congrArg _ (memWrite_busy hb a v), fun s t hf h => step_keeps_fault h hf,
    fun s hf hfinal => ?_⟩
  obtain ⟨-, hfault, -⟩ := hfinal
  simp [hf] at hfault

end Sys2Proof.Machine
end

section
/-! PROOFS. The checksum, CKSUM and VALIDATE (spec/40_checksum.md R140..R147): what the checksum is and what it does not
detect, the result of each operation, the whole-frame identity, and that one flipped bit of a frame is rejected. -/

namespace Sys2Proof.Machine

/-! ## The checksum of a byte string -/

theorem ck_sum8_eq_foldr (bs : List Byte) : ck .sum8 bs = bs.foldr (· + ·) 0 := by
  induction bs with
  | nil => rfl
  | cons b rest ih => simp [ck, ih]

theorem ck_xor8_eq_foldr (bs : List Byte) : ck .xor8 bs = bs.foldr (· ^^^ ·) 0 := by
  induction bs with
  | nil => rfl
  | cons b rest ih => simp [ck, ih]

theorem ck_sum8_toNat (bs : List Byte) : (ck .sum8 bs).toNat = (bs.map fun b => b.toNat).sum % 256 := by
  induction bs with
  | nil => rfl
  | cons b rest ih => simp [ck, ih]

theorem ck_perm (alg : CkAlg) {xs ys : List Byte} (h : xs.Perm ys) : ck alg xs = ck alg ys := by
  cases alg with
  | sum8 => rw [ck_sum8_eq_foldr, ck_sum8_eq_foldr, h.foldr_op_eq]
  | xor8 => rw [ck_xor8_eq_foldr, ck_xor8_eq_foldr, h.foldr_op_eq]

theorem ck_xor8_flip_two (xs ys zs : List Byte) (a b m : Byte) :
    ck .xor8 (xs ++ (a ^^^ m) :: ys ++ (b ^^^ m) :: zs) = ck .xor8 (xs ++ a :: ys ++ b :: zs) := by
  simp only [ck_append_xor8, ck]
  calc
    _ = (ck .xor8 xs ^^^ (a ^^^ ck .xor8 ys) ^^^ (b ^^^ ck .xor8 zs)) ^^^ (m ^^^ m) := by ac_rfl
    _ = _ := by rw [BitVec.xor_self, BitVec.xor_zero]

theorem ck_sum8_shift_two (xs ys zs : List Byte) (a b d : Byte) :
    ck .sum8 (xs ++ (a + d) :: ys ++ (b - d) :: zs) = ck .sum8 (xs ++ a :: ys ++ b :: zs) := by
  simp only [ck_append_sum8, ck]
  ring

/-- The checksum is injective in each single byte: this is why one changed byte is always detected (R145). -/
theorem ck_middle_inj (alg : CkAlg) (xs ys : List Byte) (a b : Byte) :
    ck alg (xs ++ a :: ys) = ck alg (xs ++ b :: ys) ↔ a = b := by
  cases alg <;> simp [ck_append_sum8, ck_append_xor8, ck]

theorem ck_sum8_append_ck (bs : List Byte) :
    (ck .sum8 (bs ++ [ck .sum8 bs])).toNat = 2 * (ck .sum8 bs).toNat % 256 := by
  simp [ck_append_sum8, ck, two_mul]

theorem ck_xor8_append_ck (bs : List Byte) : ck .xor8 (bs ++ [ck .xor8 bs]) = 0 := by
  simp [ck_append_xor8, ck]

/-- Settles O19, by induction over the string for the sum; the exclusive or may be folded from either end. -/
theorem checksumIsSumOrXor : Obligations.ChecksumIsSumOrXor :=
  ⟨ck_sum8_toNat, fun bs => by rw [ck_xor8_eq_foldr, List.foldl_eq_foldr], fun _ => rfl⟩

/-- Settles O20: both folds are commutative and associative, and the two changes cancel. -/
theorem checksumCollisions : Obligations.ChecksumCollisions :=
  ⟨fun alg _ _ => ck_perm alg, fun xs ys zs a b k => ck_xor8_flip_two xs ys zs a b (.twoPow 8 k.val), ck_sum8_shift_two⟩

/-! ## CKSUM -/

/-- The length guard (R141). -/
theorem tooLong_iff (s : State) : s.tooLong = true ↔ 256 < s.ilen.toNat := decide_eq_true_iff

theorem tooLong_eq_false_iff (s : State) : s.tooLong = false ↔ s.ilen.toNat ≤ 256 := by
  rw [← Bool.not_eq_true, tooLong_iff, Nat.not_lt]

theorem execCksum_of_le {s : State} (h : s.ilen.toNat ≤ 256) :
    exec .cksum s = .next { s with
      dec := { DecodeGroup.zero with ckCalc := ck s.cfg.raw.ckAlg (s.ibuf.range 0 s.ilen.toNat) },
      err := 0, errsub := 0, busy := false, done := true } := by
  show finish (cksumBody s.dclear) = _
  simp only [cksumBody, (tooLong_eq_false_iff s.dclear).2 h]
  rfl

theorem execCksum_of_gt {s : State} (h : 256 < s.ilen.toNat) :
    exec .cksum s = .next { s with
      dec := DecodeGroup.zero, err := 2, errsub := 3, busy := false, done := true } := by
  show finish (cksumBody s.dclear) = _
  simp only [cksumBody, (tooLong_iff s.dclear).2 h]
  rfl

/-- Settles O23: the two sides of the length guard. -/
theorem cksumResult : Obligations.CksumResult :=
  ⟨rfl, fun _ => execCksum_of_le, fun _ => execCksum_of_gt⟩

/-- The last byte of an accepted frame is the checksum of the others (R142). -/
theorem frameAccepted.range_eq {s : State} (h : frameAccepted s) :
    s.ibuf.range 0 s.ilen.toNat = s.ibuf.range 0 (s.ilen.toNat - 1) ++
      [ck s.cfg.raw.ckAlg (s.ibuf.range 0 (s.ilen.toNat - 1))] := by
  obtain ⟨hmin, -, -, -, hck⟩ := h
  have hlen : s.ilen.toNat = s.ilen.toNat - 1 + 1 := by omega
  rw [hck, hlen, Memory.range_succ, Nat.zero_add, ← hlen]

/-- Settles O22: a frame is a string followed by its own checksum, and CKSUM takes the checksum of both. -/
theorem wholeFrameChecksum : Obligations.WholeFrameChecksum := by
  intro s h
  have hrange := h.range_eq
  obtain ⟨-, hmax, -, -, hck⟩ := h
  refine ⟨_, execCksum_of_le hmax, ⟨rfl, rfl, rfl, rfl⟩, fun halg => ?_, fun halg => ?_⟩
  · simp only [hrange, halg, ck_xor8_append_ck]
  · simp only [hrange, halg, ck_sum8_append_ck, ← hck]

/-! ## The frame check, one equation per outcome -/

section FrameCheck

variable {s : State}

theorem frameCheck_tooLong (h : 256 < s.ilen.toNat) : frameCheck s = (s, some .tooLong) := by
  rw [frameCheck, if_pos ((tooLong_iff s).2 h)]

theorem frameCheck_tooShort (h : s.ilen.toNat < 26) : frameCheck s = (s, some .tooShort) := by
  have hlong : ¬ s.tooLong = true := by rw [tooLong_iff]; omega
  rw [frameCheck, if_neg hlong, if_pos (show s.frameLen < minFrame from h)]

/-- With a length that passes, the frame check is the magic check and the checksum check (R142). -/
theorem frameCheck_of_length (hmin : 26 ≤ s.ilen.toNat) (hmax : s.ilen.toNat ≤ 256) :
    frameCheck s = if s.magicOk = false then (s, some .badMagic)
      else if s.computedCk ≠ s.receivedCk then (s.withChecksums, some .checksumMismatch)
      else (s.withChecksums, none) := by
  have hlong : ¬ s.tooLong = true := by rw [tooLong_iff]; omega
  have hshort : ¬ s.frameLen < minFrame := Nat.not_lt.2 hmin
  rw [frameCheck, if_neg hlong, if_neg hshort]
  simp only [Bool.not_eq_eq_eq_not, Bool.not_true]

theorem frameCheck_badMagic (hmin : 26 ≤ s.ilen.toNat) (hmax : s.ilen.toNat ≤ 256) (hmagic : s.magicOk = false) :
    frameCheck s = (s, some .badMagic) := by
  rw [frameCheck_of_length hmin hmax, if_pos hmagic]

theorem frameCheck_checksumMismatch (hmin : 26 ≤ s.ilen.toNat) (hmax : s.ilen.toNat ≤ 256) (hmagic : s.magicOk = true)
    (hck : s.computedCk ≠ s.receivedCk) : frameCheck s = (s.withChecksums, some .checksumMismatch) := by
  rw [frameCheck_of_length hmin hmax, if_neg (by simp [hmagic]), if_pos hck]

theorem frameCheck_accepts (hmin : 26 ≤ s.ilen.toNat) (hmax : s.ilen.toNat ≤ 256) (hmagic : s.magicOk = true)
    (hck : s.computedCk = s.receivedCk) : frameCheck s = (s.withChecksums, none) := by
  rw [frameCheck_of_length hmin hmax, if_neg (by simp [hmagic]), if_neg (not_not.2 hck)]

theorem magicOk_eq_false_iff :
    s.magicOk = false ↔ ¬(s.ibuf.read 0 = s.cfg.raw.magic0 ∧ s.ibuf.read 1 = s.cfg.raw.magic1) := by
  rw [← magicOk_iff, Bool.not_eq_true]

end FrameCheck

/-! ## VALIDATE -/

theorem execValidate_of_frameCheck {s : State} {r : Ran} (h : frameCheck s.dclear = r) :
    exec .validate s = .next (r.1.complete r.2) := by
  subst h; rfl

/-- Settles O24: the frame check's outcome on the cleared decode group, completed. -/
theorem validateResult : Obligations.ValidateResult := by
  refine ⟨rfl, fun s => ⟨fun hlong => ?_, fun hshort => ?_, fun hmin hmax hmagic => ?_,
    fun hmin hmax hmagic hck => ?_, fun hmin hmax hmagic hck => ?_⟩⟩
  · exact execValidate_of_frameCheck (frameCheck_tooLong hlong)
  · exact execValidate_of_frameCheck (frameCheck_tooShort hshort)
  · exact execValidate_of_frameCheck (frameCheck_badMagic hmin hmax (magicOk_eq_false_iff.2 hmagic))
  · exact execValidate_of_frameCheck (frameCheck_checksumMismatch hmin hmax ((magicOk_iff _).2 hmagic) hck)
  · exact execValidate_of_frameCheck (frameCheck_accepts hmin hmax ((magicOk_iff _).2 hmagic) hck)

/-! ## One changed byte of an accepted frame -/

/-- The first `n` bytes of a buffer around one of them. -/
theorem Memory.range_split (m : Memory) {i n : Nat} (hi : i < n) :
    m.range 0 n = m.range 0 i ++ m.read i :: m.range (i + 1) (n - (i + 1)) := by
  have hn : n = i + 1 + (n - (i + 1)) := by omega
  rw [hn, range_append, range_succ, Nat.zero_add, Nat.zero_add, ← hn, List.append_assoc, List.singleton_append]

theorem Memory.range_write (m : Memory) {i n : Nat} (v : Byte) (hw : m.wf = true) (hi : i < n) :
    (m.write i v).range 0 n = m.range 0 i ++ v :: m.range (i + 1) (n - (i + 1)) := by
  have hbefore : (m.write i v).range 0 i = m.range 0 i :=
    range_congr fun k hk => read_write_other m v (by omega)
  have hafter : (m.write i v).range (i + 1) (n - (i + 1)) = m.range (i + 1) (n - (i + 1)) :=
    range_congr fun k _ => read_write_other m v (by omega)
  rw [range_split _ hi, hbefore, hafter, read_write_same m i v hw]

/-- A changed byte changes the checksum of the bytes it is one of (R145). -/
theorem ck_range_write_ne (alg : CkAlg) {m : Memory} {i n : Nat} {v : Byte} (hw : m.wf = true) (hi : i < n)
    (hv : v ≠ m.read i) : ck alg ((m.write i v).range 0 n) ≠ ck alg (m.range 0 n) := by
  rw [Memory.range_write m v hw hi, Memory.range_split m hi, Ne, ck_middle_inj]
  exact hv

section ChangedByte

variable {s : State} {i : Nat} {v : Byte} (hw : s.ibuf.wf = true) (hv : v ≠ s.ibuf.read i)
include hw hv

theorem magicOk_of_changed_magic (h : frameAccepted s) (hi : i < 2) : (s.setRegByte .IBUF i v).magicOk = false := by
  obtain ⟨-, -, hm0, hm1, -⟩ := h
  have hread : (s.setRegByte .IBUF i v).ibuf.read i = v := Memory.read_write_same _ i v hw
  rw [magicOk_eq_false_iff]
  rintro ⟨h0, h1⟩
  obtain rfl | rfl : i = 0 ∨ i = 1 := by omega
  · exact hv (hread.symm.trans (h0.trans hm0.symm))
  · exact hv (hread.symm.trans (h1.trans hm1.symm))

/-- Either the computed or the received checksum changes, and the other one stays. -/
theorem checksums_ne_of_changed_byte (h : frameAccepted s) (hi : i < s.ilen.toNat) :
    (s.setRegByte .IBUF i v).computedCk ≠ (s.setRegByte .IBUF i v).receivedCk := by
  obtain ⟨-, -, -, -, hck⟩ := h
  show ck s.cfg.raw.ckAlg ((s.ibuf.write i v).range 0 (s.ilen.toNat - 1)) ≠
    (s.ibuf.write i v).read (s.ilen.toNat - 1)
  by_cases hlast : i = s.ilen.toNat - 1
  · have hsame : (s.ibuf.write i v).range 0 (s.ilen.toNat - 1) = s.ibuf.range 0 (s.ilen.toNat - 1) :=
      Memory.range_congr fun k hk => Memory.read_write_other _ v (by omega)
    rw [hsame, hck, ← hlast, Memory.read_write_same _ i v hw]
    exact hv.symm
  · rw [Memory.read_write_other _ v (Ne.symm hlast), ← hck]
    exact ck_range_write_ne _ hw (by omega) hv

/-- The frame check rejects an accepted frame with one byte changed (R145). -/
theorem frameCheck_of_changed_byte (h : frameAccepted s) (hi : i < s.ilen.toNat) :
    ∃ t, frameCheck (s.setRegByte .IBUF i v) = (t, some (if i < 2 then .badMagic else .checksumMismatch)) := by
  have hne := checksums_ne_of_changed_byte hw hv h hi
  have hbad := magicOk_of_changed_magic hw hv h
  obtain ⟨hmin, hmax, hm0, hm1, -⟩ := h
  by_cases h2 : i < 2
  · rw [if_pos h2]
    exact ⟨_, frameCheck_badMagic hmin hmax (hbad h2)⟩
  · have hmagic : (s.setRegByte .IBUF i v).magicOk = true := (magicOk_iff _).2
      ⟨(Memory.read_write_other _ v (by omega)).trans hm0, (Memory.read_write_other _ v (by omega)).trans hm1⟩
    rw [if_neg h2]
    exact ⟨_, frameCheck_checksumMismatch hmin hmax hmagic hne⟩

end ChangedByte

/-- VALIDATE and DECODE end with the failure of the frame check (R144, R170). -/
theorem exec_of_frameCheck_fails {s t : State} {f : Failure} {op : Instr} (hop : op ∈ [Instr.validate, Instr.decode])
    (h : frameCheck s.dclear = (t, some f)) : exec op s = .next (t.complete (some f)) := by
  have hdecode : exec .decode s = afterFrameCheck (frameCheck s.dclear) := rfl
  rcases List.mem_pair.1 hop with rfl | rfl
  · exact execValidate_of_frameCheck h
  · rw [hdecode, h]
    rfl

theorem xor_twoPow_ne (b : Byte) (k : Fin 8) : b ^^^ BitVec.twoPow 8 k.val ≠ b := by
  intro h
  have hbit := congrArg (fun x => x.getLsbD k.val) h
  simp at hbit

/-- Settles O21: a flipped bit is a changed byte. -/
theorem oneFlippedBitIsRejected : Obligations.OneFlippedBitIsRejected := by
  rintro s u i k op hw h hi rfl hop
  obtain ⟨t, ht⟩ := frameCheck_of_changed_byte (s := s.dclear) hw (xor_twoPow_ne _ k) h hi
  refine ⟨_, exec_of_frameCheck_fails hop ht, ?_⟩
  split
  · exact ⟨rfl, rfl, rfl, rfl⟩
  · exact ⟨rfl, rfl, rfl, rfl⟩

end Sys2Proof.Machine
end

section
/-! PROOFS. DECODE (spec/41_frame_parser.md R170..R179): the decode group after each outcome, and what DECODE reads. -/

namespace Sys2Proof.Machine

/-! ## The function code -/

/-- `REPLY_EXPECTED` in terms of the code's byte (R235). -/
theorem FnCode.replyExpected_eq_decide (fn : FnCode) : fn.replyExpected = decide (fn.byte ≠ 0x02) := by
  cases fn <;> rfl

/-- A known byte goes on as its code (R103). -/
theorem runFn_byte (place : FnPlace) (fn : FnCode) (s : State) :
    runFn place fn.byte s = finish (fnBody fn place s) := by
  cases fn <;> rfl

theorem FnCode.byte_known (fn : FnCode) : 0 < fn.byte.toNat ∧ fn.byte.toNat ≤ 5 := by
  cases fn <;> decide

/-- Any other byte goes on as an unknown code (R109). -/
theorem runFn_unknown (place : FnPlace) {b : Byte} (hb : b.toNat = 0 ∨ 5 < b.toNat) (s : State) :
    runFn place b s = execFnUnknown place s := by
  rcases runFn_cases place b s with ⟨fn, rfl, -⟩ | ⟨-, hrun⟩
  · have := fn.byte_known
    omega
  · exact hrun

/-! ## The stages of DECODE -/

theorem exec_decode_fails {s u : State} {f : Failure} (h : frameCheck s.dclear = (u, some f)) :
    exec .decode s = .next (u.complete (some f)) :=
  exec_of_frameCheck_fails (by simp) h

/-- On an accepted frame DECODE goes on by the function code, with the fields received (R170, R171). -/
theorem exec_decode_accepts {s : State} (h : frameCheck s.dclear = (s.dclear.withChecksums, none)) :
    exec .decode s = runFn .frame (s.ibuf.read 23) { s with dec := receivedFields s } := by
  have hdecode : exec .decode s = afterFrameCheck (frameCheck s.dclear) := rfl
  rw [hdecode, h]
  rfl

theorem parseCommand_unknownAttribute (fn : FnCode) {s : State} (ha : attrOf s.cfg s.dec.attr = none) :
    parseCommand fn s = (s.withReply fn.replyExpected, some .unknownAttribute) := by
  simp [parseCommand, ha]

/-- With a known id, a function code checks the payload's length, then its value (R173, R174). -/
theorem parseCommand_of_attr (fn : FnCode) {s : State} {d : AttrDesc} (ha : attrOf s.cfg s.dec.attr = some d) :
    parseCommand fn s =
      if payloadLenOk fn (s.ilen.toNat - 26) d.w.bytes = false then
        (s.withReply fn.replyExpected, some .payloadLengthMismatch)
      else if s.ilen.toNat - 26 = 0 then (s.withReply fn.replyExpected, none)
      else if inRange (unmarshal (s.ibuf.range 25 d.w.bytes) d) d = false then
        (s.withReply fn.replyExpected, some .decodeValueRange)
      else ((s.withReply fn.replyExpected).withValue (unmarshal (s.ibuf.range 25 d.w.bytes) d), none) := by
  simp [parseCommand, ha, State.frameLen, minFrame, hdrBytes]

/-- A payload of a length the code takes is empty or of the descriptor's width (R173). -/
theorem payloadLenOk_width {fn : FnCode} {p w : Nat} (h : payloadLenOk fn p w = true) (hp : p ≠ 0) : p = w := by
  unfold payloadLenOk at h
  split at h
  · exact of_decide_eq_true h
  · simpa [hp] using h

/-! ## The decode group after each outcome -/

/-- The fields of an accepted frame with its reply flag (R170, R235). -/
def fieldsWithReply (s : State) : DecodeGroup :=
  { receivedFields s with replyExpected := decide (s.ibuf.read 23 ≠ 0x02) }

/-- The rows of R175: the decode group that DECODE leaves, with the failure it raises. -/
inductive DecodeRow (s : State) : DecodeGroup → Option Failure → Prop where
  | malformed (f : Failure) (hf : f.code = 2) : DecodeRow s DecodeGroup.zero (some f)
  | checksumMismatch :
      DecodeRow s { DecodeGroup.zero with ckCalc := (receivedFields s).ckCalc, ckRx := (receivedFields s).ckRx }
        (some .checksumMismatch)
  | unknownFunction : DecodeRow s (receivedFields s) (some .unknownFunction)
  | rejected (f : Failure) (hf : f.code = 4 ∨ f.code = 5 ∨ f.code = 7) : DecodeRow s (fieldsWithReply s) (some f)
  | empty (hlen : s.ilen.toNat = 26) : DecodeRow s (fieldsWithReply s) none
  | value (d : AttrDesc) (hattr : attrOf s.cfg (s.ibuf.read 24) = some d) (hlen : s.ilen.toNat = 26 + d.w.bytes) :
      DecodeRow s { fieldsWithReply s with
        valValid := true, val := unmarshal (s.ibuf.range 25 d.w.bytes) d } none

/-- The rows of R175 that a known function code reaches. -/
theorem parseCommand_row {fn : FnCode} {s : State} (hfn : s.ibuf.read 23 = fn.byte) (hmin : 26 ≤ s.ilen.toNat) :
    ∃ g f, parseCommand fn { s with dec := receivedFields s } = ({ s with dec := g }, f) ∧ DecodeRow s g f := by
  have hreply : ({ s with dec := receivedFields s } : State).withReply fn.replyExpected =
      { s with dec := fieldsWithReply s } := by
    rw [fn.replyExpected_eq_decide, ← hfn]
    rfl
  have hcases := parseCommand_cases fn { s with dec := receivedFields s }
  rw [hreply] at hcases
  rcases hcases with ⟨hrun, -⟩ | ⟨d, hattr, ⟨hrun, -⟩ | ⟨hrun, -, hp⟩ | ⟨hrun, -⟩ | ⟨hrun, hok, hp, -⟩⟩
  · exact ⟨_, _, hrun, .rejected _ (by decide)⟩
  · exact ⟨_, _, hrun, .rejected _ (by decide)⟩
  · exact ⟨_, _, hrun, .empty (Nat.le_antisymm (Nat.sub_eq_zero_iff_le.1 hp) hmin)⟩
  · exact ⟨_, _, hrun, .rejected _ (by decide)⟩
  · have hwidth : s.ilen.toNat - 26 = d.w.bytes := payloadLenOk_width hok hp
    exact ⟨_, _, hrun, .value d hattr (by omega)⟩

/-- DECODE completes in a row of R175 and writes the decode group alone. -/
theorem exec_decode_row (s : State) :
    ∃ g f, exec .decode s = .next (({ s with dec := g } : State).complete f) ∧ DecodeRow s g f := by
  rcases frameCheck_cases s.dclear with ⟨h, -⟩ | ⟨h, -⟩ | ⟨h, -⟩ | ⟨h, -⟩ | ⟨h, hmin, -⟩
  · exact ⟨_, _, exec_decode_fails h, .malformed _ rfl⟩
  · exact ⟨_, _, exec_decode_fails h, .malformed _ rfl⟩
  · exact ⟨_, _, exec_decode_fails h, .malformed _ rfl⟩
  · exact ⟨_, _, exec_decode_fails h, .checksumMismatch⟩
  · rw [exec_decode_accepts h]
    rcases runFn_cases .frame (s.ibuf.read 23) { s with dec := receivedFields s } with ⟨fn, hfn, hrun⟩ | ⟨-, hrun⟩
    · obtain ⟨g, f, hparse, hrow⟩ := parseCommand_row hfn hmin
      exact ⟨g, f, hrun.trans (congrArg finish hparse), hrow⟩
    · exact ⟨_, _, hrun, .unknownFunction⟩

/-- Settles O28: the rows of R175, told apart by `ERR` and, without an error, by the length. -/
theorem decodeGroupAfterEachOutcome : Obligations.DecodeGroupAfterEachOutcome := by
  intro s t h fields reply
  obtain ⟨g, f, hrun, hrow⟩ := exec_decode_row s
  obtain rfl : ({ s with dec := g } : State).complete f = t := by simpa [hrun] using h
  refine ⟨execDecode_sameInputs h, rfl, rfl, rfl, ?_⟩
  cases hrow with
  | malformed f hf => simp [errOf, hf]
  | checksumMismatch => simp [errOf, Failure.code, fields]
  | unknownFunction => simp [errOf, Failure.code, fields]
  | rejected f hf => rcases hf with hf | hf | hf <;> simp [errOf, hf, fieldsWithReply, fields, reply]
  | empty hlen => simp [errOf, hlen, fieldsWithReply, fields, reply]
  | value d hattr hlen =>
    have hw : d.w.bytes ≠ 0 := by cases d.w <;> decide
    simp [errOf, hattr, hlen, hw, fieldsWithReply, fields, reply]

/-! ## What DECODE reads -/

/-- The states agree on the frame in `IBUF`, on `CFG` and on the decode group (R179). -/
structure SameFrame (s t : State) : Prop where
  ilen : s.ilen = t.ilen
  cfg : s.cfg = t.cfg
  dec : s.dec = t.dec
  read : ∀ i < s.ilen.toNat, s.ibuf.read i = t.ibuf.read i

/-- The operations end with the same decode group, `ERR` and `ERRSUB`. -/
def SameEnd (o p : Host.Outcome State Fault Refusal) : Prop :=
  ∃ u v, o = .next u ∧ p = .next v ∧ u.dec = v.dec ∧ u.err = v.err ∧ u.errsub = v.errsub

theorem finish_sameEnd {s t : State} (f : Option Failure) (h : s.dec = t.dec) :
    SameEnd (finish (s, f)) (finish (t, f)) :=
  ⟨_, _, rfl, rfl, h, rfl, rfl⟩

namespace SameFrame

variable {s t : State} (h : SameFrame s t)
include h

theorem range_eq {i n : Nat} (hin : i + n ≤ s.ilen.toNat) : s.ibuf.range i n = t.ibuf.range i n :=
  Memory.range_congr fun k hk => h.read (i + k) (by omega)

theorem computedCk_eq : s.computedCk = t.computedCk := by
  rw [State.computedCk, h.range_eq (by simp [State.frameLen]), h.cfg, State.frameLen, h.ilen]
  rfl

section

variable (hmin : 26 ≤ s.ilen.toNat)
include hmin

theorem magicOk_eq : s.magicOk = t.magicOk := by
  rw [State.magicOk, h.read 0 (by omega), h.read 1 (by omega), h.cfg]
  rfl

theorem receivedCk_eq : s.receivedCk = t.receivedCk := by
  rw [State.receivedCk, State.frameLen, h.read _ (by omega), h.ilen]
  rfl

theorem receivedFields_eq : receivedFields s = receivedFields t := by
  have hck : ck s.cfg.raw.ckAlg (s.ibuf.range 0 (s.ilen.toNat - 1)) =
      ck t.cfg.raw.ckAlg (t.ibuf.range 0 (t.ilen.toNat - 1)) := h.computedCk_eq
  have hrx : s.ibuf.read (s.ilen.toNat - 1) = t.ibuf.read (t.ilen.toNat - 1) := h.receivedCk_eq hmin
  have hid : (fun i : Fin 16 => s.ibuf.read (3 + i.val)) = fun i => t.ibuf.read (3 + i.val) :=
    funext fun i => h.read _ (by omega)
  have hpw : (fun j : Fin 4 => s.ibuf.read (19 + j.val)) = fun j => t.ibuf.read (19 + j.val) :=
    funext fun j => h.read _ (by omega)
  rw [receivedFields, hck, hrx, hid, hpw, h.read 2 (by omega), h.read 23 (by omega), h.read 24 (by omega), h.ilen]
  rfl

/-- The states with the fields received agree as well (R171). -/
theorem extracted : SameFrame { s with dec := receivedFields s } { t with dec := receivedFields t } :=
  ⟨h.ilen, h.cfg, h.receivedFields_eq hmin, h.read⟩

end

/-- The frame check rejects both states for the same reason, or accepts both (R142). -/
theorem frameCheck_agrees :
    (∃ u v f, frameCheck s = (u, some f) ∧ frameCheck t = (v, some f) ∧ u.dec = v.dec) ∨
    (frameCheck s = (s.withChecksums, none) ∧ frameCheck t = (t.withChecksums, none) ∧ 26 ≤ s.ilen.toNat) := by
  have hilen := h.ilen
  rcases frameCheck_cases s with ⟨hs, hlong⟩ | ⟨hs, hshort⟩ | ⟨hs, hmin, hmax, hmagic⟩ |
    ⟨hs, hmin, hmax, hmagic, hck⟩ | ⟨hs, hmin, hmax, hmagic, hck⟩
  · exact .inl ⟨_, _, _, hs, frameCheck_tooLong (hilen ▸ hlong), h.dec⟩
  · exact .inl ⟨_, _, _, hs, frameCheck_tooShort (hilen ▸ hshort), h.dec⟩
  · rw [h.magicOk_eq hmin] at hmagic
    exact .inl ⟨_, _, _, hs, frameCheck_badMagic (hilen ▸ hmin) (hilen ▸ hmax) hmagic, h.dec⟩
  · have hdec : s.withChecksums.dec = t.withChecksums.dec := by simp [h.dec, h.computedCk_eq, h.receivedCk_eq hmin]
    rw [h.magicOk_eq hmin] at hmagic
    rw [h.computedCk_eq, h.receivedCk_eq hmin] at hck
    exact .inl ⟨_, _, _, hs, frameCheck_checksumMismatch (hilen ▸ hmin) (hilen ▸ hmax) hmagic hck, hdec⟩
  · rw [h.magicOk_eq hmin] at hmagic
    rw [h.computedCk_eq, h.receivedCk_eq hmin] at hck
    exact .inr ⟨hs, frameCheck_accepts (hilen ▸ hmin) (hilen ▸ hmax) hmagic hck, hmin⟩

/-- A function code reads the payload only when the frame holds all of it (R173). -/
theorem parseCommand_sameEnd (fn : FnCode) : SameEnd (finish (parseCommand fn s)) (finish (parseCommand fn t)) := by
  have hreply : (s.withReply fn.replyExpected).dec = (t.withReply fn.replyExpected).dec := by simp [h.dec]
  have hattr : attrOf s.cfg s.dec.attr = attrOf t.cfg t.dec.attr := by rw [h.cfg, h.dec]
  cases ha : attrOf s.cfg s.dec.attr with
  | none =>
    rw [parseCommand_unknownAttribute fn ha, parseCommand_unknownAttribute fn (hattr ▸ ha)]
    exact finish_sameEnd _ hreply
  | some d =>
    rw [parseCommand_of_attr fn ha, parseCommand_of_attr fn (hattr ▸ ha), ← h.ilen]
    split
    case isTrue => exact finish_sameEnd _ hreply
    case isFalse hok =>
      split
      case isTrue => exact finish_sameEnd _ hreply
      case isFalse hp =>
        have hwidth : s.ilen.toNat - 26 = d.w.bytes := payloadLenOk_width (by simpa using hok) hp
        rw [h.range_eq (by omega : 25 + d.w.bytes ≤ s.ilen.toNat)]
        split
        · exact finish_sameEnd _ hreply
        · exact finish_sameEnd _ (by simp [h.dec])

theorem runFn_sameEnd (b : Byte) : SameEnd (runFn .frame b s) (runFn .frame b t) := by
  rcases runFn_cases .frame b s with ⟨fn, rfl, hrun⟩ | ⟨hb, hrun⟩
  · rw [hrun, runFn_byte]
    exact h.parseCommand_sameEnd fn
  · rw [hrun, runFn_unknown _ hb]
    exact finish_sameEnd _ h.dec

end SameFrame

/-- DECODE clears the decode group first, so the states need not agree on it (R170, R179). -/
theorem exec_decode_sameEnd {s t : State} (h : SameFrame s.dclear t.dclear) :
    SameEnd (exec .decode s) (exec .decode t) := by
  rcases h.frameCheck_agrees with ⟨u, v, f, hs, ht, hdec⟩ | ⟨hs, ht, hmin⟩
  · rw [exec_decode_fails hs, exec_decode_fails ht]
    exact finish_sameEnd _ hdec
  · have hfn : s.ibuf.read 23 = t.ibuf.read 23 := h.read 23 (by omega)
    rw [exec_decode_accepts hs, exec_decode_accepts ht, hfn]
    exact (h.extracted hmin).runFn_sameEnd _

/-- Settles O30: every stage of DECODE ends alike in states that hold the same frame. -/
theorem decodeReadsOnlyTheFrame : Obligations.DecodeReadsOnlyTheFrame := by
  intro s t hilen hcfg hread
  obtain ⟨u, v, hu, hv, hdec, herr, hsub⟩ := exec_decode_sameEnd (s := s) (t := t) ⟨hilen, hcfg, rfl, hread⟩
  obtain ⟨g, f, hrun, -⟩ := exec_decode_row s
  obtain rfl : ({ s with dec := g } : State).complete f = u := by simpa [hrun] using hu
  exact ⟨_, v, hu, hv, hdec, herr, hsub, execDecode_sameInputs hu, rfl⟩

end Sys2Proof.Machine
end

section
/-! PROOFS. The conversions of a value (spec/44_attributes.md R251..R256): the bytes of a word, what the range check says of
a value's bits, and that unmarshalling undoes marshalling. -/

namespace Sys2Proof.Machine

/-! ## The bytes of a word -/

theorem leNat_append (xs ys : List Byte) : leNat (xs ++ ys) = leNat xs + 256 ^ xs.length * leNat ys := by
  induction xs with
  | nil => simp [leNat]
  | cons x rest ih =>
    simp only [List.cons_append, leNat, ih, List.length_cons, Nat.pow_succ]
    ring

/-- The low `n` bytes of a word, the lowest first, are its low `8n` bits. -/
theorem leNat_lowBytes (v : Word) (n : Nat) :
    leNat ((List.range n).map fun k => v.extractLsb' (8 * k) 8) = v.toNat % 2 ^ (8 * n) := by
  induction n with
  | zero => simp [leNat, Nat.mod_one]
  | succ n ih =>
    have hpow : 2 ^ (8 * n) = 256 ^ n := Nat.pow_mul 2 8 n
    have hbyte : leNat [v.extractLsb' (8 * n) 8] = v.toNat / 256 ^ n % 256 := by
      simp [leNat, Nat.shiftRight_eq_div_pow, hpow]
    rw [List.range_succ, List.map_append, leNat_append, ih, List.map_singleton, hbyte, List.length_map,
      List.length_range, Nat.mul_succ, Nat.pow_add, hpow, Nat.mod_mul]

/-- The marshalled bytes, put back in little-endian order, are the low bits of the value (R254). -/
theorem leNat_marshal (v : Word) (d : AttrDesc) :
    leNat (if d.be then (marshal v d).reverse else marshal v d) = v.toNat % 2 ^ (8 * d.w.bytes) := by
  rw [← leNat_lowBytes, marshal]
  cases d.be <;> simp

/-- Unmarshalling a marshalled value extends its low `8W` bits (R253, R254). -/
theorem unmarshal_marshal_eq_extend (v : Word) (d : AttrDesc) :
    unmarshal (marshal v d) d =
      if d.signed then (v.setWidth (8 * d.w.bytes)).signExtend 32 else (v.setWidth (8 * d.w.bytes)).setWidth 32 := by
  have hlow : BitVec.ofNat (8 * d.w.bytes) (v.toNat % 2 ^ (8 * d.w.bytes)) = v.setWidth (8 * d.w.bytes) :=
    BitVec.eq_of_toNat_eq (by simp)
  rw [unmarshal, leNat_marshal, hlow]

/-! ## The range of a descriptor -/

/-- The descriptors of a configuration are well formed (R9, R251). -/
theorem attrOf_wf {c : Config} {a : Byte} {d : AttrDesc} (h : attrOf c a = some d) : d.wf = true := by
  obtain ⟨e, hfind, rfl⟩ := Option.map_eq_some_iff.1 h
  have hok := c.ok
  simp only [RawConfig.wf, Bool.and_eq_true, List.all_eq_true] at hok
  obtain ⟨⟨-, hall⟩, -⟩ := hok
  exact (hall e (List.mem_of_find?_eq_some hfind)).1

/-- A value in range of an unsigned descriptor fits in `8W` bits (R251, R255). -/
theorem inRange_unsigned {d : AttrDesc} {v : Word} (hd : d.wf = true) (hv : inRange v d = true)
    (hs : d.signed = false) : v.toNat < 2 ^ (8 * d.w.bytes) := by
  simp only [AttrDesc.wf, inRange, valueOf, hs, Bool.false_eq_true, if_false, Bool.and_eq_true,
    decide_eq_true_eq] at hd hv
  zify
  omega

/-- A value in range of a signed descriptor fits in `8W` bits of two's complement (R251, R255). -/
theorem inRange_signed {d : AttrDesc} {v : Word} (hd : d.wf = true) (hv : inRange v d = true) (hs : d.signed = true) :
    -(2 ^ (8 * d.w.bytes - 1) : Int) ≤ v.toInt ∧ v.toInt < 2 ^ (8 * d.w.bytes - 1) := by
  simp only [AttrDesc.wf, inRange, valueOf, hs, if_true, Bool.and_eq_true, decide_eq_true_eq] at hd hv
  omega

/-- Unmarshalling gives a value in range back (R256). -/
theorem unmarshal_marshal {d : AttrDesc} {v : Word} (hd : d.wf = true) (hv : inRange v d = true) :
    unmarshal (marshal v d) d = v := by
  rw [unmarshal_marshal_eq_extend]
  cases hs : d.signed with
  | false =>
    have hlt := inRange_unsigned hd hv hs
    refine BitVec.eq_of_toNat_eq ?_
    rw [if_neg Bool.false_ne_true, BitVec.toNat_setWidth, BitVec.toNat_setWidth, Nat.mod_eq_of_lt hlt,
      Nat.mod_eq_of_lt v.isLt]
  | true =>
    obtain ⟨hlo, hhi⟩ := inRange_signed hd hv hs
    have hw : 8 * d.w.bytes ≤ 32 := by cases d.w <;> decide
    refine BitVec.eq_of_toInt_eq ?_
    have hpow : ((2 ^ (8 * d.w.bytes) : Nat) : Int) = 2 * 2 ^ (8 * d.w.bytes - 1) := by cases d.w <;> decide
    rw [if_pos rfl, BitVec.toInt_signExtend_of_le hw, BitVec.toInt_setWidth,
      ← Int.bmod_bmod_of_dvd (Nat.pow_dvd_pow 2 hw), ← BitVec.toInt_eq_toNat_bmod]
    exact Int.bmod_eq_of_le_mul_two (by omega) (by omega)

end Sys2Proof.Machine
end

section
/-! PROOFS. ENCODE (spec/42_command_encoder.md R200..R210): what it leaves, the layout of the built frame in any buffer that
holds it, and the round trip through DECODE. -/

namespace Sys2Proof.Machine

/-! ## A byte string in a buffer -/

/-- The buffer holds the byte string from index `i` on. -/
def Memory.Holds (m : Memory) (i : Nat) (bs : List Byte) : Prop := m.range i bs.length = bs

namespace Memory

theorem holds_append {m : Memory} {i : Nat} {xs ys : List Byte} :
    m.Holds i (xs ++ ys) ↔ m.Holds i xs ∧ m.Holds (i + xs.length) ys := by
  rw [Holds, List.length_append, range_append]
  exact ⟨fun h => List.append_inj h (by simp), fun ⟨hx, hy⟩ => congrArg₂ (· ++ ·) hx hy⟩

theorem holds_singleton {m : Memory} {i : Nat} {b : Byte} : m.Holds i [b] ↔ m.read i = b := by
  simp [Holds, range]

theorem Holds.read {m : Memory} {i : Nat} {bs : List Byte} (h : m.Holds i bs) {k : Nat} (hk : k < bs.length) :
    m.read (i + k) = bs[k] := by
  rw [← getElem_range m i bs.length k (by simpa using hk)]
  exact List.getElem_of_eq h _

theorem Holds.congr {m m' : Memory} {i : Nat} {bs : List Byte} (h : m.Holds i bs)
    (hread : ∀ k < bs.length, m'.read (i + k) = m.read (i + k)) : m'.Holds i bs :=
  (range_congr hread).trans h

end Memory

/-! ## What ENCODE leaves -/

theorem Failure.code_ne_zero (f : Failure) : f.code ≠ 0 := by cases f <;> decide

/-- The operands after the credential checks that ENCODE builds a frame of (R202, R203, R204). -/
structure EncodableAs (s : State) (fn : FnCode) (d : AttrDesc) : Prop where
  fnByte : s.cmd.fn = fn.byte
  attrKnown : attrOf s.cfg s.cmd.attr = some d
  value : s.cmd.valPresent = true → inRange s.cmd.val d = true
  noValue : s.cmd.valPresent = false → fn.needsValue = false

/-- The state after a successful ENCODE (R206). -/
def State.encoded (s : State) (fn : FnCode) (d : AttrDesc) : State :=
  (s.eclear.withFrame fn (frameOf fn d s.cfg s.cmd)).complete none

/-- ENCODE after the function check, on a cleared encode group (R200). -/
theorem finish_buildCommand_cases {s t : State} {fn : FnCode} (hfn : s.cmd.fn = fn.byte)
    (h : finish (buildCommand fn s.eclear) = .next t) :
    (∃ f, t = s.eclear.complete (some f)) ∨ ∃ d, EncodableAs s fn d ∧ t = s.encoded fn d := by
  rcases buildCommand_cases fn s.eclear with
    ⟨hrun, -⟩ | ⟨d, hattr, ⟨hrun, -⟩ | ⟨hrun, -⟩ | ⟨hrun, hval⟩⟩ <;> rw [hrun] at h <;> cases h
  · exact .inl ⟨_, rfl⟩
  · exact .inl ⟨_, rfl⟩
  · exact .inl ⟨_, rfl⟩
  · refine .inr ⟨d, ⟨hfn, hattr, fun hp => ?_, fun hp => ?_⟩, rfl⟩
    · simpa [hp] using hval
    · simpa [hp] using hval

/-- ENCODE fails with a cleared encode group, or leaves the built frame (R200, R206). -/
theorem exec_encode_cases {s t : State} (h : exec .encode s = .next t) :
    (∃ f, t = s.eclear.complete (some f)) ∨ ∃ fn d, EncodableAs s fn d ∧ t = s.encoded fn d := by
  rcases execEncode_cases s with ⟨f, -, hrun⟩ | ⟨-, hrun⟩
  · exact .inl ⟨f, (Host.Outcome.next.inj (hrun.symm.trans h)).symm⟩
  · have hrest : runFn .command s.cmd.fn s.eclear = .next t := hrun.symm.trans h
    rcases runFn_cases .command s.cmd.fn s.eclear with ⟨fn, hfn, hgo⟩ | ⟨-, hgo⟩
    · exact (finish_buildCommand_cases hfn (hgo.symm.trans hrest)).imp_right fun hbuilt => ⟨fn, hbuilt⟩
    · exact .inl ⟨.badFn, (Host.Outcome.next.inj (hgo.symm.trans hrest)).symm⟩

/-- Without an error ENCODE leaves the built frame (R206). -/
theorem exec_encode_succeeds {s t : State} (h : exec .encode s = .next t) (herr : t.err = 0) :
    ∃ fn d, EncodableAs s fn d ∧ t = s.encoded fn d := by
  rcases exec_encode_cases h with ⟨f, rfl⟩ | hbuilt
  · exact absurd herr f.code_ne_zero
  · exact hbuilt

/-! ## The output -/

theorem length_frameOf_le (fn : FnCode) (d : AttrDesc) (cfg : Config) (c : CommandInputs) :
    (frameOf fn d cfg c).length ≤ 30 := by
  rw [length_frameOf]
  rcases width_cases d with h | h | h <;> split <;> omega

section Output

variable (s : State) (fn : FnCode) (d : AttrDesc)

/-- `OLEN` is the length of the built frame (R206). -/
theorem encoded_olen : (s.encoded fn d).enc.olen.toNat = (frameOf fn d s.cfg s.cmd).length := by
  have hle := length_frameOf_le fn d s.cfg s.cmd
  exact Nat.mod_eq_of_lt (by omega)

/-- `OBUF` holds the built frame (R206). -/
theorem encoded_holds : (s.encoded fn d).enc.obuf.Holds 0 (frameOf fn d s.cfg s.cmd) :=
  Memory.range_writeBytes [] 0 _ rfl

/-- The rest of `OBUF` is 0 (R206). -/
theorem encoded_tail {i : Nat} (hi : (s.encoded fn d).enc.olen.toNat ≤ i) : (s.encoded fn d).enc.obuf.read i = 0 := by
  rw [encoded_olen] at hi
  exact Memory.read_writeBytes_other [] 0 _ i (by omega)

end Output

/-- Settles O38: ENCODE fails with a cleared encode group, or `OBUF` holds the built frame. -/
theorem encodeOutput : Obligations.EncodeOutput := by
  intro s t h
  rcases exec_encode_cases h with ⟨f, rfl⟩ | ⟨fn, d, hok, rfl⟩
  · exact ⟨fun _ => ⟨rfl, rfl, fun _ => rfl⟩, fun herr => absurd herr f.code_ne_zero⟩
  · have holen := encoded_olen s fn d
    refine ⟨fun herr => absurd rfl herr,
      fun _ => ⟨d, fn, hok.attrKnown, hok.fnByte.symm, ?_, fun i => encoded_tail s fn d, ?_, ?_⟩⟩
    · rw [holen]
      exact encoded_holds s fn d
    · intro hp
      simp [holen, length_frameOf, hp]
    · intro hp
      rcases width_cases d with hw | hw | hw <;> simp [holen, length_frameOf, hp, hw]

/-! ## The layout of a built frame -/

/-- The fields of a command's frame at their offsets in a buffer (R101, R205, R207). -/
structure FrameLayout (m : Memory) (fn : FnCode) (d : AttrDesc) (cfg : Config) (c : CommandInputs) : Prop where
  magic0 : m.read 0 = cfg.raw.magic0
  magic1 : m.read 1 = cfg.raw.magic1
  version : m.read 2 = cfg.raw.version
  id : ∀ i : Fin 16, m.read (3 + i.val) = c.id[i]
  pw : ∀ j : Fin 4, m.read (19 + j.val) = if j.val < c.pwLen.toNat then c.pw[j] else cfg.raw.pad
  fnByte : m.read 23 = fn.byte
  attrId : m.read 24 = c.attr
  payload : m.Holds 25 (payloadField c d)
  checksum : m.read ((frameOf fn d cfg c).length - 1) = ck cfg.raw.ckAlg (m.range 0 ((frameOf fn d cfg c).length - 1))

/-- Password byte `j`, or `PAD` (R205). -/
theorem passwordField_getElem (c : CommandInputs) (pad : Byte) (j : Fin 4) :
    (passwordField c pad)[j.val] = if j.val < c.pwLen.toNat then c.pw[j] else pad := by
  match j with
  | 0 | 1 | 2 | 3 => rfl

/-- A buffer that holds a built frame has its fields at their offsets. -/
theorem Memory.Holds.layout {m : Memory} {fn : FnCode} {d : AttrDesc} {cfg : Config} {c : CommandInputs}
    (h : m.Holds 0 (frameOf fn d cfg c)) : FrameLayout m fn d cfg c := by
  obtain ⟨hassembled, hlast⟩ := Memory.holds_append.1 h
  have hlen : (frameOf fn d cfg c).length - 1 = (assemble fn d cfg c).length := by simp [frameOf]
  have hfields := hassembled
  simp only [assemble, Memory.holds_append, and_assoc, List.length_append, List.length_cons, List.length_nil,
    Vector.length_toList, length_passwordField, Nat.zero_add, Nat.reduceAdd] at hfields
  obtain ⟨hheader, hid, hpw, hcodes, hpayload⟩ := hfields
  refine ⟨hheader.read (k := 0) (by simp), hheader.read (k := 1) (by simp), hheader.read (k := 2) (by simp),
    fun i => ?_, fun j => ?_, hcodes.read (k := 0) (by simp), hcodes.read (k := 1) (by simp), hpayload, ?_⟩
  · exact (hid.read (by simp)).trans (by simp)
  · exact (hpw.read j.isLt).trans (passwordField_getElem c _ j)
  · rw [hlen, hassembled]
    simpa using Memory.holds_singleton.1 hlast

/-- Settles O39: `OBUF` holds the built frame, and so has its layout. -/
theorem encodedFrameLayout : Obligations.EncodedFrameLayout := by
  intro s t h herr
  obtain ⟨fn, d, hok, rfl⟩ := exec_encode_succeeds h herr
  obtain ⟨hm0, hm1, hver, hid, hpw, hfn, hattr, hpayload, hck⟩ := (encoded_holds s fn d).layout
  have holen := encoded_olen s fn d
  refine ⟨hm0, hm1, hver, hid, hpw, hfn.trans hok.fnByte.symm, hattr, fun hp => ?_, fun e he hp => ?_, ?_⟩
  · simp [holen, length_frameOf, hp]
  · obtain rfl : d = e := Option.some.inj (hok.attrKnown.symm.trans he)
    refine ⟨by simp [holen, length_frameOf, hp], ?_⟩
    simpa [Memory.Holds, payloadField, hp] using hpayload
  · rwa [holen]

/-! ## The round trip -/

section RoundTrip

variable {s u : State} {fn : FnCode} {d : AttrDesc} (hcfg : u.cfg = s.cfg)
  (hlen : u.ilen.toNat = (frameOf fn d s.cfg s.cmd).length) (hlayout : FrameLayout u.ibuf fn d s.cfg s.cmd)
include hcfg hlayout

/-- The id received is the command's, which is known (R203, R209). -/
theorem attrOf_of_layout (hok : EncodableAs s fn d) : attrOf u.cfg (receivedFields u).attr = some d := by
  rw [hcfg]
  exact (congrArg _ hlayout.attrId).trans hok.attrKnown

include hlen

/-- DECODE's frame check accepts a built frame (R142, R209). -/
theorem frameCheck_of_layout : frameCheck u.dclear = (u.dclear.withChecksums, none) := by
  have hmin : 26 ≤ (frameOf fn d s.cfg s.cmd).length := by rw [length_frameOf]; omega
  have hmax := length_frameOf_le fn d s.cfg s.cmd
  have hmagic : u.dclear.magicOk = true := by
    rw [magicOk_iff, State.dclear_cfg, hcfg]
    exact ⟨hlayout.magic0, hlayout.magic1⟩
  have hck : u.dclear.computedCk = u.dclear.receivedCk := by
    rw [State.computedCk, State.receivedCk, State.frameLen, State.dclear_cfg, State.dclear_ilen, hcfg, hlen]
    exact hlayout.checksum.symm
  rw [← hlen] at hmin hmax
  exact frameCheck_accepts hmin (Nat.le_trans hmax (by decide)) hmagic hck

/-- DECODE takes a built frame without a value (R173). -/
theorem parseCommand_of_layout_empty (hok : EncodableAs s fn d) (hp : s.cmd.valPresent = false) :
    parseCommand fn { u with dec := receivedFields u } =
      (({ u with dec := receivedFields u } : State).withReply fn.replyExpected, none) := by
  have hplen : u.ilen.toNat - 26 = 0 := by simp [hlen, length_frameOf, hp]
  rw [parseCommand_of_attr fn (attrOf_of_layout hcfg hlayout hok), hplen]
  simp [payloadLenOk, hok.noValue hp]

/-- DECODE takes a built frame with a value, and gives the value back (R173, R174, R256). -/
theorem parseCommand_of_layout_value (hok : EncodableAs s fn d) (hp : s.cmd.valPresent = true) :
    parseCommand fn { u with dec := receivedFields u } =
      ((({ u with dec := receivedFields u } : State).withReply fn.replyExpected).withValue s.cmd.val, none) := by
  have hplen : u.ilen.toNat - 26 = d.w.bytes := by simp [hlen, length_frameOf, hp]
  have hw : d.w.bytes ≠ 0 := by cases d.w <;> decide
  have hpayload : u.ibuf.range 25 d.w.bytes = marshal s.cmd.val d := by
    simpa [Memory.Holds, payloadField, hp] using hlayout.payload
  have hval : unmarshal (u.ibuf.range 25 d.w.bytes) d = s.cmd.val := by
    rw [hpayload, unmarshal_marshal (attrOf_wf hok.attrKnown) (hok.value hp)]
  rw [parseCommand_of_attr fn (attrOf_of_layout hcfg hlayout hok), hplen]
  simp [payloadLenOk, hw, hval, hok.value hp]

/-- DECODE of a built frame completes without error, with the fields received and, if there is one, the value (R209). -/
theorem exec_decode_of_layout (hok : EncodableAs s fn d) :
    ∃ v, exec .decode u = .next v ∧ completedWith v 0 0 ∧ v.dec =
      { receivedFields u with replyExpected := fn.replyExpected, valValid := s.cmd.valPresent,
                              val := if s.cmd.valPresent then s.cmd.val else 0 } := by
  have hrun : exec .decode u = finish (parseCommand fn { u with dec := receivedFields u }) := by
    rw [exec_decode_accepts (frameCheck_of_layout hcfg hlen hlayout), hlayout.fnByte, runFn_byte]
    rfl
  cases hp : s.cmd.valPresent with
  | false =>
    rw [parseCommand_of_layout_empty hcfg hlen hlayout hok hp] at hrun
    exact ⟨_, hrun, ⟨rfl, rfl, rfl, rfl⟩, rfl⟩
  | true =>
    rw [parseCommand_of_layout_value hcfg hlen hlayout hok hp] at hrun
    exact ⟨_, hrun, ⟨rfl, rfl, rfl, rfl⟩, rfl⟩

end RoundTrip

/-- Settles O42: the copied output is a built frame in `IBUF`, which DECODE takes apart again. -/
theorem decodeOfEncodeGivesTheCommand : Obligations.DecodeOfEncodeGivesTheCommand := by
  intro s t u h herr hcfg hilen hcopy
  obtain ⟨fn, d, hok, rfl⟩ := exec_encode_succeeds h herr
  have holen := encoded_olen s fn d
  have hlayout : FrameLayout u.ibuf fn d s.cfg s.cmd :=
    ((encoded_holds s fn d).congr fun k hk => hcopy _ (by omega)).layout
  obtain ⟨v, hrun, hdone, hdec⟩ := exec_decode_of_layout hcfg (hilen ▸ holen) hlayout hok
  refine ⟨v, hrun, hdone, ?_⟩
  rw [hdec]
  refine ⟨hlayout.fnByte.trans hok.fnByte.symm, hlayout.attrId, hlayout.version, ?_, fun j => ?_, rfl,
    fun hp => if_pos hp⟩
  · exact Vector.ext fun i hi => by simpa [receivedFields] using hlayout.id ⟨i, hi⟩
  · simpa [receivedFields] using hlayout.pw j

end Sys2Proof.Machine
end

section
/-! PROOFS. The function codes (spec/43_function_codes.md R230..R235): the reply flag of DECODE and of ENCODE. -/

namespace Sys2Proof.Machine

/-- A byte that is none of the five codes, as a range (R103, R109). -/
theorem unknownFn_iff (b : Byte) : b.toNat ∉ [1, 2, 3, 4, 5] ↔ b.toNat = 0 ∨ 5 < b.toNat := by
  simp only [List.mem_cons, List.not_mem_nil, or_false]
  omega

/-! ## DECODE -/

/-- The rows of R175 past the function check carry the reply flag of the code received (R170, R235). -/
theorem DecodeRow.replyExpected_eq {s : State} {g : DecodeGroup} {f : Option Failure} (hrow : DecodeRow s g f)
    (hpast : errOf f ∈ [0, 4, 5, 7]) : g.replyExpected = decide (s.ibuf.read 23 ≠ 0x02) := by
  cases hrow with
  | malformed f hf => exact absurd hpast (by simp [errOf, hf])
  | checksumMismatch => exact absurd hpast (by decide)
  | unknownFunction => exact absurd hpast (by decide)
  | rejected f hf => rfl
  | empty hlen => rfl
  | value d hattr hlen => rfl

/-- With an unknown code DECODE fails before the reply flag is set, in the frame check or at the function check
(R142, R176). -/
theorem exec_decode_unknownFn {s : State} (hfn : (s.ibuf.read 23).toNat ∉ [1, 2, 3, 4, 5]) :
    ∃ (u : State) (f : Failure), exec .decode s = .next (u.complete (some f)) ∧ u.dec.replyExpected = false := by
  rcases frameCheck_cases s.dclear with ⟨h, -⟩ | ⟨h, -⟩ | ⟨h, -⟩ | ⟨h, -⟩ | ⟨h, -⟩
  · exact ⟨_, _, exec_decode_fails h, rfl⟩
  · exact ⟨_, _, exec_decode_fails h, rfl⟩
  · exact ⟨_, _, exec_decode_fails h, rfl⟩
  · exact ⟨_, _, exec_decode_fails h, rfl⟩
  · exact ⟨_, _, (exec_decode_accepts h).trans (runFn_unknown .frame ((unknownFn_iff _).1 hfn) _), rfl⟩

/-! ## ENCODE -/

/-- The reply flag of a built frame is that of the code in the command (R206, R235). -/
theorem EncodableAs.encoded_replyExpected {s : State} {fn : FnCode} {d : AttrDesc} (hok : EncodableAs s fn d) :
    (s.encoded fn d).enc.replyExpected = decide (s.cmd.fn ≠ 0x02) := by
  rw [hok.fnByte, ← fn.replyExpected_eq_decide]
  rfl

/-- ENCODE builds a frame for one of the five codes only (R202). -/
theorem EncodableAs.fn_known {s : State} {fn : FnCode} {d : AttrDesc} (hok : EncodableAs s fn d) :
    s.cmd.fn.toNat ∈ [1, 2, 3, 4, 5] := by
  rw [hok.fnByte]
  cases fn <;> decide

/-- Settles O36: past the function check both operations set the flag from the code's byte; an unknown code gets past
neither function check, and the flag keeps the 0 it was cleared to. -/
theorem replyExpectedButForWrite : Obligations.ReplyExpectedButForWrite := by
  refine ⟨fun s t h => ⟨fun herr => ?_, fun hfn => ?_⟩, fun s t h => ⟨fun herr => ?_, fun hfn => ?_⟩⟩
  · obtain ⟨g, f, hrun, hrow⟩ := exec_decode_row s
    obtain rfl : ({ s with dec := g } : State).complete f = t := by simpa [hrun] using h
    simp [hrow.replyExpected_eq herr]
  · obtain ⟨u, f, hrun, hreply⟩ := exec_decode_unknownFn hfn
    obtain rfl : u.complete (some f) = t := by simpa [hrun] using h
    exact ⟨f.code_ne_zero, hreply⟩
  · obtain ⟨fn, d, hok, rfl⟩ := exec_encode_succeeds h herr
    simp [hok.encoded_replyExpected]
  · rcases exec_encode_cases h with ⟨f, rfl⟩ | ⟨fn, d, hok, -⟩
    · exact ⟨f.code_ne_zero, rfl⟩
    · exact absurd hok.fn_known hfn

end Sys2Proof.Machine
end

section
/-! PROOFS. The conversions in both byte orders (spec/44_attributes.md R253, R254) and the round trip of a value in range
(R256). -/

namespace Sys2Proof.Machine

/-- The number of a byte string fits in the bits of its bytes. -/
theorem leNat_lt (bs : List Byte) : leNat bs < 2 ^ (8 * bs.length) := by
  induction bs with
  | nil => simp [leNat]
  | cons b rest ih =>
    have hb : b.toNat < 256 := b.isLt
    rw [leNat, List.length_cons, Nat.mul_succ, Nat.pow_add]
    omega

/-- The payload's number: its bytes taken in the attribute's byte order (R253). -/
def payloadNat (b : List Byte) (d : AttrDesc) : Nat := leNat (if d.be then b.reverse else b)

theorem payloadNat_lt {b : List Byte} {d : AttrDesc} (hlen : b.length = d.w.bytes) :
    payloadNat b d < 2 ^ (8 * d.w.bytes) := by
  have hlen' : (if d.be then b.reverse else b).length = d.w.bytes := by split <;> simp [hlen]
  simpa only [hlen', payloadNat] using leNat_lt (if d.be then b.reverse else b)

theorem bits_le_word (d : AttrDesc) : 8 * d.w.bytes ≤ 32 := by cases d.w <;> decide

/-- An unsigned attribute's payload is zero-extended (R253). -/
theorem unmarshal_unsigned {b : List Byte} {d : AttrDesc} (hlen : b.length = d.w.bytes) (hs : d.signed = false) :
    (unmarshal b d).toNat = payloadNat b d := by
  have hlt := payloadNat_lt hlen
  have hword : payloadNat b d < 2 ^ 32 := hlt.trans_le (Nat.pow_le_pow_right Nat.two_pos (bits_le_word d))
  rw [unmarshal, ← payloadNat, hs, if_neg Bool.false_ne_true, BitVec.toNat_setWidth, BitVec.toNat_ofNat,
    Nat.mod_eq_of_lt hlt, Nat.mod_eq_of_lt hword]

/-- A signed attribute's payload is sign-extended: its top bit counts `-2^(8W-1)` (R253). -/
theorem unmarshal_signed {b : List Byte} {d : AttrDesc} (hlen : b.length = d.w.bytes) (hs : d.signed = true) :
    (unmarshal b d).toInt = if payloadNat b d < 2 ^ (8 * d.w.bytes - 1) then (payloadNat b d : Int)
      else (payloadNat b d : Int) - 2 ^ (8 * d.w.bytes) := by
  have hpow : 2 ^ (8 * d.w.bytes) = 2 * 2 ^ (8 * d.w.bytes - 1) := by cases d.w <;> decide
  have htop : 2 * payloadNat b d < 2 ^ (8 * d.w.bytes) ↔ payloadNat b d < 2 ^ (8 * d.w.bytes - 1) := by omega
  rw [unmarshal, ← payloadNat, hs, if_pos rfl, BitVec.toInt_signExtend_of_le (bits_le_word d),
    BitVec.toInt_eq_toNat_cond, BitVec.toNat_ofNat, Nat.mod_eq_of_lt (payloadNat_lt hlen), if_congr htop rfl rfl,
    Nat.cast_pow, Nat.cast_ofNat]

/-- Settles O43: the range of a well-formed descriptor keeps a value within the `8W` bits that its payload carries, so
extending them gives the value back. -/
theorem unmarshalOfMarshalIsTheValue : Obligations.UnmarshalOfMarshalIsTheValue :=
  fun _ _ hd hv => unmarshal_marshal hd hv

/-- Settles O44: length and number of the marshalled bytes, and the payload's number zero- or sign-extended. -/
theorem conversionsInBothByteOrders : Obligations.ConversionsInBothByteOrders :=
  ⟨fun d v => ⟨length_marshal v d, leNat_marshal v d⟩,
    fun _ _ hlen => ⟨unmarshal_unsigned hlen, unmarshal_signed hlen⟩⟩

end Sys2Proof.Machine
end

section
/-! PROOFS. The dispatch on the code in `OP` (spec/45_control_ops.md R281), `NOP` (R282) and the illegal codes (R283). -/

namespace Sys2Proof.Machine

/-! ## The dispatch -/

/-- With `BUSY = 1` and an empty agenda the step performs the operation that `OP` decodes to (R280, R286). -/
theorem step_pending {s : State} {i : Instr} (hb : s.busy = true) (ha : s.agenda = []) (hop : decodeOp s.op = i) :
    step s = exec i s := by
  rw [step, nextTurn, ha]
  dsimp only
  rw [codecTurn, if_pos hb, hop]

/-- The last arm of the dispatch takes the codes that are none of the five (R281). -/
theorem decodeOp_illegal {v : Byte} (hv : 5 ≤ v.toNat) : decodeOp v = .illegal v := by
  unfold decodeOp
  split
  case h_6 => rfl
  all_goals omega

/-- A byte is never too wide for the format OP (R100). -/
theorem decode_op_toNat (v : Byte) : decode .op v.toNat = .ok (decodeOp v) := by
  rw [decode, if_pos v.isLt, BitVec.ofNat_toNat, BitVec.setWidth_eq]

/-- Settles O7: the step performs what `OP` decodes to, and each of the six cases is an arm of the decoder. -/
theorem dispatchOnTheOperationCode : Obligations.DispatchOnTheOperationCode :=
  fun _ hb ha =>
    have run {i : Instr} := step_pending (i := i) hb ha
    ⟨fun h => run (congrArg decodeOp h), fun h => run (congrArg decodeOp h), fun h => run (congrArg decodeOp h),
      fun h => run (congrArg decodeOp h), fun h => run (congrArg decodeOp h), fun h => run (decodeOp_illegal h)⟩

/-! ## NOP and the illegal codes -/

/-- Settles O48: NOP is the completion of an operation that raised nothing. -/
theorem nopOnlyCompletes : Obligations.NopOnlyCompletes :=
  ⟨decode_op_toNat 0x00, fun _ => rfl⟩

/-- An illegal code is the completion with `ILLEGAL_OP` alone (R283). -/
theorem exec_illegal (v : Byte) (s : State) : exec (.illegal v) s = .next (s.complete (some .illegalOp)) := rfl

/-- `OP` reads back the code it holds (R72). -/
theorem memRead_op (s : State) : s.memRead 0x000 = s.op := memRead_row ⟨.OP, 0x000, 1, .rw⟩ Nat.one_pos rfl

/-- After a failed operation `STATUS` reads `ERRF = 1`, `DONE = 1`, `BUSY = 0` (R61). -/
theorem memRead_status_of_failure (s : State) (f : Failure) : (s.complete (some f)).memRead 0x001 = 0x06 := by
  have herr : (s.complete (some f)).err ≠ 0 := f.code_ne_zero
  rw [memRead_row ⟨.STATUS, 0x001, 1, .ro⟩ Nat.one_pos rfl]
  apply BitVec.eq_of_toNat_eq
  show (s.complete (some f)).statusByte.toNat = 6
  rw [State.statusByte_toNat, if_neg herr]
  rfl

/-- Settles O49: codes from 5 on decode to the illegal operation, whose step is the completion with `ILLEGAL_OP`; that
completion keeps `OP`, `FAULT` and both result groups. -/
theorem illegalCodeReportsIllegalOp : Obligations.IllegalCodeReportsIllegalOp := by
  refine ⟨fun v hv => ?decodes, exec_illegal, fun s v hv hb hop ha => ?steps⟩
  case decodes => rw [decode_op_toNat, decodeOp_illegal hv]
  case steps =>
    subst hop
    have hstep : step s = .next (s.complete (some .illegalOp)) := step_pending hb ha (decodeOp_illegal hv)
    exact ⟨_, hstep, ⟨rfl, rfl, rfl, rfl⟩, rfl, rfl, rfl, memRead_op _, memRead_status_of_failure s .illegalOp⟩

end Sys2Proof.Machine
end

section
/-! PROOFS. The order of the errors (spec/60_exceptions.md R303, R304): which failure each operation completes with. -/

namespace Sys2Proof.Machine

/-- The instruction completes with this failure, or without one (R280). -/
def Completes (i : Instr) (s : State) (f : Option Failure) : Prop := ∃ u : State, exec i s = .next (u.complete f)

/-- A completion leaves the codes of its failure in `ERR` and `ERRSUB` (R300, R301). -/
theorem Completes.completedWith {i : Instr} {s t : State} {f : Option Failure} (h : Completes i s f)
    (ht : exec i s = .next t) : completedWith t (errOf f).toNat (subOf f).toNat := by
  obtain ⟨u, hu⟩ := h
  obtain rfl : u.complete f = t := Host.Outcome.next.inj (hu.symm.trans ht)
  exact ⟨rfl, rfl, rfl, rfl⟩

theorem completes_of_finish {i : Instr} {s : State} {r : Ran} (h : exec i s = finish r) : Completes i s r.2 :=
  ⟨r.1, h⟩

/-! ## The function code -/

/-- A byte in 1..5 is one of the five codes (R103). -/
theorem exists_fnCode {b : Byte} (hb : ¬(b.toNat = 0 ∨ 5 < b.toNat)) : ∃ fn : FnCode, b = fn.byte := by
  rcases runFn_cases .frame b State.reset with ⟨fn, hfn, -⟩ | ⟨hunknown, -⟩
  · exact ⟨fn, hfn⟩
  · exact absurd hunknown hb

/-- The codes 2 and 3, WRITE and READ_WRITE, need a value (R173, R204). -/
theorem FnCode.needsValue_iff (fn : FnCode) :
    fn.needsValue = true ↔ fn.byte.toNat = 2 ∨ fn.byte.toNat = 3 := by
  cases fn <;> decide

/-! ## CKSUM, VALIDATE and DECODE -/

theorem cksum_completes_tooLong {s : State} (h : 256 < s.ilen.toNat) : Completes .cksum s (some .tooLong) :=
  ⟨s.dclear, execCksum_of_gt h⟩

theorem cksum_completes {s : State} (h : s.ilen.toNat ≤ 256) : Completes .cksum s none :=
  ⟨{ s with dec := { DecodeGroup.zero with ckCalc := ck s.cfg.raw.ckAlg (s.ibuf.range 0 s.ilen.toNat) } },
    execCksum_of_le h⟩

theorem validate_completes {s : State} {r : Ran} (h : frameCheck s.dclear = r) : Completes .validate s r.2 :=
  ⟨_, execValidate_of_frameCheck h⟩

theorem decode_completes_of_rejected {s u : State} {f : Failure} (h : frameCheck s.dclear = (u, some f)) :
    Completes .decode s (some f) :=
  ⟨u, exec_decode_fails h⟩

/-- A length fails if it is not the width where the code needs a value, or if it is neither 0 nor the width (R173). -/
theorem payloadLenOk_eq_false_iff {fn : FnCode} {p w : Nat} :
    payloadLenOk fn p w = false ↔ fn.needsValue = true ∧ p ≠ w ∨ p ≠ 0 ∧ p ≠ w := by
  cases hn : fn.needsValue with
  | false => simp [payloadLenOk, hn]
  | true =>
    simp only [payloadLenOk, hn, if_true, decide_eq_false_iff_not, true_and]
    exact ⟨.inl, fun h => h.elim id And.right⟩

section Accepted

variable {s : State} (hcheck : frameCheck s.dclear = (s.dclear.withChecksums, none))
include hcheck

theorem decode_completes_unknownFunction (hfn : (s.ibuf.read 23).toNat = 0 ∨ 5 < (s.ibuf.read 23).toNat) :
    Completes .decode s (some .unknownFunction) :=
  ⟨_, (exec_decode_accepts hcheck).trans (runFn_unknown .frame hfn _)⟩

variable {fn : FnCode} (hfn : s.ibuf.read 23 = fn.byte)
include hfn

/-- On an accepted frame with a known code DECODE completes as the code's own checks end (R170). -/
theorem decode_completes_of_fnCode :
    Completes .decode s (parseCommand fn { s with dec := receivedFields s }).2 := by
  apply completes_of_finish
  rw [exec_decode_accepts hcheck, hfn, runFn_byte]
  rfl

theorem decode_completes_unknownAttribute (hattr : attrOf s.cfg (s.ibuf.read 24) = none) :
    Completes .decode s (some .unknownAttribute) := by
  have h := decode_completes_of_fnCode hcheck hfn
  rwa [parseCommand_unknownAttribute fn hattr] at h

/-- With a known id the payload's length is checked, then the value if the payload is not empty (R173, R174). -/
theorem decode_completes_of_attr {d : AttrDesc} (hattr : attrOf s.cfg (s.ibuf.read 24) = some d) :
    Completes .decode s
      (if ((s.ibuf.read 23).toNat = 2 ∨ (s.ibuf.read 23).toNat = 3) ∧ s.ilen.toNat - 26 ≠ d.w.bytes then
        some .payloadLengthMismatch
      else if s.ilen.toNat - 26 ≠ 0 ∧ s.ilen.toNat - 26 ≠ d.w.bytes then some .payloadLengthMismatch
      else if s.ilen.toNat - 26 ≠ 0 ∧ inRange (unmarshal (s.ibuf.range 25 d.w.bytes) d) d = false then
        some .decodeValueRange
      else none) := by
  have h := decode_completes_of_fnCode hcheck hfn
  rw [parseCommand_of_attr fn hattr] at h
  simp only [payloadLenOk_eq_false_iff, fn.needsValue_iff, ← hfn, ite_or, apply_ite Prod.snd] at h
  by_cases hp : s.ilen.toNat - 26 = 0
  · simpa [hp] using h
  · simpa [hp] using h

end Accepted

/-- Settles O27: each condition, once those before it are excluded, selects one stage of the operations. -/
theorem decodeReportsTheFirstFailure : Obligations.DecodeReportsTheFirstFailure := by
  intro s
  obtain ⟨t, ht⟩ := exec_answers .decode s
  obtain ⟨v, hv⟩ := exec_answers .validate s
  obtain ⟨c, hc⟩ := exec_answers .cksum s
  refine ⟨t, v, c, ht, hv, hc, ?_⟩
  dsimp only
  split
  case isTrue hlong =>
    have hcheck := frameCheck_tooLong (s := s.dclear) hlong
    exact ⟨(decode_completes_of_rejected hcheck).completedWith ht, (validate_completes hcheck).completedWith hv,
      (cksum_completes_tooLong hlong).completedWith hc⟩
  case isFalse hlong =>
  have hmax := Nat.not_lt.1 hlong
  have hcksum : completedWith c 0 0 := (cksum_completes hmax).completedWith hc
  have rejected {u : State} {f : Failure} (hcheck : frameCheck s.dclear = (u, some f)) :
      completedWith t f.code.toNat f.sub.toNat ∧ completedWith v f.code.toNat f.sub.toNat ∧ completedWith c 0 0 :=
    ⟨(decode_completes_of_rejected hcheck).completedWith ht, (validate_completes hcheck).completedWith hv, hcksum⟩
  split
  case isTrue hshort => exact rejected (frameCheck_tooShort hshort)
  case isFalse hshort =>
  have hmin := Nat.not_lt.1 hshort
  split
  case isTrue hmagic =>
    exact rejected (frameCheck_badMagic hmin hmax (magicOk_eq_false_iff.2 (not_and_or.2 hmagic)))
  case isFalse hmagic =>
  have hmagicOk : s.dclear.magicOk = true := (magicOk_iff _).2 (not_or.1 hmagic |>.imp not_not.1 not_not.1)
  split
  case isTrue hck => exact rejected (frameCheck_checksumMismatch hmin hmax hmagicOk hck)
  case isFalse hck =>
  have hcheck : frameCheck s.dclear = (s.dclear.withChecksums, none) :=
    frameCheck_accepts hmin hmax hmagicOk (not_not.1 hck)
  refine ⟨(validate_completes hcheck).completedWith hv, hcksum, ?_⟩
  split
  case isTrue hunknown => exact (decode_completes_unknownFunction hcheck hunknown).completedWith ht
  case isFalse hknown =>
  obtain ⟨fn, hfn⟩ := exists_fnCode hknown
  split
  case h_1 hattr => exact (decode_completes_unknownAttribute hcheck hfn hattr).completedWith ht
  case h_2 d hattr =>
  have hdecode := decode_completes_of_attr hcheck hfn hattr
  split_ifs at hdecode ⊢
  · exact hdecode.completedWith ht
  · exact hdecode.completedWith ht
  · exact hdecode.completedWith ht
  · exact hdecode.completedWith ht

/-! ## ENCODE -/

/-- A failed credential check ends ENCODE (R201). -/
theorem encode_completes_of_credentialFailure {s : State} {f : Failure} (h : credentialFailure s.cmd = some f) :
    Completes .encode s (some f) := by
  rcases execEncode_cases s with ⟨g, hg, hrun⟩ | ⟨hnone, -⟩
  · obtain rfl : g = f := Option.some.inj (hg.symm.trans h)
    exact ⟨_, hrun⟩
  · simp [hnone] at h

section Credentials

variable {s : State} (hcred : credentialFailure s.cmd = none)
include hcred

/-- After the credential checks ENCODE goes on by the function code of the command (R200). -/
theorem exec_encode_of_credentials : exec .encode s = runFn .command s.cmd.fn s.eclear := by
  rcases execEncode_cases s with ⟨f, hf, -⟩ | ⟨-, hrun⟩
  · simp [hcred] at hf
  · exact hrun

theorem encode_completes_badFn (hfn : s.cmd.fn.toNat = 0 ∨ 5 < s.cmd.fn.toNat) : Completes .encode s (some .badFn) :=
  ⟨_, (exec_encode_of_credentials hcred).trans (runFn_unknown .command hfn _)⟩

variable {fn : FnCode} (hfn : s.cmd.fn = fn.byte)
include hfn

/-- With a known code ENCODE completes as the building of the frame ends (R200). -/
theorem encode_completes_of_fnCode : Completes .encode s (buildCommand fn s.eclear).2 := by
  apply completes_of_finish
  rw [exec_encode_of_credentials hcred, hfn, runFn_byte]
  rfl

theorem encode_completes_unknownAttr (hattr : attrOf s.cfg s.cmd.attr = none) :
    Completes .encode s (some .unknownAttr) := by
  have h := encode_completes_of_fnCode hcred hfn
  simpa [buildCommand, hattr] using h

/-- With a known id a needed value must be present, and a present value in range (R204). -/
theorem encode_completes_of_attr {d : AttrDesc} (hattr : attrOf s.cfg s.cmd.attr = some d) :
    Completes .encode s
      (if (s.cmd.fn.toNat = 2 ∨ s.cmd.fn.toNat = 3) ∧ s.cmd.valPresent = false then some .valueMissing
      else if s.cmd.valPresent = true ∧ inRange s.cmd.val d = false then some .encodeValueRange
      else none) := by
  have h := encode_completes_of_fnCode hcred hfn
  rw [hfn]
  simpa [buildCommand, hattr, fn.needsValue_iff, apply_ite Prod.snd] using h

end Credentials

/-- Settles O37: each condition, once those before it are excluded, selects one stage of ENCODE. -/
theorem encodeReportsTheFirstFailure : Obligations.EncodeReportsTheFirstFailure := by
  intro s
  obtain ⟨t, ht⟩ := exec_answers .encode s
  refine ⟨t, ht, ?_⟩
  dsimp only
  rcases credentialFailure_cases s.cmd with ⟨hcred, hid⟩ | ⟨hcred, hid, hpw⟩ | ⟨hcred, hid, hpw⟩
  · rw [if_pos hid]
    exact (encode_completes_of_credentialFailure hcred).completedWith ht
  · rw [if_neg (not_not.2 hid), if_pos hpw]
    exact (encode_completes_of_credentialFailure hcred).completedWith ht
  rw [if_neg (not_not.2 hid), if_neg (Nat.not_lt.2 hpw)]
  split
  case isTrue hunknown => exact (encode_completes_badFn hcred hunknown).completedWith ht
  case isFalse hknown =>
  obtain ⟨fn, hfn⟩ := exists_fnCode hknown
  split
  case h_1 hattr => exact (encode_completes_unknownAttr hcred hfn hattr).completedWith ht
  case h_2 d hattr =>
  have hencode := encode_completes_of_attr hcred hfn hattr
  split_ifs at hencode ⊢
  · exact hencode.completedWith ht
  · exact hencode.completedWith ht
  · exact hencode.completedWith ht

end Sys2Proof.Machine
end

section
/-! PROOFS. Reset (spec/70_reset_and_hazards.md R340..R342): what the block reads as after it, and an ENCODE started from
there. -/

namespace Sys2Proof.Machine

/-- A reset at the head of the agenda is asserted (R341). -/
theorem step_reset {s : State} {rest : List Event} (ha : s.agenda = .reset :: rest) :
    step s = .next ({ s with agenda := rest }).assertReset := by
  rw [step, nextTurn, ha]

theorem byteOf_zero {n : Nat} (k : Nat) : byteOf (0 : BitVec n) k = 0 := by
  apply BitVec.eq_of_toNat_eq
  simp [byteOf_toNat]

/-- Bytes that are all 0 read 0, past their end too. -/
theorem getD_replicate_zero (n k : Nat) : (Vector.replicate n (0 : Byte))[k]?.getD 0 = 0 := by
  rw [Vector.getElem?_replicate]
  split <;> rfl

/-- A flag register with no flag set reads 0 (R51, R61). -/
theorem threeBits_false : bitAt 2 false ||| bitAt 1 false ||| bitAt 0 false = 0 := by decide

/-- After reset every byte of every register and buffer is 0 (R340). -/
theorem assertReset_regByte (s : State) (r : Reg) (k : Nat) : s.assertReset.regByte r k = 0 := by
  cases r
  case STATUS | D_FLAGS => exact threeBits_false
  case ILEN | OLEN | E_VAL | D_VAL => exact byteOf_zero k
  case E_ID | D_ID => exact getD_replicate_zero 16 k
  case E_PW | D_PW => exact getD_replicate_zero 4 k
  all_goals rfl

/-- After reset every offset reads 0, reserved or not (R74, R340). -/
theorem assertReset_memRead (s : State) (a : Offset) : s.assertReset.memRead a = 0 := by
  unfold State.memRead
  split
  · rfl
  · exact assertReset_regByte s _ _

/-- An ENCODE started right after reset fails its first check: `E_IDLEN` is 0, not 16 (R201, R340). -/
theorem encode_completes_idLen_of_reset (s : State) (v : Byte) :
    Completes .encode (s.assertReset.start v) (some .idLen) :=
  have hcred : credentialFailure CommandInputs.zero = some .idLen := by decide
  encode_completes_of_credentialFailure hcred

/-- Settles O9: the step is the assertion of reset; the registers' bytes and the ENCODE started then are the lemmas above. -/
theorem resetClearsTheBlock : Obligations.ResetClearsTheBlock := by
  intro s rest ha
  refine ⟨_, step_reset ha, assertReset_memRead _, rfl, rfl, rfl, rfl, ?encode⟩
  case encode =>
    obtain ⟨u, hu⟩ := exec_answers .encode (({ s with agenda := rest }).assertReset.start 0x04)
    exact ⟨u, hu, (encode_completes_idLen_of_reset _ _).completedWith hu⟩

end Sys2Proof.Machine
end

section
/-! PROOFS. The encodings (spec/30_encoding.md R100..R111; spec/opcode_table.json): the decoder and the encoder of the three
formats undo each other, every word of its width decodes, and each word is one row of the opcode table. -/

namespace Sys2Proof

open Sys2Proof.Machine (decodeOp_illegal decode_op_toNat decode_busWord)

/-! ## The formats OP and FRAME_FN -/

theorem Instr.wf_illegal_iff (op : Byte) : (Instr.illegal op).wf = true ↔ 5 ≤ op.toNat := decide_eq_true_iff

theorem Instr.wf_fnUnknown_iff (place : FnPlace) (fn : Byte) :
    (Instr.fnUnknown place fn).wf = true ↔ fn.toNat = 0 ∨ 5 < fn.toNat := by
  simp [Instr.wf, isUnknownFn]

/-- The last arm of the function codes takes the bytes that are none of the five (R109). -/
theorem decodeFn_unknown (place : FnPlace) {fn : Byte} (hfn : fn.toNat = 0 ∨ 5 < fn.toNat) :
    decodeFn place fn = .fnUnknown place fn := by
  unfold decodeFn
  split
  case h_6 => rfl
  all_goals omega

/-- A byte is never too wide for the format FRAME_FN (R103). -/
theorem decode_fn_toNat (place : FnPlace) (fn : Byte) : decode (.fn place) fn.toNat = .ok (decodeFn place fn) := by
  rw [decode, if_pos fn.isLt, BitVec.ofNat_toNat, BitVec.setWidth_eq]

/-- The operation of an `OP` byte is well formed, and its word is that byte (R100). -/
theorem encode_decodeOp (op : Byte) : (decodeOp op).wf = true ∧ encode (decodeOp op) = (.op, op.toNat) := by
  unfold decodeOp
  split
  case h_6 => exact ⟨(Instr.wf_illegal_iff op).2 (by simp only [imp_false] at *; omega), rfl⟩
  all_goals next h => exact ⟨rfl, congrArg (Prod.mk Site.op) h.symm⟩

/-- The instruction of a function code is well formed, and its word is that byte (R103, R109). -/
theorem encode_decodeFn (place : FnPlace) (fn : Byte) :
    (decodeFn place fn).wf = true ∧ encode (decodeFn place fn) = (.fn place, fn.toNat) := by
  unfold decodeFn
  split
  case h_6 => exact ⟨(Instr.wf_fnUnknown_iff place fn).2 (by simp only [imp_false] at *; omega), rfl⟩
  all_goals next h => exact ⟨rfl, congrArg (Prod.mk (Site.fn place)) h.symm⟩

/-! ## The format BUS -/

/-- `WE` is bit 18 of the number of a bus word (R111). -/
theorem busWord_we_eq (w : BitVec 19) : w.getLsbD 18 = decide (2 ^ 18 ≤ w.toNat) := by
  have hw := w.isLt
  rw [BitVec.getLsbD, Nat.testBit_eq_decide_div_mod_eq, decide_eq_decide]
  omega

theorem busWord_addr_toNat (w : BitVec 19) : (w.extractLsb' 8 10).toNat = w.toNat / 2 ^ 8 % 2 ^ 10 := by
  simp [Nat.shiftRight_eq_div_pow]

theorem busWord_data_toNat (w : BitVec 19) : (w.extractLsb' 0 8).toNat = w.toNat % 2 ^ 8 := by
  simp

theorem decodeBus_write {w : BitVec 19} (hw : 2 ^ 18 ≤ w.toNat) :
    decodeBus w = .wr (w.extractLsb' 8 10) (w.extractLsb' 0 8) := by
  rw [decodeBus, busWord_we_eq, if_pos (decide_eq_true hw)]

theorem decodeBus_read {w : BitVec 19} (hw : w.toNat < 2 ^ 18) : decodeBus w = .rd (w.extractLsb' 8 10) := by
  rw [decodeBus, busWord_we_eq, decide_eq_false (Nat.not_le.2 hw), if_neg Bool.false_ne_true]

/-- The bus word of the write that a word decodes to is that word (R111). -/
theorem encode_decodeBus_write {w : BitVec 19} (hw : 2 ^ 18 ≤ w.toNat) : encode (decodeBus w) = (.bus, w.toNat) := by
  have hlt := w.isLt
  rw [decodeBus_write hw, encode, busWord, busWord_addr_toNat, busWord_data_toNat, Bool.toNat_true]
  exact congrArg (Prod.mk Site.bus) (by omega)

/-- The bus word of the read that a word decodes to is that word with its DATA bits 0 (R111). -/
theorem encode_decodeBus_read {w : BitVec 19} (hw : w.toNat < 2 ^ 18) :
    encode (decodeBus w) = (.bus, w.toNat - w.toNat % 256) := by
  rw [decodeBus_read hw, encode, busWord, busWord_addr_toNat, Bool.toNat_false, BitVec.ofNat_eq_ofNat, BitVec.toNat_zero]
  exact congrArg (Prod.mk Site.bus) (by omega)

theorem decodeBus_wf (w : BitVec 19) : (decodeBus w).wf = true := by
  unfold decodeBus
  split <;> rfl

/-! ## Encoder and decoder -/

/-- Settles O1, by the instruction: the two codes with an operand decode to themselves since they are well formed, an access
is rebuilt from the fields of its bus word, and every other instruction has one fixed word. -/
theorem decodeOfEncodeIsTheInstruction : Obligations.DecodeOfEncodeIsTheInstruction := by
  intro i hi
  cases i with
  | illegal op => exact (decode_op_toNat op).trans (congrArg _ (decodeOp_illegal ((Instr.wf_illegal_iff op).1 hi)))
  | fnUnknown place fn =>
    exact (decode_fn_toNat place fn).trans (congrArg _ (decodeFn_unknown place ((Instr.wf_fnUnknown_iff place fn).1 hi)))
  | wr addr data => exact decode_busWord true addr data
  | rd addr => exact decode_busWord false addr 0
  | nop | cksum | validate | decode | encode => rfl
  | read place | write place | readWrite place | increment place | decrement place => rfl

/-- The instruction of a word in a format, its bits above the format's width ignored. -/
def instrOfWord (site : Site) (w : Nat) : Instr :=
  match site with
  | .op => decodeOp (BitVec.ofNat 8 w)
  | .fn place => decodeFn place (BitVec.ofNat 8 w)
  | .bus => decodeBus (BitVec.ofNat 19 w)

theorem ite_ok_eq_ok_iff {p : Prop} [Decidable p] {a i : Instr} {e : DecodeError} :
    (if p then Except.ok a else .error e) = .ok i ↔ p ∧ a = i := by
  by_cases hp : p <;> simp [hp]

/-- A word decodes, and to the instruction of its format, exactly if it is no wider than the format (R75, R109, R281). -/
theorem decode_eq_ok_iff (site : Site) (w : Nat) (i : Instr) :
    decode site w = .ok i ↔ w < 2 ^ site.width ∧ instrOfWord site w = i := by
  cases site with
  | op => exact ite_ok_eq_ok_iff
  | fn place => exact ite_ok_eq_ok_iff
  | bus => exact ite_ok_eq_ok_iff

/-- Settles O2, by the format of the word; in a bus word `WE` tells a write, whose word is kept whole, from a read. -/
theorem encodeOfDecodeIsTheWord : Obligations.EncodeOfDecodeIsTheWord := by
  intro site w i h
  obtain ⟨hw, rfl⟩ := (decode_eq_ok_iff site w i).1 h
  have hmod : w % 2 ^ site.width = w := Nat.mod_eq_of_lt hw
  cases site with
  | op =>
    obtain ⟨hwf, henc⟩ := encode_decodeOp (BitVec.ofNat 8 w)
    exact ⟨hwf, .inl (henc.trans (congrArg (Prod.mk Site.op) hmod))⟩
  | fn place =>
    obtain ⟨hwf, henc⟩ := encode_decodeFn place (BitVec.ofNat 8 w)
    exact ⟨hwf, .inl (henc.trans (congrArg (Prod.mk (Site.fn place)) hmod))⟩
  | bus =>
    have hnat : (BitVec.ofNat 19 w).toNat = w := hmod
    refine ⟨decodeBus_wf _, ?_⟩
    rcases Nat.lt_or_ge w (2 ^ 18) with hread | hwrite
    · have hread' : (BitVec.ofNat 19 w).toNat < 2 ^ 18 := hnat.symm ▸ hread
      have henc := encode_decodeBus_read hread'
      rw [hnat] at henc
      exact .inr ⟨_, decodeBus_read hread', rfl, henc, hread⟩
    · have hwrite' : 2 ^ 18 ≤ (BitVec.ofNat 19 w).toNat := hnat.symm ▸ hwrite
      have henc := encode_decodeBus_write hwrite'
      rw [hnat] at henc
      exact .inl henc

/-- Settles O3: the width is the only condition on a word. -/
theorem everyWordOfItsWidthDecodes : Obligations.EveryWordOfItsWidthDecodes := by
  intro site w
  exact ⟨fun ⟨i, h⟩ => ((decode_eq_ok_iff site w i).1 h).1, fun hw => ⟨_, (decode_eq_ok_iff site w _).2 ⟨hw, rfl⟩⟩⟩

/-! ## The opcode table -/

/-- A BUS row stands for the words whose `WE` is the row's (R111). -/
theorem busRow_matches (w : BitVec 19) (mnemonic : String) (we : Bool) :
    OpcodeRow.matches ⟨mnemonic, .bus, we.toNat * 0x40000, 0x40000⟩ w.toNat = (w.getLsbD 18 == we) := by
  have hbit : w.toNat &&& 0x40000 = (w.getLsbD 18).toNat * 0x40000 := Nat.and_two_pow w.toNat 18
  rw [OpcodeRow.matches, hbit]
  cases w.getLsbD 18 <;> cases we <;> rfl

/-- `WE` picks one of the two BUS rows (R111). -/
theorem busRows_matches (w : BitVec 19) :
    (busRows.filter fun r => r.matches w.toNat).map (fun r => r.mnemonic) = [if w.getLsbD 18 then "WR" else "RD"] := by
  have hwr := busRow_matches w "WR" true
  have hrd := busRow_matches w "RD" false
  rw [Bool.toNat_true, Nat.one_mul] at hwr
  rw [Bool.toNat_false, Nat.zero_mul] at hrd
  simp only [busRows, List.filter, hwr, hrd]
  cases w.getLsbD 18 <;> rfl

/-- Settles O4: the rows of the two byte formats are compared on all 256 bytes, those of the bus by `WE`. -/
theorem everyWordMatchesOneTableRow : Obligations.EveryWordMatchesOneTableRow := by
  refine ⟨by decide +kernel, fun p => by cases p <;> decide +kernel, fun w => ?_⟩
  rw [busRows_matches, decodeBus]
  split <;> rfl

/-- Settles O5, word by word. -/
theorem wordsOfTheSpecDecode : Obligations.WordsOfTheSpecDecode :=
  ⟨rfl, rfl, rfl, rfl, rfl, rfl, rfl, rfl⟩

end Sys2Proof
end

section
/-! PROOFS. One step of the machine (spec/20_memory.md R72..R81; spec/45_control_ops.md R280, R281, R286): what a host write
can do, what an operation leaves, and what a step can be; the instruction that a step runs (R281), the placed words, reset
at power-on (R340), a pending operation seen by the host (R346) and performed at last (R286). -/

namespace Sys2Proof.Machine

/-! ## The turns -/

/-- A 19-bit bus word runs as the access it decodes to (R111). -/
theorem hostTurn_of_decode {w : Nat} {i : Instr} (h : decode .bus w = .ok i) (s : State) : hostTurn w s = exec i s := by
  rw [hostTurn, h]

/-- A wider word is refused (R75). -/
theorem hostTurn_of_wide {w : Nat} (h : 2 ^ 19 ≤ w) (s : State) : hostTurn w s = .refused (.noSuchTransaction w) := by
  rw [hostTurn, decode, if_neg (Nat.not_lt.2 h)]

theorem codecTurn_busy {s : State} (h : s.busy = true) : codecTurn s = exec (decodeOp s.op) s := if_pos h

theorem codecTurn_idle {s : State} (h : s.busy = false) : codecTurn s = .next s := by simp [codecTurn, h]

section Step

variable {s : State} {rest : List Event}

theorem step_bus {w : Nat} (ha : s.agenda = .bus w :: rest) : step s = hostTurn w { s with agenda := rest } := by
  rw [step, nextTurn, ha]

theorem step_codec (ha : s.agenda = .codec :: rest) : step s = codecTurn { s with agenda := rest } := by
  rw [step, nextTurn, ha]

theorem step_empty (ha : s.agenda = []) : step s = codecTurn s := by
  rw [step, nextTurn, ha]

end Step

/-- Settles O6: the head of the agenda names the turn, and each turn has one equation. -/
theorem stepRunsTheDecodedInstruction : Obligations.StepRunsTheDecodedInstruction :=
  ⟨fun _ _ _ _ ha hi => (step_bus ha).trans (hostTurn_of_decode hi _),
    fun _ _ _ ha hw => (step_bus ha).trans (hostTurn_of_wide hw _),
    fun _ _ ha hb => (step_codec ha).trans (codecTurn_busy hb),
    fun _ _ ha hb => (step_codec ha).trans (codecTurn_idle hb),
    fun _ ha hb => (step_empty ha).trans (codecTurn_busy hb),
    fun _ ha hb => (step_empty ha).trans (codecTurn_idle hb)⟩

theorem toOption_eq_some_iff {e : Except DecodeError Instr} {i : Instr} : e.toOption = some i ↔ e = .ok i := by
  cases e <;> simp [Except.toOption]

/-- Settles O8: the placed word is at the agenda's head, or in `OP` with the codec's turn there. -/
theorem placedWordRunsNext : Obligations.PlacedWordRunsNext := by
  refine ⟨fun s w i h => ?op, fun s w i h => ?bus⟩
  case op =>
    obtain ⟨-, rfl⟩ := (decode_eq_ok_iff .op w i).1 (toOption_eq_some_iff.1 h)
    exact (step_codec (s := s.withFetchWord 8 w) rfl).trans (codecTurn_busy rfl)
  case bus =>
    exact (step_bus (s := s.withFetchWord 24 w) rfl).trans (hostTurn_of_decode (toOption_eq_some_iff.1 h) _)

/-- Settles O10: the state at power-on is what asserting reset makes of it. -/
theorem powerOnStateIsZero : Obligations.PowerOnStateIsZero :=
  ⟨assertReset_memRead State.reset, rfl, rfl, rfl, rfl, rfl, rfl, rfl, rfl, fun _ => rfl⟩

/-! ## What a host write can do -/

/-- The states a host write can leave (R73, R74, R78, R79). -/
inductive WriteCase (s : State) (a : Offset) (v : Byte) : State → Prop where
  | fault (hb : s.busy = true) : WriteCase s a v { s with fault := true }
  | ignored (hb : s.busy = false) : WriteCase s a v s
  | start (hb : s.busy = false) (ha : a.toNat = 0) : WriteCase s a v (s.start v)
  | ilen (hb : s.busy = false) (n : Half) (ha : a.toNat = 4 ∨ a.toNat = 5) : WriteCase s a v { s with ilen := n }
  | cmd (hb : s.busy = false) (c : CommandInputs) (ha : 8 ≤ a.toNat ∧ a.toNat ≤ 0x27) :
      WriteCase s a v { s with cmd := c }
  | ibuf (hb : s.busy = false) (k : Nat) (hk : k < bufBytes) (ha : a.toNat = 0x100 + k) :
      WriteCase s a v { s with ibuf := s.ibuf.write k v }

/-- What the map says of the offsets of each writable register (R32). -/
theorem regMap_rw_offsets : ∀ r ∈ regMap, r.access = .rw →
    (r.reg = .OP ∧ r.base = 0 ∧ r.size = 1) ∨ (r.reg = .ILEN ∧ r.base = 4 ∧ r.size = 2) ∨
    (r.reg ∈ [Reg.E_FN, .E_ATTR, .E_FLAGS, .E_IDLEN, .E_PWLEN, .E_VAL, .E_ID, .E_PW] ∧ 8 ≤ r.base ∧
      r.base + r.size ≤ 0x28) ∨
    (r.reg = .IBUF ∧ r.base = 0x100 ∧ r.size = bufBytes) := by decide

/-- Writing one of the encoder's inputs writes nothing else. -/
theorem setRegByte_cmd {r : Reg} (hr : r ∈ [Reg.E_FN, .E_ATTR, .E_FLAGS, .E_IDLEN, .E_PWLEN, .E_VAL, .E_ID, .E_PW])
    (s : State) (k : Nat) (v : Byte) : ∃ c, s.setRegByte r k v = { s with cmd := c } := by
  simp only [List.mem_cons, List.not_mem_nil, or_false] at hr
  rcases hr with rfl | rfl | rfl | rfl | rfl | rfl | rfl | rfl <;> exact ⟨_, rfl⟩

theorem memWrite_case (s : State) (a : Offset) (v : Byte) : WriteCase s a v (s.memWrite a v) := by
  cases hb : s.busy with
  | true => rw [memWrite_busy hb]; exact .fault hb
  | false =>
    rcases memWrite_free hb a v with ⟨h, -⟩ | ⟨r, hrow, hrw, h⟩ <;> rw [h]
    · exact .ignored hb
    · obtain ⟨hr, hlo, hhi⟩ := rowAt_mem hrow
      rcases regMap_rw_offsets r hr hrw with ⟨hreg, hbase, hsize⟩ | ⟨hreg, hbase, hsize⟩ | ⟨hreg, hbase, hsize⟩ |
        ⟨hreg, hbase, hsize⟩
      · rw [hreg]; exact .start hb (by omega)
      · rw [hreg]; exact .ilen hb _ (by omega)
      · obtain ⟨c, hc⟩ := setRegByte_cmd hreg s (a.toNat - r.base) v
        rw [hc]; exact .cmd hb c (by omega)
      · rw [hreg]; exact .ibuf hb _ (by omega) (by omega)

/-! ## What a step can be -/

/-- The state in which the turn at the agenda's head is taken. -/
def State.taken (s : State) : State := { s with agenda := s.agenda.tail }

/-- The steps of the machine (R81, R286). -/
inductive StepCase (s : State) : State → Prop where
  | idle (hb : s.busy = false) : StepCase s s.taken
  | performed (t : State) (hb : s.busy = true) (ha : s.agenda = [] ∨ ∃ rest, s.agenda = .codec :: rest)
      (hrun : exec (decodeOp s.op) s.taken = .next t) : StepCase s t
  | written (a : Offset) (v : Byte) (rest : List Event) (ha : s.agenda = .bus (busWord true a v) :: rest) :
      StepCase s (s.taken.memWrite a v)
  | read (b : Byte) : StepCase s { s.taken with lastRead := some b }
  | reset (rest : List Event) (ha : s.agenda = .reset :: rest) : StepCase s s.taken.assertReset

theorem taken_of_cons {s : State} {e : Event} {rest : List Event} (ha : s.agenda = e :: rest) :
    s.taken = { s with agenda := rest } := by rw [State.taken, ha, List.tail_cons]

theorem taken_of_nil {s : State} (ha : s.agenda = []) : s.taken = s := by
  rw [State.taken, ha, List.tail_nil, ← ha]

/-- The codec's turn passes, or performs the pending operation (R280). -/
theorem codecTurn_case {s t : State} (ha : s.agenda = [] ∨ ∃ rest, s.agenda = .codec :: rest)
    (h : codecTurn s.taken = .next t) : StepCase s t := by
  cases hb : s.busy with
  | true => exact .performed t hb ha ((codecTurn_busy (s := s.taken) hb).symm.trans h)
  | false =>
    obtain rfl : s.taken = t := Host.Outcome.next.inj ((codecTurn_idle (s := s.taken) hb).symm.trans h)
    exact .idle hb

/-- The host's turn is a write of the offset and byte of its bus word, or a read (R72, R73, R111). -/
theorem hostTurn_cases {w : Nat} {s t : State} (h : hostTurn w s = .next t) :
    (∃ a v, w = busWord true a v ∧ t = s.memWrite a v) ∨ ∃ a, t = { s with lastRead := some (s.memRead a) } := by
  unfold hostTurn at h
  split at h
  case h_2 => cases h
  case h_1 i hi =>
    obtain ⟨hw, rfl⟩ := (decode_eq_ok_iff .bus w i).1 hi
    have hnat : (BitVec.ofNat 19 w).toNat = w := Nat.mod_eq_of_lt hw
    rcases Nat.lt_or_ge (BitVec.ofNat 19 w).toNat (2 ^ 18) with hread | hwrite
    · rw [instrOfWord, decodeBus_read hread] at h
      exact .inr ⟨_, (Host.Outcome.next.inj h).symm⟩
    · have henc := encode_decodeBus_write hwrite
      rw [decodeBus_write hwrite, hnat] at henc
      rw [instrOfWord, decodeBus_write hwrite] at h
      exact .inl ⟨_, _, (congrArg Prod.snd henc).symm, (Host.Outcome.next.inj h).symm⟩

/-- Everything a step can do. -/
theorem step_case {s t : State} (h : step s = .next t) : StepCase s t := by
  cases ha : s.agenda with
  | nil =>
    rw [step_empty ha] at h
    exact codecTurn_case (.inl ha) (by rwa [taken_of_nil ha])
  | cons e rest =>
    have htaken := taken_of_cons ha
    cases e with
    | codec =>
      rw [step_codec ha, ← htaken] at h
      exact codecTurn_case (.inr ⟨rest, ha⟩) h
    | reset =>
      rw [step_reset ha, ← htaken] at h
      cases h
      exact .reset rest ha
    | bus w =>
      rw [step_bus ha, ← htaken] at h
      rcases hostTurn_cases h with ⟨a, v, rfl, rfl⟩ | ⟨a, rfl⟩
      · exact .written a v rest ha
      · exact .read _

/-! ## The host and a pending operation -/

/-- While `BUSY = 1` a host access leaves the operation pending and every register as it was (R79, R346). -/
theorem hostTurn_busy {s : State} (hb : s.busy = true) {w : Nat} (hw : w < 2 ^ 19) :
    hostTurn w s = .next { s with fault := true } ∨ ∃ b, hostTurn w s = .next { s with lastRead := some b } := by
  have hrun : hostTurn w s = exec (instrOfWord .bus w) s :=
    hostTurn_of_decode ((decode_eq_ok_iff .bus w _).2 ⟨hw, rfl⟩) s
  obtain ⟨t, ht⟩ := exec_answers (instrOfWord .bus w) s
  rw [hrun, ht]
  rcases hostTurn_cases (hrun.trans ht) with ⟨a, v, -, rfl⟩ | ⟨a, rfl⟩
  · exact .inl (congrArg _ (memWrite_busy hb a v))
  · exact .inr ⟨_, rfl⟩

/-- Settles O18: the access sets `FAULT` or the byte the host holds, and no register shows either. -/
theorem accessWhileBusyShowsTheOldResults : Obligations.AccessWhileBusyShowsTheOldResults := by
  intro s w rest hb ha hw
  rw [step_bus ha]
  rcases hostTurn_busy (s := { s with agenda := rest }) hb hw with h | ⟨b, h⟩
  · exact ⟨_, h, fun _ => rfl, hb, rfl, rfl, rfl, rfl, rfl, rfl⟩
  · exact ⟨_, h, fun _ => rfl, hb, rfl, rfl, rfl, rfl, rfl, rfl⟩

/-- The codec's turn performs and completes a pending operation (R280). -/
theorem codecTurn_completes {s : State} (hb : s.busy = true) :
    ∃ t, codecTurn s = .next t ∧ t.busy = false ∧ t.done = true := by
  obtain ⟨r, hr⟩ := exec_decodeOp_finishes s.op s
  exact ⟨_, (codecTurn_busy hb).trans hr, rfl, rfl⟩

/-- With `BUSY = 1`, a step that takes an access leaves the operation pending; any other plain step performs it (R286). -/
theorem step_busy_cases {s : State} (hb : s.busy = true) (hplain : s.agenda.all Event.isPlain = true) :
    ∃ t, step s = .next t ∧
      (t.busy = false ∧ t.done = true ∨ t.busy = true ∧ ∃ e, s.agenda = e :: t.agenda) := by
  cases ha : s.agenda with
  | nil =>
    obtain ⟨t, ht, hdone⟩ := codecTurn_completes hb
    exact ⟨t, (step_empty ha).trans ht, .inl hdone⟩
  | cons e rest =>
    rw [ha, List.all_cons, Bool.and_eq_true] at hplain
    cases e with
    | codec =>
      obtain ⟨t, ht, hdone⟩ := codecTurn_completes (s := { s with agenda := rest }) hb
      exact ⟨t, (step_codec ha).trans ht, .inl hdone⟩
    | reset => exact absurd hplain.1 (by decide)
    | bus w =>
      rw [step_bus ha]
      rcases hostTurn_busy (s := { s with agenda := rest }) hb (of_decide_eq_true hplain.1) with h | ⟨b, h⟩
      · exact ⟨_, h, .inr ⟨hb, _, rfl⟩⟩
      · exact ⟨_, h, .inr ⟨hb, _, rfl⟩⟩

theorem core_run_succ {s t : State} (h : step s = .next t) (k : Nat) : core.run (k + 1) s = core.run k t := by
  have hstep : core.step s = .next t := h
  simp only [Host.Core.run, hstep]

/-- Each access before the codec's turn takes one entry off the agenda. -/
theorem pending_performed (s : State) (hb : s.busy = true) (hplain : s.agenda.all Event.isPlain = true) :
    ∃ k t, k ≤ s.agenda.length + 1 ∧ core.run k s = .next t ∧ t.busy = false ∧ t.done = true := by
  obtain ⟨t, hstep, hdone | ⟨hbusy, e, he⟩⟩ := step_busy_cases hb hplain
  · exact ⟨1, t, Nat.le_add_left 1 _, core_run_succ hstep 0, hdone⟩
  · rw [he, List.all_cons, Bool.and_eq_true] at hplain
    obtain ⟨k, u, hk, hrun, hdone⟩ := pending_performed t hbusy hplain.2
    exact ⟨k + 1, u, by simpa [he] using hk, (core_run_succ hstep k).trans hrun, hdone⟩
termination_by s.agenda.length
decreasing_by simp [he]

/-- Settles O56. -/
theorem pendingOperationIsPerformed : Obligations.PendingOperationIsPerformed := pending_performed

end Sys2Proof.Machine
end

section
/-! PROOFS. What an operation leaves (spec/10_state.md R60, R175; spec/60_exceptions.md R300, R306): the group it writes,
that a decode group is good after every outcome, and that every step keeps the state good and the output a valid frame. -/

namespace Sys2Proof.Machine

/-! ## Good groups -/

/-- The status registers of a good state (R34, R61, R78, R300, R301). -/
structure GoodStatus (busy done : Bool) (err errsub : Byte) : Prop where
  statusExclusive : ¬(busy = true ∧ done = true)
  errorListed : (err, errsub) ∈ legalErrors
  errorNeedsDone : done = false → err = 0 ∧ errsub = 0

/-- The encode group of a good state (R37, R43, R58, R206). -/
structure EncodeGroup.Good (e : EncodeGroup) : Prop where
  obufForm : e.obuf.isBuffer
  olenValues : e.olen.toNat ∈ [0, 26, 27, 28, 30]
  outputTail : ∀ i, e.olen.toNat ≤ i → e.obuf.read i = 0
  replyNeedsFrame : e.olen = 0 → e.replyExpected = false

/-- The decode group of a good state under its configuration (R47..R56, R175). -/
structure DecodeGroup.Good (g : DecodeGroup) (c : Config) : Prop where
  fieldsZero : g.fieldsValid = false → g = { DecodeGroup.zero with ckCalc := g.ckCalc, ckRx := g.ckRx }
  fieldsChecked : g.fieldsValid = true → g.ckCalc = g.ckRx ∧ g.plen.toNat ≤ 230
  replyCodes : g.replyExpected = true → g.fn.toNat ∈ [1, 3, 4, 5]
  valueZero : g.valValid = false → g.val = 0
  valueChecked : g.valValid = true → g.fieldsValid = true ∧
    ∃ d, attrOf c g.attr = some d ∧ inRange g.val d = true ∧ g.plen.toNat = d.w.bytes

/-- A state is good exactly when its input buffer, its status registers and its two result groups are. -/
theorem inv_iff (s : State) : s.Inv ↔
    s.ibuf.isBuffer ∧ GoodStatus s.busy s.done s.err s.errsub ∧ s.enc.Good ∧ s.dec.Good s.cfg := by
  constructor
  · rintro ⟨hibuf, hobuf, hexcl, hlisted, hdone, holen, htail, hreply, hzero, hchecked, hcodes, hval, hrange⟩
    exact ⟨hibuf, ⟨hexcl, hlisted, hdone⟩, ⟨hobuf, holen, htail, hreply⟩, ⟨hzero, hchecked, hcodes, hval, hrange⟩⟩
  · rintro ⟨hibuf, ⟨hexcl, hlisted, hdone⟩, ⟨hobuf, holen, htail, hreply⟩, ⟨hzero, hchecked, hcodes, hval, hrange⟩⟩
    exact ⟨hibuf, hobuf, hexcl, hlisted, hdone, holen, htail, hreply, hzero, hchecked, hcodes, hval, hrange⟩

/-! ### Status -/

theorem GoodStatus.zero : GoodStatus false false 0 0 := ⟨by decide, by decide, by decide⟩

theorem GoodStatus.started : GoodStatus true false 0 0 := ⟨by decide, by decide, by decide⟩

/-- The completion leaves `DONE` alone set, and the pair of codes of its failure (R280, R300, R301). -/
theorem GoodStatus.completed (f : Option Failure) : GoodStatus false true (errOf f) (subOf f) := by
  refine ⟨by decide, ?_, fun h => (Bool.false_ne_true h.symm).elim⟩
  rcases f with _ | f
  · decide
  · cases f <;> decide

/-! ### The encode group -/

theorem EncodeGroup.Good.zero : EncodeGroup.zero.Good :=
  ⟨Memory.isBuffer_nil, by decide, fun _ _ => rfl, fun _ => rfl⟩

/-- A built frame is 26 bytes without a value, and 27, 28 or 30 with one (R206). -/
theorem encoded_olen_mem (s : State) (fn : FnCode) (d : AttrDesc) :
    (s.encoded fn d).enc.olen.toNat ∈ [26, 27, 28, 30] := by
  rw [encoded_olen, length_frameOf]
  rcases width_cases d with hw | hw | hw <;> rw [hw] <;> split <;> decide

theorem EncodeGroup.Good.encoded (s : State) (fn : FnCode) (d : AttrDesc) : (s.encoded fn d).enc.Good := by
  have hmem := encoded_olen_mem s fn d
  refine ⟨Memory.isBuffer_writeBytes [] 0 _ Memory.isBuffer_nil ?_, List.mem_cons_of_mem 0 hmem,
    fun i => encoded_tail s fn d, fun h => ?_⟩
  · have hle := length_frameOf_le fn d s.cfg s.cmd
    rw [bufBytes]
    exact (Nat.zero_add _).trans_le (hle.trans (by decide))
  · rw [h] at hmem
    exact absurd hmem (by decide)

/-! ### The decode group -/

/-- Without extracted fields the checksum registers may hold anything (R143, R144). -/
theorem DecodeGroup.Good.checksums (c : Config) (x y : Byte) :
    ({ DecodeGroup.zero with ckCalc := x, ckRx := y } : DecodeGroup).Good c :=
  ⟨fun _ => rfl, fun h => (Bool.false_ne_true h).elim, fun h => (Bool.false_ne_true h).elim, fun _ => rfl,
    fun h => (Bool.false_ne_true h).elim⟩

theorem DecodeGroup.Good.zero (c : Config) : DecodeGroup.zero.Good c := .checksums c 0 0

section Accepted

variable {s : State} (hmin : 26 ≤ s.ilen.toNat) (hmax : s.ilen.toNat ≤ 256)
include hmin hmax

/-- The payload length of an accepted frame fits in `D_PLEN` (R50). -/
theorem receivedFields_plen_toNat : (receivedFields s).plen.toNat = s.ilen.toNat - 26 :=
  Nat.mod_eq_of_lt (by omega)

variable (hck : s.computedCk = s.receivedCk)
include hck

/-- The fields of an accepted frame with a reply flag that its code allows (R51, R171, R235). -/
theorem DecodeGroup.Good.received {reply : Bool} (hreply : reply = true → (s.ibuf.read 23).toNat ∈ [1, 3, 4, 5]) :
    ({ receivedFields s with replyExpected := reply } : DecodeGroup).Good s.cfg := by
  have hplen := receivedFields_plen_toNat hmin hmax
  exact ⟨fun h => (Bool.false_ne_true h.symm).elim, fun _ => ⟨hck, hplen.trans_le (by omega)⟩, hreply, fun _ => rfl,
    fun h => (Bool.false_ne_true h).elim⟩

/-- The same with a value of the attribute's width and range (R173, R174). -/
theorem DecodeGroup.Good.value {reply : Bool} (hreply : reply = true → (s.ibuf.read 23).toNat ∈ [1, 3, 4, 5])
    {d : AttrDesc} {v : Word} (hattr : attrOf s.cfg (s.ibuf.read 24) = some d) (hv : inRange v d = true)
    (hlen : s.ilen.toNat - 26 = d.w.bytes) :
    ({ receivedFields s with replyExpected := reply, valValid := true, val := v } : DecodeGroup).Good s.cfg := by
  have hplen := receivedFields_plen_toNat hmin hmax
  exact ⟨fun h => (Bool.false_ne_true h.symm).elim, fun _ => ⟨hck, hplen.trans_le (by omega)⟩, hreply,
    fun h => (Bool.false_ne_true h.symm).elim, fun _ => ⟨rfl, d, hattr, hv, hplen.trans hlen⟩⟩

end Accepted

/-! ## What an operation leaves -/

/-- A code that expects a reply is not WRITE (R235). -/
theorem FnCode.byte_mem_of_replyExpected {fn : FnCode} (h : fn.replyExpected = true) :
    fn.byte.toNat ∈ [1, 3, 4, 5] := by
  cases fn with
  | write => cases h
  | read | readWrite | increment | decrement => decide

/-- The operation has completed, has written its result group and no other, and the decode group it wrote is good. -/
inductive OperationResult (s : State) : Instr → State → Prop where
  | control (i : Instr) (hi : i = .nop ∨ ∃ op, i = .illegal op) (f : Option Failure) :
      OperationResult s i (s.complete f)
  | decodes (i : Instr) (hi : i ∈ [Instr.cksum, .validate, .decode]) (g : DecodeGroup) (hg : g.Good s.cfg)
      (f : Option Failure) : OperationResult s i (({ s with dec := g } : State).complete f)
  | encodeFails (f : Failure) : OperationResult s .encode (s.eclear.complete (some f))
  | encodes (fn : FnCode) (d : AttrDesc) (hok : EncodableAs s fn d) : OperationResult s .encode (s.encoded fn d)

theorem cksum_result (s : State) : ∃ t, exec .cksum s = .next t ∧ OperationResult s .cksum t := by
  rcases Nat.lt_or_ge 256 s.ilen.toNat with h | h
  · exact ⟨_, execCksum_of_gt h, .decodes .cksum (by simp) _ (.zero _) (some .tooLong)⟩
  · exact ⟨_, execCksum_of_le h, .decodes .cksum (by simp) _ (.checksums _ _ 0) none⟩

/-- The frame check rejects the input and leaves at most the checksum registers, or accepts it (R142). -/
theorem frameCheck_result (s : State) :
    (∃ g f, frameCheck s.dclear = ({ s with dec := g }, some f) ∧ g.Good s.cfg) ∨
    (frameCheck s.dclear = (s.dclear.withChecksums, none) ∧ 26 ≤ s.ilen.toNat ∧ s.ilen.toNat ≤ 256 ∧
      s.computedCk = s.receivedCk) := by
  rcases frameCheck_cases s.dclear with ⟨h, -⟩ | ⟨h, -⟩ | ⟨h, -⟩ | ⟨h, -⟩ | ⟨h, hmin, hmax, -, hck⟩
  · exact .inl ⟨_, _, h, .zero _⟩
  · exact .inl ⟨_, _, h, .zero _⟩
  · exact .inl ⟨_, _, h, .zero _⟩
  · exact .inl ⟨_, _, h, .checksums _ _ _⟩
  · exact .inr ⟨h, hmin, hmax, hck⟩

theorem validate_result (s : State) : ∃ t, exec .validate s = .next t ∧ OperationResult s .validate t := by
  rcases frameCheck_result s with ⟨g, f, h, hg⟩ | ⟨h, -⟩
  · exact ⟨_, execValidate_of_frameCheck h, .decodes .validate (by simp) g hg (some f)⟩
  · exact ⟨_, execValidate_of_frameCheck h, .decodes .validate (by simp) _ (.checksums _ _ _) none⟩

section Accepted

variable {s : State} (hmin : 26 ≤ s.ilen.toNat) (hmax : s.ilen.toNat ≤ 256) (hck : s.computedCk = s.receivedCk)
include hmin hmax hck

/-- On an accepted frame each code leaves good fields, with a value that has passed its checks or without one (R170). -/
theorem parseCommand_good {fn : FnCode} (hfn : s.ibuf.read 23 = fn.byte) :
    ∃ g f, parseCommand fn { s with dec := receivedFields s } = ({ s with dec := g }, f) ∧ g.Good s.cfg := by
  have hreply : fn.replyExpected = true → (s.ibuf.read 23).toNat ∈ [1, 3, 4, 5] :=
    fun h => hfn ▸ FnCode.byte_mem_of_replyExpected h
  have hgood := DecodeGroup.Good.received hmin hmax hck hreply
  rcases parseCommand_cases fn { s with dec := receivedFields s } with
    ⟨h, -⟩ | ⟨d, hattr, ⟨h, -⟩ | ⟨h, -⟩ | ⟨h, -⟩ | ⟨h, hlen, hp, hv⟩⟩
  · exact ⟨_, _, h, hgood⟩
  · exact ⟨_, _, h, hgood⟩
  · exact ⟨_, _, h, hgood⟩
  · exact ⟨_, _, h, hgood⟩
  · exact ⟨_, _, h, DecodeGroup.Good.value hmin hmax hck hreply hattr hv (payloadLenOk_width hlen hp)⟩

end Accepted

theorem decode_result (s : State) : ∃ t, exec .decode s = .next t ∧ OperationResult s .decode t := by
  rcases frameCheck_result s with ⟨g, f, h, hg⟩ | ⟨h, hmin, hmax, hck⟩
  · exact ⟨_, exec_decode_fails h, .decodes .decode (by simp) g hg (some f)⟩
  · have hrun := exec_decode_accepts h
    rcases runFn_cases .frame (s.ibuf.read 23) { s with dec := receivedFields s } with ⟨fn, hfn, hgo⟩ | ⟨-, hgo⟩
    · obtain ⟨g, f, hparse, hg⟩ := parseCommand_good hmin hmax hck hfn
      exact ⟨_, hrun.trans (hgo.trans (congrArg finish hparse)), .decodes .decode (by simp) g hg f⟩
    · have hg := DecodeGroup.Good.received hmin hmax hck (reply := false) fun h => (Bool.false_ne_true h).elim
      exact ⟨_, hrun.trans hgo, .decodes .decode (by simp) _ hg (some .unknownFunction)⟩

theorem encode_result (s : State) : ∃ t, exec .encode s = .next t ∧ OperationResult s .encode t := by
  obtain ⟨t, ht⟩ := exec_answers .encode s
  rcases exec_encode_cases ht with ⟨f, rfl⟩ | ⟨fn, d, hok, rfl⟩
  · exact ⟨_, ht, .encodeFails f⟩
  · exact ⟨_, ht, .encodes fn d hok⟩

/-- Everything an operation can leave (R60, R280). -/
theorem operation_result {i : Instr} (hi : isOperation i = true) (s : State) :
    ∃ t, exec i s = .next t ∧ OperationResult s i t := by
  cases i with
  | nop => exact ⟨_, rfl, .control _ (.inl rfl) none⟩
  | illegal op => exact ⟨_, rfl, .control _ (.inr ⟨op, rfl⟩) (some .illegalOp)⟩
  | cksum => exact cksum_result s
  | validate => exact validate_result s
  | decode => exact decode_result s
  | encode => exact encode_result s
  | read place | write place | readWrite place | increment place | decrement place => cases hi
  | fnUnknown place fn => cases hi
  | wr a v => cases hi
  | rd a => cases hi

/-- Every `OP` byte selects an operation (R281). -/
theorem isOperation_decodeOp (op : Byte) : isOperation (decodeOp op) = true := by
  unfold decodeOp
  split <;> rfl

/-- The codec performs one of the operations (R280). -/
theorem operationResult_of_exec {op : Byte} {s t : State} (h : exec (decodeOp op) s = .next t) :
    OperationResult s (decodeOp op) t := by
  obtain ⟨u, hu, hresult⟩ := operation_result (isOperation_decodeOp op) s
  obtain rfl : u = t := Host.Outcome.next.inj (hu.symm.trans h)
  exact hresult

/-! ## Every step keeps the state good -/

theorem inv_assertReset (s : State) : s.assertReset.Inv :=
  (inv_iff _).2 ⟨Memory.isBuffer_nil, .zero, .zero, .zero _⟩

theorem OperationResult.inv {s t : State} {i : Instr} (h : OperationResult s i t) (hs : s.Inv) : t.Inv := by
  obtain ⟨hibuf, -, henc, hdec⟩ := (inv_iff s).1 hs
  cases h with
  | control _ _ f => exact (inv_iff _).2 ⟨hibuf, .completed f, henc, hdec⟩
  | decodes _ _ g hg f => exact (inv_iff _).2 ⟨hibuf, .completed f, henc, hg⟩
  | encodeFails f => exact (inv_iff _).2 ⟨hibuf, .completed (some f), .zero, hdec⟩
  | encodes fn d _ => exact (inv_iff _).2 ⟨hibuf, .completed none, .encoded s fn d, hdec⟩

theorem WriteCase.inv {s t : State} {a : Offset} {v : Byte} (h : WriteCase s a v t) (hs : s.Inv) : t.Inv := by
  obtain ⟨hibuf, hstatus, henc, hdec⟩ := (inv_iff s).1 hs
  cases h with
  | ignored _ => exact hs
  | start _ _ => exact (inv_iff _).2 ⟨hibuf, .started, henc, hdec⟩
  | ibuf _ k hk _ => exact (inv_iff _).2 ⟨Memory.isBuffer_write v hibuf hk, hstatus, henc, hdec⟩
  | fault _ => exact (inv_iff _).2 ⟨hibuf, hstatus, henc, hdec⟩
  | ilen _ n _ => exact (inv_iff _).2 ⟨hibuf, hstatus, henc, hdec⟩
  | cmd _ c _ => exact (inv_iff _).2 ⟨hibuf, hstatus, henc, hdec⟩

/-- Settles O53, by what the step is: an operation leaves good groups and a listed error, a write stores within the input
buffer or starts an operation, and reset leaves zeros. -/
theorem stepKeepsTheStateGood : Obligations.StepKeepsTheStateGood := by
  intro s t hs h
  have htaken : s.taken.Inv := (inv_iff _).2 ((inv_iff s).1 hs)
  cases step_case h with
  | idle _ => exact htaken
  | performed _ _ _ hrun => exact (operationResult_of_exec hrun).inv htaken
  | written a v _ _ => exact (memWrite_case s.taken a v).inv htaken
  | read b => exact (inv_iff _).2 ((inv_iff s).1 hs)
  | reset _ _ => exact inv_assertReset _

/-! ## Every step keeps the output a valid frame -/

theorem outputFrameOk_of_olen_zero {s : State} (h : s.enc.olen = 0) : s.OutputFrameOk := by
  intro hne
  rw [h] at hne
  exact absurd rfl hne

/-- A built frame has its magic, version and checksum at their offsets (R101, R207). -/
theorem encoded_outputFrameOk (s : State) (fn : FnCode) (d : AttrDesc) : (s.encoded fn d).OutputFrameOk := by
  intro _
  have hlayout := (encoded_holds s fn d).layout
  have hmin : 26 ≤ (s.encoded fn d).enc.olen.toNat := by
    rw [encoded_olen, length_frameOf]
    exact Nat.le_add_right 26 _
  refine ⟨hmin, hlayout.magic0, hlayout.magic1, hlayout.version, ?_⟩
  rw [encoded_olen]
  exact hlayout.checksum.symm

theorem OperationResult.outputFrameOk {s t : State} {i : Instr} (h : OperationResult s i t) (hs : s.OutputFrameOk) :
    t.OutputFrameOk := by
  cases h with
  | control _ _ f => exact hs
  | decodes _ _ g _ f => exact hs
  | encodeFails f => exact outputFrameOk_of_olen_zero rfl
  | encodes fn d _ => exact encoded_outputFrameOk s fn d

theorem WriteCase.outputFrameOk {s t : State} {a : Offset} {v : Byte} (h : WriteCase s a v t) (hs : s.OutputFrameOk) :
    t.OutputFrameOk := by
  cases h <;> exact hs

/-- Settles O54: only ENCODE, which builds a frame or clears the group, and reset write the output. -/
theorem stepKeepsTheOutputFrameValid : Obligations.StepKeepsTheOutputFrameValid := by
  intro s t hs h
  have htaken : s.taken.OutputFrameOk := hs
  cases step_case h with
  | idle _ => exact htaken
  | performed _ _ _ hrun => exact (operationResult_of_exec hrun).outputFrameOk htaken
  | written a v _ _ => exact (memWrite_case s.taken a v).outputFrameOk htaken
  | read b => exact htaken
  | reset _ _ => exact outputFrameOk_of_olen_zero rfl

/-- Settles O52: the state at power-on is what asserting reset makes of it. -/
theorem resetIsGood : Obligations.ResetIsGood :=
  ⟨inv_assertReset State.reset, outputFrameOk_of_olen_zero rfl⟩

end Sys2Proof.Machine
end

section
/-! PROOFS. Frames (spec/10_state.md R60; spec/60_exceptions.md R306): what the operations and the function codes leave
unchanged, as state and as the host reads it, and which steps change each part of the block's state. -/

namespace Sys2Proof.Machine

/-! ## The frame of the operations -/

section Operation

variable {s t : State} {i : Instr} (h : OperationResult s i t)
include h

theorem OperationResult.sameInputs : sameInputs s t := by
  cases h <;> exact ⟨rfl, rfl, rfl, rfl, rfl, rfl, rfl, rfl⟩

theorem OperationResult.completed : t.busy = false ∧ t.done = true := by
  cases h <;> exact ⟨rfl, rfl⟩

/-- Only CKSUM, VALIDATE and DECODE write the decode group (R60). -/
theorem OperationResult.dec_eq (hi : i ∉ [Instr.cksum, .validate, .decode]) : t.dec = s.dec := by
  cases h with
  | decodes i hmem g hg f => exact absurd hmem hi
  | control i hi f => rfl
  | encodeFails f => rfl
  | encodes fn d hok => rfl

/-- Only ENCODE writes the encode group (R60). -/
theorem OperationResult.enc_eq (hi : i ≠ .encode) : t.enc = s.enc := by
  cases h with
  | control i hi f => rfl
  | decodes i hmem g hg f => rfl
  | encodeFails f => exact absurd rfl hi
  | encodes fn d hok => exact absurd rfl hi

end Operation

/-! ## The frame as the host reads it -/

/-- The completion registers. -/
def Reg.isCompletion (r : Reg) : Bool := decide (r ∈ [Reg.STATUS, .ERR, .ERRSUB])

/-- The registers of the decode group. -/
def Reg.isDecode (r : Reg) : Bool :=
  decide (r ∈ [Reg.D_VER, .D_FN, .D_ATTR, .D_PLEN, .D_FLAGS, .D_CKCALC, .D_CKRX, .D_VAL, .D_ID, .D_PW])

/-- The registers and the buffer of the encode group. -/
def Reg.isEncode (r : Reg) : Bool := decide (r ∈ [Reg.OLEN, .O_FLAGS, .OBUF])

/-- A register outside the completion registers and the two groups shows an input or `OP`. -/
theorem regByte_eq_of_sameInputs {s t : State} (h : sameInputs s t) {r : Reg} (hc : r.isCompletion = false)
    (hd : r.isDecode = true → t.dec = s.dec) (he : r.isEncode = true → t.enc = s.enc) (k : Nat) :
    s.regByte r k = t.regByte r k := by
  obtain ⟨hop, -, hilen, hcmd, hibuf, -⟩ := h
  cases r
  case STATUS | ERR | ERRSUB => cases hc
  case OLEN | O_FLAGS | OBUF => simp only [State.regByte, he rfl]
  case D_VER | D_FN | D_ATTR | D_PLEN | D_FLAGS | D_CKCALC | D_CKRX | D_VAL | D_ID | D_PW =>
    simp only [State.regByte, hd rfl]
  case OP | ILEN | IBUF | E_FN | E_ATTR | E_FLAGS | E_IDLEN | E_PWLEN | E_VAL | E_ID | E_PW =>
    simp only [State.regByte, hop, hilen, hcmd, hibuf]

/-- A read that differs names a row whose register differs. -/
theorem exists_row_of_memRead_ne {s t : State} {a : Offset} (h : s.memRead a ≠ t.memRead a) :
    ∃ r ∈ regMap, r.base ≤ a.toNat ∧ a.toNat < r.base + r.size ∧ ∃ k, s.regByte r.reg k ≠ t.regByte r.reg k := by
  unfold State.memRead at h
  cases hrow : rowAt a.toNat with
  | none => simp [hrow] at h
  | some r =>
    obtain ⟨hr, hlo, hhi⟩ := rowAt_mem hrow
    exact ⟨r, hr, hlo, hhi, _, by simpa [hrow] using h⟩

/-- Where the map has the completion registers and the two groups (R32). -/
theorem regMap_result_offsets : ∀ r ∈ regMap,
    (r.reg.isCompletion = true → 1 ≤ r.base ∧ r.base + r.size ≤ 4) ∧
    (r.reg.isDecode = true → 0x040 ≤ r.base ∧ r.base + r.size ≤ 0x060) ∧
    (r.reg.isEncode = true → r.base = 6 ∧ r.size = 2 ∨ r.base = 0x00D ∧ r.size = 1 ∨ r.base = 0x200 ∧ r.size = 0x100) := by
  decide

/-- An operation changes a read only at the completion registers and within the group it writes. -/
theorem OperationResult.memRead_ne {s t : State} {i : Instr} (h : OperationResult s i t) {a : Offset}
    (hne : s.memRead a ≠ t.memRead a) :
    0x001 ≤ a.toNat ∧ a.toNat ≤ 0x003 ∨
    i ∈ [Instr.cksum, .validate, .decode] ∧ 0x040 ≤ a.toNat ∧ a.toNat ≤ 0x05F ∨
    i = .encode ∧ (a.toNat = 0x006 ∨ a.toNat = 0x007 ∨ a.toNat = 0x00D ∨ 0x200 ≤ a.toNat ∧ a.toNat ≤ 0x2FF) := by
  obtain ⟨r, hr, hlo, hhi, k, hk⟩ := exists_row_of_memRead_ne hne
  obtain ⟨hcompletion, hdecode, hencode⟩ := regMap_result_offsets r hr
  by_cases hc : r.reg.isCompletion = true
  · have := hcompletion hc
    exact .inl (by omega)
  by_cases hd : r.reg.isDecode = true ∧ i ∈ [Instr.cksum, .validate, .decode]
  · have := hdecode hd.1
    exact .inr (.inl ⟨hd.2, by omega⟩)
  by_cases he : r.reg.isEncode = true ∧ i = .encode
  · have := hencode he.1
    exact .inr (.inr ⟨he.2, by omega⟩)
  · have hsame := regByte_eq_of_sameInputs h.sameInputs (Bool.eq_false_of_not_eq_true hc)
      (fun hr => h.dec_eq fun hi => hd ⟨hr, hi⟩) (fun hr => h.enc_eq fun hi => he ⟨hr, hi⟩) k
    exact absurd hsame hk

/-- Settles O50: what an operation leaves says it of the state, and the map says it of the reads. -/
theorem operationsWriteOnlyTheirGroup : Obligations.OperationsWriteOnlyTheirGroup := by
  intro i s hi
  obtain ⟨t, ht, hresult⟩ := operation_result hi s
  obtain ⟨hbusy, hdone⟩ := hresult.completed
  exact ⟨t, ht, hresult.sameInputs, hbusy, hdone, hresult.dec_eq, hresult.enc_eq, fun _ => hresult.memRead_ne⟩

/-! ## The frame of the function codes -/

/-- A function code's instruction is its body, completed (R230..R234). -/
theorem exec_fnCode (fn : FnCode) (place : FnPlace) (s : State) :
    exec (fn.instr place) s = finish (fnBody fn place s) := by
  cases fn <;> rfl

/-- In a frame a function code writes the reply flag and at most the value (R170). -/
theorem parseCommand_frame (fn : FnCode) (s : State) : ∃ reply valid val f, parseCommand fn s =
    ({ s with dec := { s.dec with replyExpected := reply, valValid := valid, val := val } }, f) := by
  rcases parseCommand_cases fn s with ⟨h, -⟩ | ⟨d, -, ⟨h, -⟩ | ⟨h, -⟩ | ⟨h, -⟩ | ⟨h, -⟩⟩
  · exact ⟨_, _, _, _, h⟩
  · exact ⟨_, _, _, _, h⟩
  · exact ⟨_, _, _, _, h⟩
  · exact ⟨_, _, _, _, h⟩
  · exact ⟨_, _, _, _, h⟩

/-- In a command a function code fails and writes nothing, or builds its frame (R200). -/
theorem buildCommand_frame (fn : FnCode) (s : State) :
    (∃ f, buildCommand fn s = (s, some f)) ∨ ∃ d, buildCommand fn s = (s.withFrame fn (frameOf fn d s.cfg s.cmd), none) := by
  rcases buildCommand_cases fn s with ⟨h, -⟩ | ⟨d, -, ⟨h, -⟩ | ⟨h, -⟩ | ⟨h, -⟩⟩
  · exact .inl ⟨_, h⟩
  · exact .inl ⟨_, h⟩
  · exact .inl ⟨_, h⟩
  · exact .inr ⟨d, h⟩

/-- `OLEN` is the length of a built frame, in any state (R206). -/
theorem withFrame_olen (s : State) (fn : FnCode) (d : AttrDesc) :
    (s.withFrame fn (frameOf fn d s.cfg s.cmd)).enc.olen.toNat = (frameOf fn d s.cfg s.cmd).length := by
  have hle := length_frameOf_le fn d s.cfg s.cmd
  exact Nat.mod_eq_of_lt (by omega)

/-- Past the built frame `OBUF` is as it was (R206). -/
theorem withFrame_tail (s : State) (fn : FnCode) (d : AttrDesc) {i : Nat}
    (hi : (s.withFrame fn (frameOf fn d s.cfg s.cmd)).enc.olen.toNat ≤ i) :
    (s.withFrame fn (frameOf fn d s.cfg s.cmd)).enc.obuf.read i = s.enc.obuf.read i := by
  rw [withFrame_olen] at hi
  exact Memory.read_writeBytes_other _ 0 _ i (.inr (by rwa [Nat.zero_add]))

/-- Settles O51: the bodies of the function codes at the two places, completed. -/
theorem functionCodesWriteOnlyTheirResults : Obligations.FunctionCodesWriteOnlyTheirResults := by
  intro fn s
  refine ⟨?frame, ?command⟩
  case frame =>
    obtain ⟨reply, valid, val, f, h⟩ := parseCommand_frame fn s
    have hrun := (exec_fnCode fn .frame s).trans (congrArg finish h)
    exact ⟨_, hrun, ⟨rfl, rfl, rfl, rfl, rfl, rfl, rfl, rfl⟩, rfl, rfl, rfl, rfl⟩
  case command =>
    rcases buildCommand_frame fn s with ⟨f, h⟩ | ⟨d, h⟩
    · have hrun := (exec_fnCode fn .command s).trans (congrArg finish h)
      exact ⟨_, hrun, .refl s, rfl, rfl, rfl, fun _ => rfl, fun herr => absurd herr f.code_ne_zero⟩
    · have hrun := (exec_fnCode fn .command s).trans (congrArg finish h)
      exact ⟨_, hrun, .refl s, rfl, rfl, rfl, fun herr => absurd rfl herr, fun _ i => withFrame_tail s fn d⟩

/-! ## Which steps change each part -/

/-- The step is a reset. -/
def ByReset (s : State) : Prop := ∃ rest, s.agenda = .reset :: rest

/-- The step performs the pending operation. -/
def ByOperation (s : State) : Prop := s.busy = true ∧ (s.agenda = [] ∨ ∃ rest, s.agenda = .codec :: rest)

/-- The step is a host write of an offset that meets `p`, with this `BUSY`. -/
def ByWrite (s : State) (busy : Bool) (p : Nat → Prop) : Prop :=
  s.busy = busy ∧ ∃ (a : Offset) (v : Byte) (rest : List Event), s.agenda = .bus (busWord true a v) :: rest ∧ p a.toNat

/-- The step starts an operation. -/
def ByStart (s : State) : Prop := ByWrite s false fun n => n = 0

/-- For each part of the state, why it differs between `s` and the next state `t`. A part that a step leaves as it was needs
no reason, which is each field's default. -/
structure ChangesExplained (s t : State) : Prop where
  cfg : t.cfg = s.cfg := by rfl
  op : t.op ≠ s.op → ByReset s ∨ ByStart s := by exact fun h => absurd rfl h
  err : t.err ≠ s.err → ByReset s ∨ ByStart s ∨ ByOperation s := by exact fun h => absurd rfl h
  errsub : t.errsub ≠ s.errsub → ByReset s ∨ ByStart s ∨ ByOperation s := by exact fun h => absurd rfl h
  busySet : s.busy = false → t.busy = true → ByStart s := by exact fun h h' => nomatch (h.symm.trans h')
  busyCleared : s.busy = true → t.busy = false → ByReset s ∨ ByOperation s := by
    exact fun h h' => nomatch (h.symm.trans h')
  doneSet : s.done = false → t.done = true → ByOperation s := by exact fun h h' => nomatch (h.symm.trans h')
  doneCleared : s.done = true → t.done = false → ByReset s ∨ ByStart s := by
    exact fun h h' => nomatch (h.symm.trans h')
  enc : t.enc ≠ s.enc → ByReset s ∨ ByOperation s ∧ s.op.toNat ∈ [4] := by exact fun h => absurd rfl h
  dec : t.dec ≠ s.dec → ByReset s ∨ ByOperation s ∧ s.op.toNat ∈ [1, 2, 3] := by exact fun h => absurd rfl h
  ilen : t.ilen ≠ s.ilen → ByReset s ∨ ByWrite s false (fun n => n = 4 ∨ n = 5) := by exact fun h => absurd rfl h
  cmd : t.cmd ≠ s.cmd → ByReset s ∨ ByWrite s false (fun n => 8 ≤ n ∧ n ≤ 0x27) := by exact fun h => absurd rfl h
  ibuf : t.ibuf ≠ s.ibuf → ByReset s ∨ ByWrite s false (fun n => 0x100 ≤ n ∧ n ≤ 0x1FF) := by
    exact fun h => absurd rfl h
  faultSet : s.fault = false → t.fault = true → ByWrite s true (fun _ => True) := by
    exact fun h h' => nomatch (h.symm.trans h')
  faultCleared : s.fault = true → t.fault = false → ByReset s := by
    exact fun h h' => nomatch (h.symm.trans h')

/-- Reset changes any part but the configuration, and sets none of the flags (R340). -/
theorem changes_of_reset {s : State} (h : ByReset s) : ChangesExplained s s.taken.assertReset where
  op _ := .inl h
  err _ := .inl h
  errsub _ := .inl h
  busySet _ hset := nomatch hset
  busyCleared _ _ := .inl h
  doneSet _ hset := nomatch hset
  doneCleared _ _ := .inl h
  enc _ := .inl h
  dec _ := .inl h
  ilen _ := .inl h
  cmd _ := .inl h
  ibuf _ := .inl h
  faultSet _ hset := nomatch hset
  faultCleared _ _ := h

/-- A write changes the part its offset names, or starts an operation, or sets `FAULT` (R73, R78, R79). -/
theorem changes_of_write {s t : State} {a : Offset} {v : Byte} {rest : List Event}
    (ha : s.agenda = .bus (busWord true a v) :: rest) (h : WriteCase s.taken a v t) : ChangesExplained s t := by
  have byWrite {busy : Bool} {p : Nat → Prop} (hb : s.busy = busy) (hp : p a.toNat) : ByWrite s busy p :=
    ⟨hb, a, v, rest, ha, hp⟩
  cases h with
  | ignored hb => exact {}
  | fault hb => exact { faultSet := fun _ _ => byWrite hb trivial, faultCleared := fun _ hclear => nomatch hclear }
  | start hb h0 =>
    exact { op := fun _ => .inr (byWrite hb h0)
            err := fun _ => .inr (.inl (byWrite hb h0))
            errsub := fun _ => .inr (.inl (byWrite hb h0))
            busySet := fun _ _ => byWrite hb h0
            busyCleared := fun _ hclear => nomatch hclear
            doneSet := fun _ hset => nomatch hset
            doneCleared := fun _ _ => .inr (byWrite hb h0) }
  | ilen hb n hoff => exact { ilen := fun _ => .inr (byWrite hb hoff) }
  | cmd hb c hoff => exact { cmd := fun _ => .inr (byWrite hb hoff) }
  | ibuf hb k hk hoff => exact { ibuf := fun _ => .inr (byWrite hb ⟨by omega, by rw [bufBytes] at hk; omega⟩) }

/-- The code in `OP` of an operation (R100). -/
theorem opcode_of_decodeOp {op : Byte} {i : Instr} (h : decodeOp op = i) : op.toNat = (encode i).2 := by
  rw [← h, (encode_decodeOp op).2]

theorem opcode_mem_of_decodes {op : Byte} (h : decodeOp op ∈ [Instr.cksum, .validate, .decode]) :
    op.toNat ∈ [1, 2, 3] := by
  simp only [List.mem_cons, List.not_mem_nil, or_false] at h ⊢
  exact h.imp opcode_of_decodeOp (.imp opcode_of_decodeOp opcode_of_decodeOp)

/-- An operation changes the completion registers and the group it writes (R60, R280). -/
theorem changes_of_operation {s t : State} (hby : ByOperation s) (h : OperationResult s.taken (decodeOp s.op) t) :
    ChangesExplained s t := by
  obtain ⟨hop, hfault, hilen, hcmd, hibuf, hcfg, -⟩ := h.sameInputs
  obtain ⟨hbusy, hdone⟩ := h.completed
  exact
    { cfg := hcfg
      op := fun hne => absurd hop hne
      err := fun _ => .inr (.inr hby)
      errsub := fun _ => .inr (.inr hby)
      busySet := fun _ hset => nomatch (hbusy.symm.trans hset)
      busyCleared := fun _ _ => .inr hby
      doneSet := fun _ _ => hby
      doneCleared := fun _ hclear => nomatch (hdone.symm.trans hclear)
      enc := fun hne => .inr ⟨hby, List.mem_singleton.2 (opcode_of_decodeOp (by_contra fun hi => hne (h.enc_eq hi)))⟩
      dec := fun hne => .inr ⟨hby, opcode_mem_of_decodes (by_contra fun hi => hne (h.dec_eq hi))⟩
      ilen := fun hne => absurd hilen hne
      cmd := fun hne => absurd hcmd hne
      ibuf := fun hne => absurd hibuf hne
      faultSet := fun hs ht => nomatch (hs.symm.trans (hfault.symm.trans ht))
      faultCleared := fun hs ht => nomatch (hs.symm.trans (hfault.symm.trans ht)) }

theorem changesExplained_of_step {s t : State} (h : step s = .next t) : ChangesExplained s t := by
  cases step_case h with
  | idle hb => exact {}
  | read b => exact {}
  | reset rest ha => exact changes_of_reset ⟨rest, ha⟩
  | written a v rest ha => exact changes_of_write ha (memWrite_case s.taken a v)
  | performed t hb ha hrun => exact changes_of_operation ⟨hb, ha⟩ (operationResult_of_exec hrun)

/-- Settles O55: each kind of step explains the parts that it changes. -/
theorem onlyTheNamedStepsChangeAPart : Obligations.OnlyTheNamedStepsChangeAPart := by
  intro s t h
  obtain ⟨cfg, op, err, errsub, busySet, busyCleared, doneSet, doneCleared, enc, dec, ilen, cmd, ibuf, faultSet,
    faultCleared⟩ := changesExplained_of_step h
  exact ⟨cfg, op, err, errsub, busySet, busyCleared, doneSet, doneCleared, enc, dec, ilen, cmd, ibuf, faultSet,
    faultCleared⟩

end Sys2Proof.Machine
end

section
/-! PROOFS. DECODE, ENCODE and the function codes they go on by (spec/41_frame_parser.md R170..R174;
spec/42_command_encoder.md R200..R210; spec/43_function_codes.md R230..R235): each outcome with its exact next state, and
what ENCODE reads. -/

namespace Sys2Proof.Machine

/-! ## The codes -/

/-- READ, INCREMENT and DECREMENT need no value (R173, R204). -/
theorem FnCode.needsValue_eq_false_iff (fn : FnCode) :
    fn.needsValue = false ↔ fn ∈ [FnCode.read, .increment, .decrement] := by
  cases fn <;> decide

theorem FnCode.needsValue_eq_true_iff (fn : FnCode) : fn.needsValue = true ↔ fn = .write ∨ fn = .readWrite := by
  cases fn <;> decide

/-- `REPLY_EXPECTED` is 1 but for WRITE (R235). -/
theorem FnCode.replyExpected_eq_ne_write (fn : FnCode) : fn.replyExpected = decide (fn ≠ .write) := by
  cases fn <;> rfl

theorem FnCode.replyExpected_of_needsValue {fn : FnCode} (h : fn.needsValue = false) : fn.replyExpected = true := by
  cases fn with
  | read | increment | decrement => rfl
  | write | readWrite => cases h

theorem FnCode.decodeFn_byte (fn : FnCode) (place : FnPlace) : decodeFn place fn.byte = fn.instr place := by
  cases fn <;> rfl

/-- Going on by a function code is the instruction that its byte decodes to (R103, R109). -/
theorem runFn_eq_exec (place : FnPlace) (b : Byte) (s : State) : runFn place b s = exec (decodeFn place b) s := by
  rcases runFn_cases place b s with ⟨fn, rfl, -⟩ | ⟨hb, hrun⟩
  · rw [fn.decodeFn_byte, runFn_byte, exec_fnCode]
  · rw [decodeFn_unknown place hb]
    exact hrun

/-- Settles O35: the completion of an unknown code, at both places. -/
theorem unknownFunctionCodeFails : Obligations.UnknownFunctionCodeFails := fun _ _ => ⟨rfl, rfl⟩

/-! ## A function code in a frame -/

section Parse

variable {fn : FnCode} {s : State} {d : AttrDesc} (hattr : attrOf s.cfg s.dec.attr = some d)
include hattr

/-- An empty payload does for a code that needs no value (R173). -/
theorem parseCommand_empty (hlen : s.ilen.toNat = 26) (hneeds : fn.needsValue = false) :
    parseCommand fn s = (s.withReply fn.replyExpected, none) := by
  simp [parseCommand_of_attr fn hattr, hlen, payloadLenOk, hneeds]

/-- A length that the code does not take ends it (R173). -/
theorem parseCommand_lengthMismatch (hlen : payloadLenOk fn (s.ilen.toNat - 26) d.w.bytes = false) :
    parseCommand fn s = (s.withReply fn.replyExpected, some .payloadLengthMismatch) := by
  rw [parseCommand_of_attr fn hattr, if_pos hlen]

variable (hlen : s.ilen.toNat = 26 + d.w.bytes)
include hlen

/-- Every code takes a payload of the attribute's width, and then checks the value's range (R173, R174). -/
theorem parseCommand_of_width : parseCommand fn s =
    if inRange (unmarshal (s.ibuf.range 25 d.w.bytes) d) d = false then
      (s.withReply fn.replyExpected, some .decodeValueRange)
    else ((s.withReply fn.replyExpected).withValue (unmarshal (s.ibuf.range 25 d.w.bytes) d), none) := by
  have hw : d.w.bytes ≠ 0 := by cases d.w <;> decide
  have hsub : s.ilen.toNat - 26 = d.w.bytes := by omega
  have hok : payloadLenOk fn d.w.bytes d.w.bytes = true := by simp [payloadLenOk]
  rw [parseCommand_of_attr fn hattr, hsub, if_neg (by simp [hok]), if_neg hw]

theorem parseCommand_value (hv : inRange (unmarshal (s.ibuf.range 25 d.w.bytes) d) d = true) : parseCommand fn s =
    ((s.withReply fn.replyExpected).withValue (unmarshal (s.ibuf.range 25 d.w.bytes) d), none) := by
  rw [parseCommand_of_width hattr hlen, if_neg (by simp [hv])]

theorem parseCommand_valueRange (hv : inRange (unmarshal (s.ibuf.range 25 d.w.bytes) d) d = false) :
    parseCommand fn s = (s.withReply fn.replyExpected, some .decodeValueRange) := by
  rw [parseCommand_of_width hattr hlen, if_pos hv]

end Parse

theorem exec_fnCode_frame {fn : FnCode} {s : State} {r : Ran} (h : parseCommand fn s = r) :
    exec (fn.instr .frame) s = .next (r.1.complete r.2) :=
  (exec_fnCode fn .frame s).trans (congrArg finish h)

/-- Settles O31: the two payloads a code takes. -/
theorem functionCodeParsesItsFrame : Obligations.FunctionCodeParsesItsFrame := by
  intro fn s d hattr
  refine ⟨fun hlen hfn => ?empty, fun hlen hv => ?value⟩
  case empty =>
    have hneeds := fn.needsValue_eq_false_iff.2 hfn
    rw [exec_fnCode_frame (parseCommand_empty hattr hlen hneeds), FnCode.replyExpected_of_needsValue hneeds]
    rfl
  case value =>
    rw [exec_fnCode_frame (parseCommand_value hattr hlen hv), fn.replyExpected_eq_ne_write]
    rfl

/-- Settles O32: the three checks of a code in a frame, each the first that fails. -/
theorem functionCodeRejectsItsFrame : Obligations.FunctionCodeRejectsItsFrame := by
  intro fn s hmin failed
  refine ⟨fun hattr => ?unknown, fun d hattr hfn hlen => ?length, fun d hattr hlen hv => ?range⟩
  case unknown =>
    rw [exec_fnCode_frame (parseCommand_unknownAttribute fn hattr), fn.replyExpected_eq_ne_write]
    rfl
  case length =>
    have hbad : payloadLenOk fn (s.ilen.toNat - 26) d.w.bytes = false := by
      rw [payloadLenOk_eq_false_iff, fn.needsValue_eq_true_iff, ← or_and_right]
      exact ⟨or_assoc.2 hfn |>.imp_right (by omega), by omega⟩
    rw [exec_fnCode_frame (parseCommand_lengthMismatch hattr hbad), fn.replyExpected_eq_ne_write]
    rfl
  case range =>
    rw [exec_fnCode_frame (parseCommand_valueRange hattr hlen hv), fn.replyExpected_eq_ne_write]
    rfl

/-! ## DECODE -/

/-- Settles O25: both operations end with the failure of the frame check, and VALIDATE has no other. -/
theorem decodeRejectsWhatValidateRejects : Obligations.DecodeRejectsWhatValidateRejects := by
  intro s t hvalidate herr
  rcases frameCheck_result s with ⟨g, f, h, -⟩ | ⟨h, -⟩
  · exact (exec_decode_fails h).trans ((execValidate_of_frameCheck h).symm.trans hvalidate)
  · obtain rfl := Host.Outcome.next.inj ((execValidate_of_frameCheck h).symm.trans hvalidate)
    exact absurd rfl herr

/-- The frame check passes an accepted frame (R142). -/
theorem frameAccepted.frameCheck_eq {s : State} (h : frameAccepted s) :
    frameCheck s.dclear = (s.dclear.withChecksums, none) := by
  obtain ⟨hmin, hmax, hm0, hm1, hck⟩ := h
  exact frameCheck_accepts hmin hmax ((magicOk_iff _).2 ⟨hm0, hm1⟩) hck

/-- Settles O26: the frame check passes, and a code goes on as the instruction its byte decodes to. -/
theorem decodeGoesOnByTheFunctionCode : Obligations.DecodeGoesOnByTheFunctionCode := by
  intro s h
  rw [exec_decode_accepts h.frameCheck_eq, runFn_eq_exec]

/-- Settles O29: the frame's code takes the payload, and its byte tells whether a reply is expected. -/
theorem decodeOfAGoodFrame : Obligations.DecodeOfAGoodFrame := by
  intro s d h hknown hattr hlen hv
  obtain ⟨fn, hfn⟩ : ∃ fn : FnCode, s.ibuf.read 23 = fn.byte :=
    exists_fnCode fun hunknown => (unknownFn_iff _).2 hunknown hknown
  have hparse : parseCommand fn { s with dec := receivedFields s } = _ := parseCommand_value hattr hlen hv
  rw [exec_decode_accepts h.frameCheck_eq, hfn, runFn_byte, ← fn.replyExpected_eq_decide]
  exact congrArg finish hparse

/-! ## A function code in a command -/

section Build

variable {fn : FnCode} {s : State}

theorem buildCommand_unknownAttr (hattr : attrOf s.cfg s.cmd.attr = none) :
    buildCommand fn s = (s, some .unknownAttr) := by
  simp [buildCommand, hattr]

variable {d : AttrDesc} (hattr : attrOf s.cfg s.cmd.attr = some d)
include hattr

theorem buildCommand_valueMissing (hneeds : fn.needsValue = true) (hp : s.cmd.valPresent = false) :
    buildCommand fn s = (s, some .valueMissing) := by
  simp [buildCommand, hattr, hneeds, hp]

theorem buildCommand_valueRange (hp : s.cmd.valPresent = true) (hv : inRange s.cmd.val d = false) :
    buildCommand fn s = (s, some .encodeValueRange) := by
  simp [buildCommand, hattr, hp, hv]

/-- With a value in range, or none where none is needed, the frame is built (R204, R206). -/
theorem buildCommand_builds (hval : s.cmd.valPresent = true ∧ inRange s.cmd.val d = true ∨
      s.cmd.valPresent = false ∧ fn ∈ [FnCode.read, .increment, .decrement]) :
    buildCommand fn s = (s.withFrame fn (frameOf fn d s.cfg s.cmd), none) := by
  rw [← fn.needsValue_eq_false_iff] at hval
  rcases hval with ⟨hp, hv⟩ | ⟨hp, hneeds⟩
  · simp [buildCommand, hattr, hp, hv]
  · simp [buildCommand, hattr, hp, hneeds]

end Build

theorem exec_fnCode_command {fn : FnCode} {s : State} {r : Ran} (h : buildCommand fn s = r) :
    exec (fn.instr .command) s = .next (r.1.complete r.2) :=
  (exec_fnCode fn .command s).trans (congrArg finish h)

/-- `OBUF` holds the built frame (R206). -/
theorem withFrame_range {s : State} (fn : FnCode) (d : AttrDesc) (hw : s.enc.obuf.wf = true) :
    let t := s.withFrame fn (frameOf fn d s.cfg s.cmd)
    t.enc.obuf.range 0 t.enc.olen.toNat = frameOf fn d s.cfg s.cmd := by
  intro t
  rw [withFrame_olen]
  exact Memory.range_writeBytes _ 0 _ hw

/-- Settles O33: the built frame in `OBUF`, whatever `OBUF` held before. -/
theorem functionCodeBuildsItsFrame : Obligations.FunctionCodeBuildsItsFrame := by
  intro fn s d hw hattr hval
  exact ⟨_, exec_fnCode_command (buildCommand_builds hattr hval), ⟨rfl, rfl, rfl, rfl⟩, .refl s, rfl,
    (withFrame_olen s fn d).trans (length_frameOf fn d s.cfg s.cmd), fn.replyExpected_eq_ne_write,
    withFrame_range fn d hw, fun i => withFrame_tail s fn d⟩

/-- Settles O34: the three checks of a code in a command, each the first that fails. -/
theorem functionCodeRejectsItsCommand : Obligations.FunctionCodeRejectsItsCommand :=
  fun fn _ => ⟨fun hattr => exec_fnCode_command (buildCommand_unknownAttr hattr),
    fun _ hattr hfn hp => exec_fnCode_command (buildCommand_valueMissing hattr (fn.needsValue_eq_true_iff.2 hfn) hp),
    fun _ hattr hp hv => exec_fnCode_command (buildCommand_valueRange hattr hp hv)⟩

/-! ## ENCODE -/

theorem credentialFailure_eq_none_iff (c : CommandInputs) :
    credentialFailure c = none ↔ c.idLen.toNat = 16 ∧ c.pwLen.toNat ≤ 4 := by
  rcases credentialFailure_cases c with ⟨h, hid⟩ | ⟨h, -, hpw⟩ | ⟨h, hid, hpw⟩
  · simp [h, hid]
  · simp [h, hpw]
  · simp [h, hid, hpw]

/-- Settles O40: past the credential checks ENCODE is the command's function code on a cleared encode group. -/
theorem encodeOfAGoodCommand : Obligations.EncodeOfAGoodCommand := by
  intro s fn d hid hpw hfn hattr hval
  have hcred : credentialFailure s.cmd = none := (credentialFailure_eq_none_iff _).2 ⟨by rw [hid]; rfl, hpw⟩
  have hbuild : buildCommand fn s.eclear = _ := buildCommand_builds (s := s.eclear) hattr hval
  have hrun : exec .encode s = .next (s.encoded fn d) := by
    rw [exec_encode_of_credentials hcred, hfn, runFn_byte]
    exact congrArg finish hbuild
  exact ⟨_, hrun, ⟨rfl, rfl, rfl, rfl⟩, .refl s, rfl, (encoded_olen s fn d).trans (length_frameOf fn d s.cfg s.cmd),
    withFrame_range (s := s.eclear) fn d rfl⟩

/-! ### What ENCODE reads -/

/-- The commands agree on what ENCODE reads of them (R208, R210). -/
structure SameOperands (c e : CommandInputs) : Prop where
  fn : c.fn = e.fn
  attr : c.attr = e.attr
  valPresent : c.valPresent = e.valPresent
  idLen : c.idLen = e.idLen
  pwLen : c.pwLen = e.pwLen
  id : c.id = e.id
  pw : ∀ j : Fin 4, j.val < c.pwLen.toNat → c.pw[j] = e.pw[j]
  val : c.valPresent = true → c.val = e.val

namespace SameOperands

variable {c e : CommandInputs} (h : SameOperands c e)
include h

theorem credentialFailure_eq : credentialFailure c = credentialFailure e := by
  rw [credentialFailure, h.idLen, h.pwLen]
  rfl

/-- The bytes from `E_PWLEN` on are the padding's (R205). -/
theorem passwordField_eq (pad : Byte) : passwordField c pad = passwordField e pad := by
  refine List.ext_getElem rfl fun j hj _ => ?_
  rw [passwordField_getElem c pad ⟨j, hj⟩, passwordField_getElem e pad ⟨j, hj⟩, ← h.pwLen]
  split
  · next hlt => exact h.pw _ hlt
  · rfl

theorem payloadField_eq (d : AttrDesc) : payloadField c d = payloadField e d := by
  rw [payloadField, payloadField, ← h.valPresent]
  split
  · next hp => rw [h.val hp]
  · rfl

theorem frameOf_eq (fn : FnCode) (d : AttrDesc) (cfg : Config) : frameOf fn d cfg c = frameOf fn d cfg e := by
  have hassemble : assemble fn d cfg c = assemble fn d cfg e := by
    rw [assemble, h.id, h.passwordField_eq, h.attr, h.payloadField_eq]
    rfl
  rw [frameOf, hassemble]
  rfl

/-- The range of a value is checked only when one is present (R204). -/
theorem rangeCheck_eq (d : AttrDesc) :
    (c.valPresent && !inRange c.val d) = (e.valPresent && !inRange e.val d) := by
  rw [← h.valPresent]
  cases hp : c.valPresent with
  | false => rfl
  | true => rw [h.val hp]

end SameOperands

/-- The operations end with the same encode group, `ERR` and `ERRSUB`. -/
def SameOutput (o p : Host.Outcome State Fault Refusal) : Prop :=
  ∃ u v, o = .next u ∧ p = .next v ∧ u.enc = v.enc ∧ u.err = v.err ∧ u.errsub = v.errsub

theorem finish_sameOutput {s t : State} (f : Option Failure) (h : s.enc = t.enc) :
    SameOutput (finish (s, f)) (finish (t, f)) :=
  ⟨_, _, rfl, rfl, h, rfl, rfl⟩

section

variable {s t : State} (hcfg : s.cfg = t.cfg) (henc : s.enc = t.enc) (hcmd : SameOperands s.cmd t.cmd)
include hcfg henc hcmd

theorem buildCommand_sameOutput (fn : FnCode) :
    SameOutput (finish (buildCommand fn s)) (finish (buildCommand fn t)) := by
  unfold buildCommand
  rw [← hcfg, ← hcmd.attr]
  split
  · exact finish_sameOutput _ henc
  · next d _ =>
    rw [hcmd.rangeCheck_eq d, hcmd.frameOf_eq, hcmd.valPresent]
    split_ifs
    · exact finish_sameOutput _ henc
    · exact finish_sameOutput _ henc
    · exact finish_sameOutput _ (by simp [henc])

theorem runFn_sameOutput (b : Byte) : SameOutput (runFn .command b s) (runFn .command b t) := by
  rcases runFn_cases .command b s with ⟨fn, rfl, hrun⟩ | ⟨hb, hrun⟩
  · rw [hrun, runFn_byte]
    exact buildCommand_sameOutput hcfg henc hcmd fn
  · rw [hrun, runFn_unknown _ hb]
    exact finish_sameOutput _ henc

end

/-- Settles O41: every stage of ENCODE ends alike for commands with the same operands, on the cleared encode group. -/
theorem encodeReadsOnlyItsOperands : Obligations.EncodeReadsOnlyItsOperands := by
  intro s t hcfg hfn hattr hpresent hidLen hpwLen hid hpw hval
  have hcmd : SameOperands s.cmd t.cmd := ⟨hfn, hattr, hpresent, hidLen, hpwLen, hid, hpw, hval⟩
  show SameOutput (execEncode s) (execEncode t)
  unfold execEncode
  rw [← hcmd.credentialFailure_eq, ← hfn]
  split
  · exact finish_sameOutput _ rfl
  · exact runFn_sameOutput (s := s.eclear) (t := t.eclear) hcfg rfl hcmd _

end Sys2Proof.Machine
end

section
/-! PROOFS. The table of attributes (spec/44_attributes.md R250..R271; spec/00_scope.md R9): the ids of the thirteen, the
values their rules allow, and that name, kind, member names and read-only mark change nothing in DECODE and ENCODE. -/

namespace Sys2Proof.Machine

/-! ## The entries of a well-formed table -/

/-- In a table whose ids rise, an entry is found by its id (R250). -/
theorem find?_of_mem {t : AttrTable} (hrise : idsRise t = true) {e : Byte × AttrDesc} (he : e ∈ t) :
    t.find? (fun f => f.1 == e.1) = some e := by
  induction t with
  | nil => cases he
  | cons f rest ih =>
    simp only [idsRise, Bool.and_eq_true, List.all_eq_true, decide_eq_true_eq] at hrise
    obtain ⟨hlt, hrest⟩ := hrise
    rcases List.mem_cons.1 he with rfl | he
    · simp
    · have hne : f.1 ≠ e.1 := fun heq => Nat.lt_irrefl _ (heq ▸ hlt e he)
      rw [List.find?_cons_of_neg (by simpa using hne), ih hrest he]

theorem idsRise_attrTable (c : Config) : idsRise c.raw.attrTable = true := by
  have hok := c.ok
  simp only [RawConfig.wf, Bool.and_eq_true] at hok
  exact hok.1.1

/-- Each of the thirteen attributes names exactly one entry (R251). -/
theorem exists_named_entry (c : Config) {n : AttrName} (hn : n ∈ AttrName.thirteen) :
    ∃ e, c.raw.attrTable.filter (fun e => decide (e.2.name = n)) = [e] := by
  have hok := c.ok
  simp only [RawConfig.wf, Bool.and_eq_true, List.all_eq_true, decide_eq_true_eq] at hok
  exact List.length_eq_one_iff.1 (hok.2 n hn)

/-- A descriptor is that of an id exactly when the table lists the two together (R250). -/
theorem attrOf_eq_some_iff (c : Config) (a : Byte) (d : AttrDesc) :
    attrOf c a = some d ↔ (a, d) ∈ c.raw.attrTable := by
  constructor
  · intro h
    obtain ⟨e, hfind, rfl⟩ := Option.map_eq_some_iff.1 h
    obtain rfl : e.1 = a := by simpa using List.find?_some hfind
    exact List.mem_of_find?_eq_some hfind
  · intro h
    rw [attrOf, find?_of_mem (idsRise_attrTable c) h]
    rfl

/-- Settles O45: the entries with the name are one entry, and its id is the one sought. -/
theorem eachNamedAttributeHasOneId : Obligations.EachNamedAttributeHasOneId := by
  intro c n hn
  obtain ⟨e, he⟩ := exists_named_entry c hn
  have hentry (b : Byte) (d : AttrDesc) : attrOf c b = some d ∧ d.name = n ↔ (b, d) = e := by
    rw [attrOf_eq_some_iff, ← List.mem_singleton (b := e), ← he, List.mem_filter, decide_eq_true_iff]
  exact ⟨e.1, ⟨e.2, (hentry e.1 e.2).2 rfl⟩, fun b d hattr hname => congrArg Prod.fst ((hentry b d).1 ⟨hattr, hname⟩)⟩

/-! ## The rules of the attributes -/

/-- The descriptors of a configuration meet the rules of their names (R259..R271). -/
theorem attrOf_asNamed {c : Config} {a : Byte} {d : AttrDesc} (h : attrOf c a = some d) : d.asNamed = true := by
  have hok := c.ok
  simp only [RawConfig.wf, Bool.and_eq_true, List.all_eq_true] at hok
  exact (hok.1.2 _ ((attrOf_eq_some_iff c a d).1 h)).2

/-- The range of an unsigned descriptor, on numbers (R255). -/
theorem inRange_iff_of_unsigned {d : AttrDesc} (hs : d.signed = false) {lo hi : Nat} (hmin : d.min = lo) (hmax : d.max = hi)
    (v : Word) : inRange v d = true ↔ lo ≤ v.toNat ∧ v.toNat ≤ hi := by
  simp [inRange, valueOf, hs, hmin, hmax]

/-- A BOOL attribute is one byte wide and takes 0 and 1 (R251). -/
theorem bool_values {d : AttrDesc} (hwf : d.wf = true) (hk : d.kind = .bool) (v : Word) :
    d.w = .one ∧ (inRange v d = true ↔ v.toNat ≤ 1) := by
  simp only [AttrDesc.wf, hk, Bool.and_eq_true, decide_eq_true_eq, Bool.not_eq_true'] at hwf
  obtain ⟨-, ⟨⟨hw, hs⟩, hmin⟩, hmax⟩ := hwf
  exact ⟨hw, by simp [inRange_iff_of_unsigned hs (lo := 0) (hi := 1) hmin hmax]⟩

/-- An ENUM attribute has one member per code (R251). -/
theorem enum_members {d : AttrDesc} (hwf : d.wf = true) (hk : d.kind = .enum) :
    (d.members.length : Int) = d.max - d.min + 1 := by
  simp only [AttrDesc.wf, hk, Bool.and_eq_true, decide_eq_true_eq] at hwf
  exact hwf.2.2

/-- Power, boost and the filter alarm are BOOL (R259, R263, R269). -/
theorem kind_bool_of_name {d : AttrDesc} (hnamed : d.asNamed = true)
    (hname : d.name ∈ [AttrName.power, .boost, .filterAlarm]) : d.kind = .bool := by
  simp only [List.mem_cons, List.not_mem_nil, or_false] at hname
  rcases hname with hname | hname | hname <;>
    simp only [AttrDesc.asNamed, hname, Bool.and_eq_true, decide_eq_true_eq] at hnamed
  · exact hnamed.1
  · exact hnamed
  · exact hnamed.2

theorem presetSpeed_values {d : AttrDesc} (hnamed : d.asNamed = true) (hname : d.name = .presetSpeed) (v : Word) :
    inRange v d = true ↔ 1 ≤ v.toNat ∧ v.toNat ≤ 10 := by
  simp only [AttrDesc.asNamed, hname, Bool.and_eq_true, decide_eq_true_eq, Bool.not_eq_true'] at hnamed
  obtain ⟨⟨⟨-, hs⟩, hmin⟩, hmax⟩ := hnamed
  exact inRange_iff_of_unsigned hs hmin hmax v

theorem manualSpeed_values {d : AttrDesc} (hnamed : d.asNamed = true) (hname : d.name = .manualSpeed) (v : Word) :
    inRange v d = true ↔ v.toNat ≤ 255 := by
  simp only [AttrDesc.asNamed, hname, Bool.and_eq_true, decide_eq_true_eq, Bool.not_eq_true'] at hnamed
  obtain ⟨⟨⟨-, hs⟩, hmin⟩, hmax⟩ := hnamed
  simp [inRange_iff_of_unsigned hs (lo := 0) (hi := 255) hmin hmax v]

/-- 45 is a humidity, signed or not (R265). -/
theorem humidity_takes_45 {d : AttrDesc} (hnamed : d.asNamed = true) (hname : d.name = .humidity) :
    inRange 45 d = true := by
  have h45 : valueOf 45 d = 45 := by
    unfold valueOf
    split <;> decide
  simp only [AttrDesc.asNamed, hname, Bool.and_eq_true, decide_eq_true_eq] at hnamed
  obtain ⟨⟨-, hmin⟩, hmax⟩ := hnamed
  rw [inRange, h45, decide_eq_true hmin, decide_eq_true hmax]
  rfl

/-- Settles O46: the configuration's check says each of these of every descriptor. -/
theorem namedAttributesTakeTheirValues : Obligations.NamedAttributesTakeTheirValues := by
  intro c a d v h
  have hwf := attrOf_wf h
  have hnamed := attrOf_asNamed h
  exact ⟨fun hbool => bool_values hwf (hbool.elim id (kind_bool_of_name hnamed)) v,
    fun hname => presetSpeed_values hnamed hname v, fun hname => manualSpeed_values hnamed hname v,
    humidity_takes_45 hnamed, enum_members hwf⟩

/-! ## What of a descriptor the operations use -/

namespace sameWire

variable {d e : AttrDesc} (h : sameWire d e)
include h

theorem width_eq : d.w = e.w := h.1

theorem unmarshal_eq (b : List Byte) : unmarshal b d = unmarshal b e := by
  obtain ⟨hw, hbe, hsigned, -, -⟩ := h
  cases d
  cases e
  cases hw
  cases hbe
  cases hsigned
  rfl

theorem inRange_eq (v : Word) : inRange v d = inRange v e := by
  obtain ⟨-, -, hsigned, hmin, hmax⟩ := h
  rw [inRange, valueOf, hsigned, hmin, hmax]
  rfl

theorem payloadField_eq (c : CommandInputs) : payloadField c d = payloadField c e := by
  obtain ⟨hw, hbe, -⟩ := h
  simp only [payloadField, marshal, hw, hbe]

end sameWire

/-- The state under another configuration. -/
def State.withCfg (s : State) (c : Config) : State := { s with cfg := c }

@[simp] theorem State.withCfg_ilen (s : State) (c : Config) : (s.withCfg c).ilen = s.ilen := rfl
@[simp] theorem State.withCfg_ibuf (s : State) (c : Config) : (s.withCfg c).ibuf = s.ibuf := rfl
@[simp] theorem State.withCfg_cmd (s : State) (c : Config) : (s.withCfg c).cmd = s.cmd := rfl
@[simp] theorem State.withCfg_cfg (s : State) (c : Config) : (s.withCfg c).cfg = c := rfl

namespace sameCodec

variable {s : State} {c : Config} (h : sameCodec s.cfg c)
include h

/-- The same ids are present, with descriptors an operation cannot tell apart. -/
theorem attr_cases (a : Byte) :
    (attrOf s.cfg a = none ∧ attrOf c a = none) ∨
    ∃ d e, attrOf s.cfg a = some d ∧ attrOf c a = some e ∧ sameWire d e := by
  obtain ⟨-, -, -, -, -, hattr⟩ := h
  have hpair := hattr a
  split at hpair
  case h_1 hd he => exact .inl ⟨hd, he⟩
  case h_2 d e hd he => exact .inr ⟨d, e, hd, he, hpair⟩
  case h_3 => exact hpair.elim
  case h_4 => exact hpair.elim

theorem frameCheck_eq : frameCheck (s.withCfg c) = ((frameCheck s).1.withCfg c, (frameCheck s).2) := by
  obtain ⟨hm0, hm1, -, halg, -⟩ := h
  have hmagic : s.magicOk = (s.withCfg c).magicOk := by
    rw [State.magicOk, hm0, hm1]
    rfl
  have hck : s.computedCk = (s.withCfg c).computedCk := by
    rw [State.computedCk, halg]
    rfl
  have hwith : (s.withCfg c).withChecksums = s.withChecksums.withCfg c := by
    rw [State.withChecksums, ← hck]
    rfl
  have hlong : (s.withCfg c).tooLong = s.tooLong := rfl
  have hlen : (s.withCfg c).frameLen = s.frameLen := rfl
  have hrx : (s.withCfg c).receivedCk = s.receivedCk := rfl
  unfold frameCheck
  rw [hlong, hlen, ← hmagic, ← hck, hrx, hwith]
  split_ifs <;> rfl

theorem parseCommand_eq (fn : FnCode) :
    parseCommand fn (s.withCfg c) = ((parseCommand fn s).1.withCfg c, (parseCommand fn s).2) := by
  rcases h.attr_cases s.dec.attr with ⟨hd, he⟩ | ⟨d, e, hd, he, hwire⟩
  · rw [parseCommand_unknownAttribute fn hd, parseCommand_unknownAttribute (s := s.withCfg c) fn he]
    rfl
  · have hparse := parseCommand_of_attr (s := s.withCfg c) fn he
    rw [← hwire.width_eq, ← hwire.unmarshal_eq, ← hwire.inRange_eq] at hparse
    rw [parseCommand_of_attr fn hd, hparse, State.withCfg_ilen, State.withCfg_ibuf]
    split_ifs <;> rfl

theorem frameOf_eq {d e : AttrDesc} (hwire : sameWire d e) (fn : FnCode) :
    frameOf fn e c s.cmd = frameOf fn d s.cfg s.cmd := by
  obtain ⟨hm0, hm1, hver, halg, hpad, -⟩ := h
  have hassemble : assemble fn e c s.cmd = assemble fn d s.cfg s.cmd := by
    rw [assemble, ← hm0, ← hm1, ← hver, ← hpad, ← hwire.payloadField_eq]
    rfl
  rw [frameOf, hassemble, ← halg]
  rfl

theorem buildCommand_eq (fn : FnCode) :
    buildCommand fn (s.withCfg c) = ((buildCommand fn s).1.withCfg c, (buildCommand fn s).2) := by
  unfold buildCommand
  rw [State.withCfg_cfg, State.withCfg_cmd]
  rcases h.attr_cases s.cmd.attr with ⟨hd, he⟩ | ⟨d, e, hd, he, hwire⟩
  · rw [hd, he]
  · rw [hd, he]
    dsimp only
    rw [h.frameOf_eq hwire, ← hwire.inRange_eq]
    split_ifs <;> rfl

theorem fnBody_eq (fn : FnCode) (place : FnPlace) :
    fnBody fn place (s.withCfg c) = ((fnBody fn place s).1.withCfg c, (fnBody fn place s).2) := by
  cases place with
  | frame => exact h.parseCommand_eq fn
  | command => exact h.buildCommand_eq fn

end sameCodec

/-- The operation completes, and under the other configuration it ends in the same state but for the configuration. -/
def SameUnder (c : Config) (o p : Host.Outcome State Fault Refusal) : Prop := ∃ t, o = .next t ∧ p = .next (t.withCfg c)

theorem finish_sameUnder (c : Config) (r : Ran) : SameUnder c (finish r) (finish (r.1.withCfg c, r.2)) :=
  ⟨_, rfl, rfl⟩

section

variable {s : State} {c : Config} (h : sameCodec s.cfg c)
include h

theorem runFn_sameUnder (place : FnPlace) (b : Byte) :
    SameUnder c (runFn place b s) (runFn place b (s.withCfg c)) := by
  rcases runFn_cases place b s with ⟨fn, rfl, hrun⟩ | ⟨hb, hrun⟩
  · rw [hrun, runFn_byte]
    rw [h.fnBody_eq]
    exact finish_sameUnder c (fnBody fn place s)
  · rw [hrun, runFn_unknown _ hb]
    cases place with
    | frame => exact finish_sameUnder c (s, some .unknownFunction)
    | command => exact finish_sameUnder c (s, some .badFn)

theorem execDecode_sameUnder : SameUnder c (execDecode s) (execDecode (s.withCfg c)) := by
  have hcheck : frameCheck (s.withCfg c).dclear = _ := sameCodec.frameCheck_eq (s := s.dclear) h
  have hcfg : (frameCheck s.dclear).1.cfg = s.cfg := by
    obtain ⟨-, -, -, -, -, hcfg, -⟩ := frameCheck_sameInputs s.dclear
    exact hcfg
  unfold execDecode afterFrameCheck
  rw [hcheck]
  dsimp only
  split
  · exact finish_sameUnder c _
  · exact runFn_sameUnder (s := (frameCheck s.dclear).1.extract) (hcfg ▸ h) .frame _

theorem execEncode_sameUnder : SameUnder c (execEncode s) (execEncode (s.withCfg c)) := by
  have hcmd : (s.withCfg c).cmd = s.cmd := rfl
  unfold execEncode
  rw [hcmd]
  split
  · exact finish_sameUnder c (s.eclear, _)
  · exact runFn_sameUnder (s := s.eclear) h .command _

end

/-- Settles O47: each stage of the two operations uses of a configuration only what `sameCodec` compares. -/
theorem readOnlyMarkIsNotUsed : Obligations.ReadOnlyMarkIsNotUsed := by
  intro s c op h hop
  rcases List.mem_pair.1 hop with rfl | rfl
  · exact execDecode_sameUnder h
  · exact execEncode_sameUnder h

end Sys2Proof.Machine
end

section
/-! PROOFS. Writes and reads of the registers (spec/20_memory.md R73, R76, R80): a write stores its byte and no other,
repeating an access changes nothing, and the registers of several bytes are little-endian. -/

namespace Sys2Proof.Machine

/-! ## One byte of a register -/

section Bytes

variable {n : Nat} (x : BitVec n) (k : Nat) (v : Byte)

theorem byteOf_getLsbD (i : Nat) : (byteOf x k).getLsbD i = (decide (i < 8) && x.getLsbD (8 * k + i)) := by
  simp [byteOf]

/-- Replacing byte `k` replaces the bits `8k .. 8k+7` (R73, R76). -/
theorem setByte_getLsbD {i : Nat} (hi : i < n) :
    (setByte x k v).getLsbD i = if 8 * k ≤ i ∧ i < 8 * k + 8 then v.getLsbD (i - 8 * k) else x.getLsbD i := by
  have hones : (0xFF : BitVec n).getLsbD (i - 8 * k) = (decide (i - 8 * k < n) && decide (i - 8 * k < 8)) :=
    (BitVec.getLsbD_ofNat n 255 _).trans (congrArg _ (Nat.testBit_two_pow_sub_one 8 _))
  rw [setByte, BitVec.getLsbD_or, BitVec.getLsbD_and, BitVec.getLsbD_not, BitVec.getLsbD_shiftLeft, hones,
    BitVec.getLsbD_shiftLeft, BitVec.getLsbD_setWidth, decide_eq_true hi, decide_eq_true (by omega : i - 8 * k < n)]
  by_cases hlo : i < 8 * k
  · rw [if_neg (by omega)]
    simp [hlo]
  · by_cases hhi : i - 8 * k < 8
    · rw [if_pos (by omega)]
      simp [hlo, hhi]
    · rw [if_neg (by omega)]
      simp [hhi, BitVec.getLsbD_of_ge v _ (Nat.not_lt.1 hhi)]

/-- The byte written is read back. -/
theorem byteOf_setByte (hk : 8 * k + 8 ≤ n) : byteOf (setByte x k v) k = v := by
  refine BitVec.eq_of_getLsbD_eq fun i hi => ?_
  rw [byteOf_getLsbD, setByte_getLsbD x k v (by omega), if_pos (by omega), decide_eq_true hi, Nat.add_sub_cancel_left,
    Bool.true_and]

/-- Every other byte reads as before. -/
theorem byteOf_setByte_other {j : Nat} (hj : 8 * j + 8 ≤ n) (hne : j ≠ k) : byteOf (setByte x k v) j = byteOf x j := by
  refine BitVec.eq_of_getLsbD_eq fun i hi => ?_
  rw [byteOf_getLsbD, byteOf_getLsbD, setByte_getLsbD x k v (by omega), if_neg (by omega)]

theorem setByte_setByte : setByte (setByte x k v) k v = setByte x k v := by
  refine BitVec.eq_of_getLsbD_eq fun i hi => ?_
  rw [setByte_getLsbD _ k v hi, setByte_getLsbD x k v hi]
  split <;> rfl

end Bytes

/-- A 16-bit register from its bytes (R76). -/
theorem half_toNat_eq_bytes (x : Half) : x.toNat = (byteOf x 0).toNat + (byteOf x 1).toNat * 256 := by
  have hx := x.isLt
  simp only [byteOf_toNat]
  omega

/-- A 32-bit register from its bytes (R76). -/
theorem word_toNat_eq_bytes (x : Word) : x.toNat = (byteOf x 0).toNat + (byteOf x 1).toNat * 256 +
    (byteOf x 2).toNat * 65536 + (byteOf x 3).toNat * 16777216 := by
  have hx := x.isLt
  simp only [byteOf_toNat]
  omega

/-! ## One byte of a buffer -/

namespace Memory

theorem write_unlisted_of_lt {m : Memory} {i : Nat} (h : ∀ c ∈ m, i < c.1) : m.write i unlisted = m := by
  cases m with
  | nil => rfl
  | cons c rest =>
    have hlt : i < c.1 := h c (List.mem_cons_self ..)
    rw [write, if_pos hlt, if_pos rfl]

/-- Writing the byte that is there changes nothing. -/
theorem write_read_self {m : Memory} (hw : m.wf = true) (i : Nat) : m.write i (m.read i) = m := by
  induction m with
  | nil => rfl
  | cons c rest ih =>
    obtain ⟨k, b⟩ := c
    have hb : b ≠ unlisted := by
      simp only [wf, Bool.and_eq_true, decide_eq_true_eq] at hw
      exact hw.1.1
    by_cases hik : k = i
    · subst hik
      rw [read, if_pos rfl, write, if_neg (Nat.lt_irrefl k), if_pos rfl, if_neg hb]
    · by_cases hlt : i < k
      · have hbelow : ∀ c ∈ (k, b) :: rest, i < c.1 := by
          intro c hc
          rcases List.mem_cons.1 hc with rfl | hc
          · exact hlt
          · exact hlt.trans (wf_head_lt hw c hc)
        rw [read_eq_zero_of_lt _ _ hbelow]
        exact write_unlisted_of_lt hbelow
      · rw [read, if_neg hik, write, if_neg hlt, if_neg (Ne.symm hik), ih (wf_tail hw)]

theorem write_write {m : Memory} (hw : m.wf = true) (i : Nat) (v : Byte) : (m.write i v).write i v = m.write i v := by
  have h := write_read_self (wf_write m i v hw) i
  rwa [read_write_same m i v hw] at h

end Memory

/-! ## A write to an input register -/

/-- How many bytes an input register has; `none` for `OP` and the registers that are read-only (R32). -/
def Reg.inputSize : Reg → Option Nat
  | .E_FN | .E_ATTR | .E_FLAGS | .E_IDLEN | .E_PWLEN => some 1
  | .ILEN => some 2
  | .E_VAL | .E_PW => some 4
  | .E_ID => some 16
  | .IBUF => some 256
  | .OP | .STATUS | .ERR | .ERRSUB | .OLEN | .O_FLAGS | .OBUF | .D_VER | .D_FN | .D_ATTR | .D_PLEN | .D_FLAGS
  | .D_CKCALC | .D_CKRX | .D_VAL | .D_ID | .D_PW => none

theorem regMap_inputSize : ∀ r ∈ regMap, r.access = .rw → r.reg ≠ .OP → r.reg.inputSize = some r.size := by decide

theorem regMap_op : ∀ r ∈ regMap, r.reg = .OP → r.base = 0 ∧ r.size = 1 := by decide

/-- What an input register keeps of a byte written to it: `E_FLAGS` takes bit 0 only (R40, R108). -/
def Reg.kept (r : Reg) (v : Byte) : Byte := if r = .E_FLAGS then BitVec.ofNat 8 (v.toNat % 2) else v

theorem bitAt_zero_getLsbD_zero (v : Byte) : bitAt 0 (v.getLsbD 0) = BitVec.ofNat 8 (v.toNat % 2) := by
  apply BitVec.eq_of_toNat_eq
  rw [bitAt_zero_toNat, BitVec.getLsbD, Nat.testBit_zero, BitVec.toNat_ofNat]
  rcases Nat.mod_two_eq_zero_or_one v.toNat with h | h <;> simp [h]

section Input

variable (s : State) {r : Reg} {n : Nat} (hr : r.inputSize = some n) {k : Nat} (v : Byte)
include hr

/-- The byte kept is read back (R73). -/
theorem regByte_setRegByte_same (hk : k < n) (hw : s.ibuf.wf = true) :
    (s.setRegByte r k v).regByte r k = r.kept v := by
  cases r
  case E_FLAGS => exact bitAt_zero_getLsbD_zero v
  case E_FN | E_ATTR | E_IDLEN | E_PWLEN => rfl
  case ILEN => cases hr; exact byteOf_setByte _ k v (by omega)
  case E_VAL => cases hr; exact byteOf_setByte _ k v (by omega)
  case E_ID | E_PW => cases hr; simp [State.setRegByte, State.regByte, Reg.kept, hk]
  case IBUF => exact Memory.read_write_same _ k v hw
  all_goals cases hr

/-- Every other byte of the register reads as before (R73). -/
theorem regByte_setRegByte_otherByte {j : Nat} (hk : k < n) (hj : j < n) (hne : j ≠ k) :
    (s.setRegByte r k v).regByte r j = s.regByte r j := by
  cases r
  case E_FN | E_ATTR | E_FLAGS | E_IDLEN | E_PWLEN => cases hr; omega
  case ILEN => cases hr; exact byteOf_setByte_other _ k v (by omega) hne
  case E_VAL => cases hr; exact byteOf_setByte_other _ k v (by omega) hne
  case E_ID | E_PW => simp [State.setRegByte, State.regByte, Vector.getElem?_setIfInBounds_ne (Ne.symm hne)]
  case IBUF => exact Memory.read_write_other _ v hne
  all_goals cases hr

/-- Every other register reads as before (R73). -/
theorem regByte_setRegByte_otherReg {r' : Reg} (hne : r' ≠ r) (j : Nat) :
    (s.setRegByte r k v).regByte r' j = s.regByte r' j := by
  cases r
  case E_FN | E_ATTR | E_FLAGS | E_IDLEN | E_PWLEN | ILEN | E_VAL | E_ID | E_PW | IBUF => cases r' <;> trivial
  all_goals cases hr

/-- Writing the same byte again changes nothing (R80). -/
theorem setRegByte_setRegByte (hw : s.ibuf.wf = true) :
    (s.setRegByte r k v).setRegByte r k v = s.setRegByte r k v := by
  cases r
  case E_FN | E_ATTR | E_FLAGS | E_IDLEN | E_PWLEN => rfl
  case ILEN | E_VAL => simp only [State.setRegByte, setByte_setByte]
  case E_ID | E_PW => simp only [State.setRegByte, Vector.setIfInBounds_setIfInBounds]
  case IBUF => simp only [State.setRegByte, Memory.write_write hw]
  all_goals cases hr

/-- Nothing but the inputs and `IBUF` is written (R73). -/
theorem setRegByte_frame : ∃ n c m, s.setRegByte r k v = { s with ilen := n, cmd := c, ibuf := m } := by
  cases r
  case E_FN | E_ATTR | E_FLAGS | E_IDLEN | E_PWLEN | ILEN | E_VAL | E_ID | E_PW | IBUF => exact ⟨_, _, _, rfl⟩
  all_goals cases hr

end Input

/-! ## A write to an offset -/

/-- The row of a writable offset other than `OP` is an input register's (R32). -/
theorem inputSize_of_row {a : Offset} {r : RegRow} (hrow : rowAt a.toNat = some r) (hrw : r.access = .rw) (ha : a ≠ 0) :
    r.reg.inputSize = some r.size := by
  obtain ⟨hr, hlo, hhi⟩ := rowAt_mem hrow
  refine regMap_inputSize r hr hrw fun hop => ha (BitVec.eq_of_toNat_eq ?_)
  obtain ⟨hbase, hsize⟩ := regMap_op r hr hop
  show a.toNat = 0
  omega

/-- A writable offset lies in a writable row (R32). -/
theorem exists_row_of_isWritable {a : Offset} (ha : isWritable a = true) :
    a ≠ 0 ∧ ∃ r, rowAt a.toNat = some r ∧ r.access = .rw := by
  refine ⟨by rintro rfl; exact absurd ha (by decide), ?_⟩
  have h := rowAt_rw_iff a
  rw [ha, Bool.or_true] at h
  cases hrow : rowAt a.toNat with
  | none => simp [hrow] at h
  | some r => exact ⟨r, rfl, by simpa [hrow] using h⟩

/-- A write while `BUSY = 0` writes the byte of its row's register (R73). -/
theorem memWrite_of_row {s : State} (hb : s.busy = false) {a : Offset} {r : RegRow} (hrow : rowAt a.toNat = some r)
    (hrw : r.access = .rw) (v : Byte) : s.memWrite a v = s.setRegByte r.reg (a.toNat - r.base) v := by
  rcases memWrite_free hb a v with ⟨-, hro⟩ | ⟨r', hrow', -, h⟩
  · exact absurd (hrw.symm.trans (hro r hrow)) (by decide)
  · obtain rfl : r = r' := Option.some.inj (hrow.symm.trans hrow')
    exact h

theorem memRead_of_row {a : Offset} {r : RegRow} (hrow : rowAt a.toNat = some r) (s : State) :
    s.memRead a = s.regByte r.reg (a.toNat - r.base) := by
  rw [State.memRead, hrow]

theorem regMap_eFlags : ∀ r ∈ regMap, (r.reg = .E_FLAGS → r.base = 0x00A ∧ r.size = 1) ∧
    (r.base ≤ 0x00A → 0x00A < r.base + r.size → r.reg = .E_FLAGS) := by decide

/-- `E_FLAGS` is the register at 0x00A (R32). -/
theorem row_eFlags_iff {n : Nat} {r : RegRow} (hrow : rowAt n = some r) : r.reg = .E_FLAGS ↔ n = 0x00A := by
  obtain ⟨hr, hlo, hhi⟩ := rowAt_mem hrow
  obtain ⟨hflags, hat⟩ := regMap_eFlags r hr
  constructor
  · intro h
    obtain ⟨hbase, hsize⟩ := hflags h
    omega
  · rintro rfl
    exact hat hlo hhi

/-- A register has one row (R32). -/
theorem regMap_reg_inj : ∀ r ∈ regMap, ∀ r' ∈ regMap, r.reg = r'.reg → r = r' := by decide

section Write

variable {s : State} {a : Offset} {v : Byte} {r : RegRow} (hrow : rowAt a.toNat = some r)
  (hsize : r.reg.inputSize = some r.size)
include hrow hsize

/-- The offset written reads the byte kept (R73). -/
theorem memRead_written (hw : s.ibuf.wf = true) :
    (s.setRegByte r.reg (a.toNat - r.base) v).memRead a =
      if a.toNat = 0x00A then BitVec.ofNat 8 (v.toNat % 2) else v := by
  obtain ⟨-, hlo, hhi⟩ := rowAt_mem hrow
  rw [memRead_of_row hrow, regByte_setRegByte_same s hsize v (by omega) hw, Reg.kept,
    if_congr (row_eFlags_iff hrow) rfl rfl]

/-- Every other offset reads as before: it lies in another row, or is another byte of the same (R73). -/
theorem memRead_not_written {b : Offset} (hne : b ≠ a) :
    (s.setRegByte r.reg (a.toNat - r.base) v).memRead b = s.memRead b := by
  obtain ⟨hr, hlo, hhi⟩ := rowAt_mem hrow
  cases hrow' : rowAt b.toNat with
  | none => simp only [State.memRead, hrow']
  | some r' =>
    obtain ⟨hr', hlo', hhi'⟩ := rowAt_mem hrow'
    rw [memRead_of_row hrow', memRead_of_row hrow']
    by_cases hreg : r'.reg = r.reg
    · obtain rfl := regMap_reg_inj r' hr' r hr hreg
      have hne' : b.toNat ≠ a.toNat := fun h => hne (BitVec.eq_of_toNat_eq h)
      exact regByte_setRegByte_otherByte s hsize v (by omega) (by omega) (by omega)
    · exact regByte_setRegByte_otherReg s hsize v hreg _

end Write

/-- Settles O15: the row of the offset names the register, of which the write replaces one byte. -/
theorem writeStoresTheAddressedByteOnly : Obligations.WriteStoresTheAddressedByteOnly := by
  intro s a v hw hb ha
  obtain ⟨hop, r, hrow, hrw⟩ := exists_row_of_isWritable ha
  have hsize := inputSize_of_row hrow hrw hop
  have hexec : exec (.wr a v) s = .next (s.setRegByte r.reg (a.toNat - r.base) v) :=
    congrArg _ (memWrite_of_row hb hrow hrw v)
  refine ⟨_, hexec, memRead_written hrow hsize hw, fun b => memRead_not_written hrow hsize, ?frame⟩
  case frame =>
    obtain ⟨n, c, m, h⟩ := setRegByte_frame s hsize (k := a.toNat - r.base) v
    rw [h]
    exact ⟨rfl, rfl, rfl, rfl, rfl, rfl, rfl, rfl, rfl, rfl, rfl⟩

/-- A write made twice leaves what it left once (R80). -/
theorem memWrite_memWrite {s : State} {a : Offset} (hw : s.ibuf.wf = true) (hb : s.busy = false) (ha : a ≠ 0) (v : Byte) :
    (s.memWrite a v).memWrite a v = s.memWrite a v := by
  rcases memWrite_free hb a v with ⟨h, -⟩ | ⟨r, hrow, hrw, h⟩
  · rw [h, h]
  · have hsize := inputSize_of_row hrow hrw ha
    obtain ⟨n, c, m, hframe⟩ := setRegByte_frame s hsize (k := a.toNat - r.base) v
    have hb' : (s.setRegByte r.reg (a.toNat - r.base) v).busy = false := by rw [hframe]; exact hb
    rw [h, memWrite_of_row hb' hrow hrw, setRegByte_setRegByte s hsize v hw]

/-- Settles O16: the second write writes the byte that is there, and a read changes nothing that a read returns. -/
theorem accessesAreIdempotent : Obligations.AccessesAreIdempotent := by
  refine ⟨fun s t a v hw hb ha h => ?write, fun s t a h => ?read⟩
  case write =>
    cases h
    exact congrArg Host.Outcome.next (memWrite_memWrite hw hb ha v)
  case read =>
    cases h
    rfl

/-! ## Registers of several bytes -/

/-- A write at offset `k` of a writable row writes byte `k` of the row's register (R73). -/
theorem memWrite_row {s : State} (hb : s.busy = false) {a : Offset} (r : RegRow) {k : Nat} (v : Byte) (hk : k < r.size)
    (ha : a.toNat = r.base + k) (hrw : r.access = .rw) (hr : r ∈ regMap := by decide) :
    s.memWrite a v = s.setRegByte r.reg k v := by
  rw [memWrite_of_row hb (ha ▸ rowAt_base_add hr hk) hrw, ha, Nat.add_sub_cancel_left]

theorem memWrite_eVal {s : State} (hb : s.busy = false) {a : Offset} {k : Nat} (v : Byte) (hk : k < 4)
    (ha : a.toNat = 0x010 + k) : s.memWrite a v = s.setRegByte .E_VAL k v :=
  memWrite_row hb ⟨.E_VAL, 0x010, 4, .rw⟩ v hk ha rfl

theorem memWrite_ilen {s : State} (hb : s.busy = false) {a : Offset} {k : Nat} (v : Byte) (hk : k < 2)
    (ha : a.toNat = 0x004 + k) : s.memWrite a v = s.setRegByte .ILEN k v :=
  memWrite_row hb ⟨.ILEN, 0x004, 2, .rw⟩ v hk ha rfl

/-- A 32-bit register whose four bytes have been written, the lowest first. -/
theorem word_toNat_of_setBytes (x : Word) (b0 b1 b2 b3 : Byte) :
    (setByte (setByte (setByte (setByte x 0 b0) 1 b1) 2 b2) 3 b3).toNat =
      b0.toNat + b1.toNat * 256 + b2.toNat * 65536 + b3.toNat * 16777216 := by
  rw [word_toNat_eq_bytes]
  simp [byteOf_setByte, byteOf_setByte_other]

theorem half_toNat_of_setBytes (x : Half) (b0 b1 : Byte) :
    (setByte (setByte x 0 b0) 1 b1).toNat = b0.toNat + b1.toNat * 256 := by
  rw [half_toNat_eq_bytes]
  simp [byteOf_setByte, byteOf_setByte_other]

/-- Settles O17: a write to each offset replaces a byte of the register, and a read returns one. -/
theorem multiByteRegistersAreLittleEndian : Obligations.MultiByteRegistersAreLittleEndian := by
  refine ⟨fun s b0 b1 b2 b3 hb => ?eVal, fun s b0 b1 hb => ?ilen, fun s => ?dVal, fun s => ?olen⟩
  case eVal =>
    rw [memWrite_eVal (a := 0x010) (k := 0) ?_ b0 (by decide) rfl,
      memWrite_eVal (a := 0x011) (k := 1) ?_ b1 (by decide) rfl,
      memWrite_eVal (a := 0x012) (k := 2) ?_ b2 (by decide) rfl,
      memWrite_eVal (a := 0x013) (k := 3) ?_ b3 (by decide) rfl]
    exacts [word_toNat_of_setBytes s.cmd.val b0 b1 b2 b3, hb, hb, hb, hb]
  case ilen =>
    rw [memWrite_ilen (a := 0x004) (k := 0) ?_ b0 (by decide) rfl,
      memWrite_ilen (a := 0x005) (k := 1) ?_ b1 (by decide) rfl]
    exacts [half_toNat_of_setBytes s.ilen b0 b1, hb, hb]
  case dVal =>
    have hread {k : Nat} (hk : k < 4) {a : Offset} (ha : a.toNat = 0x048 + k) : s.memRead a = byteOf s.dec.val k :=
      memRead_row ⟨.D_VAL, 0x048, 4, .ro⟩ hk ha
    rw [hread (k := 0) (by decide) rfl, hread (k := 1) (by decide) rfl, hread (k := 2) (by decide) rfl,
      hread (k := 3) (by decide) rfl]
    exact word_toNat_eq_bytes s.dec.val
  case olen =>
    have hread {k : Nat} (hk : k < 2) {a : Offset} (ha : a.toNat = 0x006 + k) : s.memRead a = byteOf s.enc.olen k :=
      memRead_row ⟨.OLEN, 0x006, 2, .ro⟩ hk ha
    rw [hread (k := 0) (by decide) rfl, hread (k := 1) (by decide) rfl]
    exact half_toNat_eq_bytes s.enc.olen

end Sys2Proof.Machine
end

section
/-! PROOFS. The host and its programs (spec/30_encoding.md R112, R113; spec/20_memory.md R75, R82) and the infinite runs of
the two agents (spec/45_control_ops.md R286). -/

namespace Sys2Proof.Machine

/-! ## The lines of a host program -/

/-- Within the register space the number of R112's table decodes to the line's access (R111). -/
theorem decode_hostWord {off : Nat} (h : off < 0x400) (we : Bool) (b : Byte) :
    decode .bus (hostWord we off b) = .ok (if we then .wr (BitVec.ofNat 10 off) b else .rd (BitVec.ofNat 10 off)) := by
  rw [hostWord_eq_busWord h, decode_busWord]

theorem hostWord_write (off : Nat) (b : Byte) : hostWord true off b = 0x40000 + off * 0x100 + b.toNat := by
  rw [hostWord, Bool.toNat_true, Nat.one_mul]

theorem hostWord_read (off : Nat) : hostWord false off 0 = off * 0x100 := by
  simp [hostWord]

section Turn

variable {h : HostAgent} {off : Nat} (s : State)

theorem turn_wr {b : Byte} (hline : h.prog[h.line]? = some (.wr off b)) :
    h.turn s = (s.access true off b).map fun s' => (h.advance, s') := by
  rw [HostAgent.turn, hline]

/-- Within the register space the host's read sets the variable to the byte at the offset (R72, R112). -/
theorem turn_rd_inside {t : HostVar} (hline : h.prog[h.line]? = some (.rd off t)) (hoff : off < 0x400) :
    h.turn s = .ok ((h.set t (s.memRead (BitVec.ofNat 10 off))).advance,
      { s with lastRead := some (s.memRead (BitVec.ofNat 10 off)) }) := by
  simp only [HostAgent.turn, hline, access_inside hoff]
  rfl

theorem turn_rd_outside {t : HostVar} (hline : h.prog[h.line]? = some (.rd off t)) (hoff : 0x400 ≤ off) :
    h.turn s = .error (.noSuchTransaction off) := by
  simp only [HostAgent.turn, hline, access_outside hoff]
  rfl

theorem turn_wrVar {t : HostVar} {b : Byte} (hline : h.prog[h.line]? = some (.wrVar off t)) (hb : h.get t = some b) :
    h.turn s = (s.access true off b).map fun s' => (h.advance, s') := by
  rw [HostAgent.turn, hline]
  dsimp only
  rw [hb]

end Turn

/-- Settles O57: the numbers of the table are bus words within the register space, and outside it no access is made. -/
theorem hostLinesAreBusWords : Obligations.HostLinesAreBusWords := by
  refine ⟨fun h off b => ⟨?wrNumber, fun hoff => ?wrDecodes⟩, fun h off t => ⟨?rdNumber, fun hoff => ?rdDecodes⟩,
    fun h off t b hb => ?wrVarNumber,
    fun h s off hoff => ⟨fun b hline => ?wr, fun t hline => ?rd, fun t b hline hb => ?wrVar⟩⟩
  case wrNumber => exact congrArg some (hostWord_write off b)
  case wrDecodes => rw [← hostWord_write]; exact decode_hostWord hoff true b
  case rdNumber => exact congrArg some (hostWord_read off)
  case rdDecodes => rw [← hostWord_read]; exact decode_hostWord hoff false 0
  case wrVarNumber =>
    show (h.get t).map _ = _
    rw [hb, ← hostWord_write]
    rfl
  case wr => rw [turn_wr s hline, access_outside hoff]; rfl
  case rd => exact turn_rd_outside s hline hoff
  case wrVar => rw [turn_wrVar s hline hb, access_outside hoff]; rfl

/-! ## WAIT -/

theorem HostAgent.get_set (h : HostAgent) (t : HostVar) (b : Byte) : (h.set t b).get t = some b := by
  simp [HostAgent.get, HostAgent.set]

/-- Bit 0 of `STATUS` is `BUSY` (R61). -/
theorem memRead_status_getLsbD_zero (s : State) : (s.memRead 0x001).getLsbD 0 = s.busy := by
  rw [memRead_row ⟨.STATUS, 0x001, 1, .ro⟩ Nat.one_pos rfl]
  show s.statusByte.getLsbD 0 = s.busy
  unfold State.statusByte
  cases s.errf <;> cases s.done <;> cases s.busy <;> rfl

/-- Settles O58: the read returns `STATUS`, and a write sets `FAULT` only while `BUSY = 1`. -/
theorem waitSeesBusy : Obligations.WaitSeesBusy := by
  intro h s hline
  have hturn := turn_rd_inside s hline (by decide)
  have hbit : (s.memRead 0x001).getLsbD 0 = s.busy := memRead_status_getLsbD_zero s
  refine ⟨_, _, s.memRead 0x001, hturn, h.get_set _ _, rfl, rfl, hbit, rfl, fun hclear a v => ?_⟩
  have hb : s.busy = false := hbit.symm.trans hclear
  rw [memWrite_fault]
  show (s.busy || s.fault) = s.fault
  rw [hb, Bool.false_or]

/-- The expansion of a program around one use of `WAIT` (R113). -/
theorem expandProgram_wait (before after : List HostItem) :
    expandProgram (before ++ .pseudo .wait :: after) = expandProgram before ++
      [.label (.ofWait before.length), .rd 0x001 { name := "t", elem := none }, .ifGoto "t" 0 (.ofWait before.length)] ++
      expandFrom (before.length + 1) after := by
  rw [expandProgram, expandFrom_append, Nat.zero_add, List.append_assoc]
  rfl

/-- Settles O60: no item before this `WAIT` makes its label, so a jump to it finds the line before its own read. -/
theorem waitGoesBackToItsOwnRead : Obligations.WaitGoesBackToItsOwnRead := by
  intro before after h hprog at' own
  rw [expandProgram_wait, List.append_assoc] at hprog
  have hline (k : Nat) : h.prog[at' + k]? =
      ([.label own, .rd 0x001 { name := "t", elem := none }, .ifGoto "t" 0 own] ++
        expandFrom (before.length + 1) after)[k]? := by
    rw [hprog, List.getElem?_append_right (Nat.le_add_right _ _), Nat.add_sub_cancel_left]
  have hfirst : ∀ k, k < at' → h.prog[k]? ≠ some (.label own) := by
    intro k hk hlabel
    rw [hprog, List.getElem?_append_left hk] at hlabel
    have := ofWait_mem_expandFrom (List.mem_of_getElem? hlabel)
    omega
  exact ⟨hline 0, hline 1, hline 2, jump_eq (hline 0) hfirst⟩

/-! ## Infinite runs -/

/-- An operation that does not stay pending for ever has a last step before which it is still pending. -/
theorem exists_last_pending {busy : Nat → Bool} {n : Nat} (hn : busy n = true) (hend : ∃ m, n ≤ m ∧ busy m = false) :
    ∃ m, n ≤ m ∧ (∀ k, n ≤ k → k ≤ m → busy k = true) ∧ busy (m + 1) = false := by
  obtain ⟨hm, hlast⟩ := Nat.find_spec hend
  have hmin : ∀ k, n ≤ k → k < Nat.find hend → busy k = true := fun k hk hlt =>
    Bool.eq_true_of_not_eq_false fun h => Nat.find_min hend hlt ⟨hk, h⟩
  have hne : Nat.find hend ≠ n := fun h => absurd (hn.symm.trans (h ▸ hlast)) (by decide)
  refine ⟨Nat.find hend - 1, by omega, fun k hk hle => hmin k hk (by omega), ?_⟩
  rwa [Nat.sub_add_cancel (by omega)]

/-- In a weakly fair run whose steps leave a pending operation pending, and then are not the codec's, or end it, each pending
operation stays pending up to a step that ends it (R286). -/
theorem WeaklyFair.pending_ends {isCodec ends : Nat → Prop} {run : Nat → State} (hfair : WeaklyFair isCodec run)
    (hstep : ∀ m, (run m).busy = true →
      ((run (m + 1)).busy = true ∧ ¬ isCodec m) ∨ ((run (m + 1)).busy = false ∧ ends m))
    {n : Nat} (hn : (run n).busy = true) :
    ∃ m, n ≤ m ∧ (∀ k, n ≤ k → k ≤ m → (run k).busy = true) ∧ ends m := by
  have hend : ∃ m, n ≤ m ∧ (run m).busy = false := by
    by_contra hnever
    have hbusy : ∀ m, n ≤ m → (run m).busy = true := fun m hm =>
      Bool.eq_true_of_not_eq_false fun h => hnever ⟨m, hm, h⟩
    obtain ⟨m, hm, hturn⟩ := hfair n hbusy
    rcases hstep m (hbusy m hm) with ⟨-, hother⟩ | ⟨hidle, -⟩
    · exact hother hturn
    · exact hnever ⟨m + 1, by omega, hidle⟩
  obtain ⟨m, hm, hpending, hidle⟩ := exists_last_pending (busy := fun m => (run m).busy) hn hend
  rcases hstep m (hpending m hm (Nat.le_refl m)) with ⟨hbusy, -⟩ | ⟨-, hends⟩
  · exact absurd (hbusy.symm.trans hidle) (by decide)
  · exact ⟨m, hm, hpending, hends⟩

/-- An event leaves a pending operation pending and is then not the codec's turn, or it is the codec's turn, which completes
the operation, or a reset, which discards it (R280, R342). -/
theorem issue_ends_cases {s t : State} {e : Event} (hb : s.busy = true) (h : s.issue e = .ok t) :
    (t.busy = true ∧ e ≠ .codec) ∨ (t.busy = false ∧
      (e = .codec ∧ t.busy = false ∧ t.done = true ∨ e = .reset ∧ t.busy = false ∧ t.done = false)) := by
  rcases issue_cases hb h with ⟨w, rfl, rfl | ⟨b, rfl⟩⟩ | ⟨rfl, -, hidle, hdone⟩ | ⟨rfl, rfl⟩
  · exact .inl ⟨hb, nofun⟩
  · exact .inl ⟨hb, nofun⟩
  · exact .inr ⟨hidle, .inl ⟨rfl, hidle, hdone⟩⟩
  · exact .inr ⟨rfl, .inr ⟨rfl, rfl, rfl⟩⟩

/-! ### Turns of a host program -/

theorem except_map_eq_ok_iff {ε α β : Type} {f : α → β} {e : Except ε α} {b : β} :
    e.map f = .ok b ↔ ∃ a, e = .ok a ∧ f a = b := by
  cases e <;> simp [Except.map]

/-- A host's access leaves a pending operation pending (R79). -/
theorem access_busy {s t : State} (hb : s.busy = true) {we : Bool} {off : Nat} {b : Byte}
    (h : s.access we off b = .ok t) : t.busy = true := by
  rcases Nat.lt_or_ge off 0x400 with hoff | hoff
  · rw [access_inside hoff] at h
    cases h
    cases we with
    | false => exact hb
    | true => exact (congrArg State.busy (memWrite_busy hb _ b)).trans hb
  · rw [access_outside hoff] at h
    cases h

theorem busy_of_access_map {s t : State} (hb : s.busy = true) {we : Bool} {off : Nat} {b : Byte} {f : State → HostAgent}
    {h' : HostAgent} (h : (s.access we off b).map (fun u => (f u, u)) = .ok (h', t)) : t.busy = true := by
  obtain ⟨u, hu, hpair⟩ := except_map_eq_ok_iff.1 h
  cases hpair
  exact access_busy hb hu

/-- A jump does nothing to the block (R112). -/
theorem state_of_jump_map {h h' : HostAgent} {l : HostLabel} {s t : State}
    (hjump : (h.jump l).map (fun u => (u, s)) = .ok (h', t)) : t = s := by
  obtain ⟨u, -, hpair⟩ := except_map_eq_ok_iff.1 hjump
  cases hpair
  rfl

/-- A turn of the host leaves a pending operation pending, unless its line is RESET (R112, R342). -/
theorem turn_busy {h h' : HostAgent} {s t : State} (hb : s.busy = true) (hturn : h.turn s = .ok (h', t)) :
    t.busy = true ∨ h.prog[h.line]? = some .reset ∧ t = s.assertReset := by
  unfold HostAgent.turn at hturn
  split at hturn
  case h_1 => cases hturn; exact .inl hb
  case h_2 => exact .inl (busy_of_access_map hb hturn)
  case h_3 => exact .inl (busy_of_access_map hb hturn)
  case h_4 => cases hturn; exact .inl hb
  case h_5 =>
    split at hturn
    · cases hturn
    · exact .inl (busy_of_access_map hb hturn)
  case h_6 =>
    split at hturn
    · cases hturn
    · split at hturn
      · exact .inl (state_of_jump_map hturn ▸ hb)
      · cases hturn; exact .inl hb
  case h_7 => exact .inl (state_of_jump_map hturn ▸ hb)
  case h_8 hline =>
    rw [issue_reset] at hturn
    cases hturn
    exact .inr ⟨hline, rfl⟩

/-- An agent's turn leaves a pending operation pending and is then the host's, or it is the codec's turn, which completes the
operation, or the host's line RESET, which discards it. -/
theorem agentTurn_ends_cases {a : Agent} {h h' : HostAgent} {s t : State} (hb : s.busy = true)
    (hturn : agentTurn a h s = .ok (h', t)) :
    (t.busy = true ∧ a ≠ .codec) ∨ (t.busy = false ∧
      (a = .codec ∧ t.busy = false ∧ t.done = true ∨
        a = .host ∧ h.prog[h.line]? = some .reset ∧ t.busy = false ∧ t.done = false)) := by
  cases a with
  | host =>
    rcases turn_busy hb hturn with hbusy | ⟨hline, rfl⟩
    · exact .inl ⟨hbusy, nofun⟩
    · exact .inr ⟨rfl, .inr ⟨rfl, hline, rfl, rfl⟩⟩
  | codec =>
    obtain ⟨u, hu, hpair⟩ := except_map_eq_ok_iff.1 hturn
    cases hpair
    rcases issue_ends_cases hb hu with ⟨-, hne⟩ | ⟨hidle, ⟨-, hend⟩ | ⟨he, -⟩⟩
    · exact absurd rfl hne
    · exact .inr ⟨hidle, .inl ⟨rfl, hend⟩⟩
    · cases he

/-! ### A fair run that leaves an operation pending for long -/

/-- The state after an event, or the same state when there is no step for it. -/
def State.afterEvent (s : State) (e : Event) : State :=
  match s.issue e with
  | .ok t => t
  | .error _ => s

/-- The run from a state under an order of events. -/
def runFrom (s : State) (order : Nat → Event) : Nat → State
  | 0 => s
  | m + 1 => (runFrom s order m).afterEvent (order m)

/-- `n` reads of `STATUS`, and then the codec's turn for ever. -/
def readsThenCodec (n m : Nat) : Event := if m < n then .bus (busWord false 0x001 0) else .codec

theorem issue_eq_ok_afterEvent {s t : State} {e : Event} (h : s.issue e = .ok t) : s.issue e = .ok (s.afterEvent e) := by
  rw [State.afterEvent, h]

/-- A read leaves `BUSY` as it is (R72). -/
theorem afterEvent_read_busy (s : State) (a : Offset) : (s.afterEvent (.bus (busWord false a 0))).busy = s.busy := by
  rw [State.afterEvent, issue_bus]
  rfl

theorem isRun_readsThenCodec (s : State) (n : Nat) : IsRun (readsThenCodec n) (runFrom s (readsThenCodec n)) := by
  intro m
  suffices h : ∀ u : State, ∃ t, u.issue (readsThenCodec n m) = .ok t by
    obtain ⟨t, ht⟩ := h (runFrom s (readsThenCodec n) m)
    exact issue_eq_ok_afterEvent ht
  intro u
  unfold readsThenCodec
  split
  · exact ⟨_, issue_bus u false _ _⟩
  · cases hb : u.busy with
    | false => exact ⟨_, issue_codec_idle hb⟩
    | true =>
      obtain ⟨t, ht, -⟩ := issue_codec_busy hb
      exact ⟨t, ht⟩

theorem weaklyFair_readsThenCodec (n : Nat) (run : Nat → State) :
    WeaklyFair (fun m => readsThenCodec n m = .codec) run :=
  fun k _ => ⟨max k n, Nat.le_max_left k n, if_neg (Nat.not_lt.2 (Nat.le_max_right k n))⟩

theorem runFrom_readsThenCodec_busy {s : State} (hb : s.busy = true) {n k : Nat} (hk : k ≤ n) :
    (runFrom s (readsThenCodec n) k).busy = true := by
  induction k with
  | zero => exact hb
  | succ k ih =>
    have hread : readsThenCodec n k = .bus (busWord false 0x001 0) := if_pos hk
    rw [runFrom, hread, afterEvent_read_busy]
    exact ih (Nat.le_of_succ_le hk)

/-- Settles O59: fairness brings the codec's turn unless a reset comes first, and it may come as late as one likes. -/
theorem fairRunsPerformThePendingOperation : Obligations.FairRunsPerformThePendingOperation := by
  refine ⟨fun s hb hfinal => ?final, fun order run hrun hfair n hn => ?block, fun order run hrun hfair n hn => ?program,
    fun s n hb => ?late⟩
  case final => exact absurd (hb.symm.trans hfinal.1) (by decide)
  case block => exact hfair.pending_ends (fun m hb => issue_ends_cases hb (hrun m)) hn
  case program => exact hfair.pending_ends (fun m hb => agentTurn_ends_cases hb (hrun m)) hn
  case late =>
    exact ⟨readsThenCodec n, runFrom s (readsThenCodec n), isRun_readsThenCodec s n, weaklyFair_readsThenCodec n _, rfl,
      fun k hk => runFrom_readsThenCodec_busy hb hk⟩

end Sys2Proof.Machine
end
